-- ==== Sys2Proof/Word.lean ====
section
/-! DEFINITION. The word types of the block: the byte of the Decoded Track, the 16-bit window, codeword
and CRC values, and the 32-bit command word (00_scope.md R7, R10; 30_encoding.md R80). -/

namespace Sys2Proof

/-- A byte of the Decoded Track, of an operand or of a register (u8, R10). -/
abbrev Byte := BitVec 8

/-- A 16-bit window, codeword or CRC value (u16, R10). -/
abbrev Half := BitVec 16

/-- A 32-bit command word (R80) or a word of a record's read-out (R54). -/
abbrev Word := BitVec 32

end Sys2Proof
end

