-- ==== Sys2Proof/Config.lean ====
section
/-! DEFINITION. What is fixed for a machine: the parameters the source fixes (00_scope.md R7), the
parameters a model takes as an argument (00_scope.md R8), and the free values, which have no body. -/

namespace Sys2Proof.Config

/-- SYNC_A1_WIN (R7): the A1 sync window, in window order. -/
def syncA1Win : Half := 0x9122

/-- MARK_C2_WIN (R7): the C2 mark window, in window order. -/
def markC2Win : Half := 0x244A

/-- GAP_4E_WIN (R7): the 4E gap window, in window order. -/
def gap4EWin : Half := 0x2A49

/-- WINDOW_W (R7): the number of bits of the window, and the restart value of the countdown (R24). -/
def windowBits : Nat := 16

/-- A1_RUN (R7): the number of A1 marks before a field mark. -/
def a1Run : Fin 4 := 3

/-- AMIGA_RUN (R7): the number of A1 marks that trigger the Amiga path. -/
def amigaRun : Fin 4 := 2

/-- ID_LEN (R7): the number of ID bytes of an ID field. -/
def idLen : Nat := 4

/-- RECOVER_SPAN (R7): how many bytes before a recovered mark are rewritten. -/
def recoverSpan : Nat := 16

/-- CRC_POLY (R7). -/
def crcPoly : Half := 0x1021

/-- CRC_SEED (R7). -/
def crcSeed : Half := 0xFFFF

/-- CRC_RECOVER_SEED (R7): the CRC of three A1 bytes from the seed. -/
def crcRecoverSeed : Half := 0xCDB4

/-- AMIGA_HDR_LEN (R7, R178): the bytes of the Amiga header region. -/
abbrev amigaHdrLen : Nat := 22

/-- AMIGA_DATA_LEN (R7): the bytes of the Amiga data region. -/
abbrev amigaDataLen : Nat := 512

/-- The byte an A1 recognition produces (R70). -/
def a1Byte : Byte := 0xA1

/-- The byte a C2 recognition produces (R70). -/
def c2Byte : Byte := 0xC2

/-- The parameters the source does not fix. A model takes each one as an argument (R8); here they are
one field of State, which no instruction changes (log entry 2). -/
structure Params where
  /-- BYTES_CAP: the capacity of the byte memory. -/
  bytesCap : Nat
  /-- CATALOG_CAP: the capacity of the catalog. -/
  catalogCap : Nat
  /-- AMIGA_FORMAT_MARK: the fixed sentinel of an Amiga header. -/
  amigaFormatMark : Byte
  /-- AMIGA_MAX_CYL: the largest plausible Amiga cylinder. -/
  amigaMaxCyl : Nat
  /-- AMIGA_MAX_SECTOR: the largest plausible Amiga sector number. -/
  amigaMaxSector : Nat
  /-- AMIGA_TRIGGER_ANY: whether any byte after exactly two A1s triggers the Amiga path. -/
  amigaTriggerAny : Bool
  /-- PRESERVE_GATE_IDLE: whether the every-bit gap and index check is suppressed while a field is open. -/
  preserveGateIdle : Bool
  /-- PARTIAL_SET: the partially-zero bytes the pre-sync fixup also clears. -/
  partialSet : List Byte
deriving DecidableEq, Repr

/-- The default PARTIAL_SET (41_demodulator.md R118). -/
def partialSetDefault : List Byte :=
  [0xFE, 0x01, 0xFC, 0x02, 0xF8, 0x05, 0xF0, 0x0A, 0xE1, 0x14, 0xC2, 0x28, 0x85, 0x50]

/-- The parameters at `State.reset`: the defaults and suggestions of R8, and for the two capacities,
which have none, the largest value R8 admits for BYTES_CAP. DESIGN CHOICE (log entry 2), unsafe; the
three Amiga values are the spec's suggestions from general knowledge: PRESUMED (log entry 3), unsafe. -/
def defaultParams : Params :=
  { bytesCap := 0xFFFFFFFF
    catalogCap := 0xFFFFFFFF
    amigaFormatMark := 0xFF
    amigaMaxCyl := 83
    amigaMaxSector := 21
    amigaTriggerAny := false
    preserveGateIdle := false
    partialSet := partialSetDefault }

/-- Free value (R32: openRec "is undefined while stage is Idle or AmigaHeader"): the kind, as a number,
that a close finds in openRec when no record is open, at channel-bit count `pos`. Log entry 7. -/
opaque freeRecordKind : Nat → Fin 3

/-- Free value (R32): the mark byte that a close finds in openRec when no record is open. Log entry 7. -/
opaque freeRecordMark : Nat → Byte

/-- Free value (R32): the offset that a close finds in openRec when no record is open. Log entry 7. -/
opaque freeRecordOffset : Nat → Nat

end Sys2Proof.Config
end

