-- ==== Sys2Proof/Syntax.lean ====
section
/-! DEFINITION. The instructions of the block: one constructor per row of spec/opcode_table.json, namely
the eight command words a host issues (30_encoding.md R80) and the twelve decoded forms that the block's
own decode logic selects inside a command (00_scope.md R2; 30_encoding.md R70, R73, R76). Also the forms
by themselves, and the four word formats of the table (R92). -/

namespace Sys2Proof

/-- One constructor per row of the opcode table. -/
inductive Instr where
  /-- DEC_START recover, preserve (R100). -/
  | decStart (recover preserve : Bool)
  /-- DEC_BIT b (R105). -/
  | decBit (b : Bool)
  /-- DEC_BYTE x (R107). -/
  | decByte (x : Byte)
  /-- DEC_END (R157). -/
  | decEnd
  /-- ENC_START prev (R191). -/
  | encStart (prev : Bool)
  /-- ENC_BYTE v, s (R193). -/
  | encByte (v : Byte) (s : Bool)
  /-- CRC_LOAD value (R134). -/
  | crcLoad (value : Half)
  /-- CRC_BYTE b (R135). -/
  | crcByte (b : Byte)
  /-- The window form SYNC_A1 (R70, R113). -/
  | syncA1
  /-- The window form MARK_C2 (R70, R110). -/
  | markC2
  /-- The window form GAP_4E (R70, R111). -/
  | gap4E
  /-- The window form DATA_WINDOW, any other window (R70, R109). -/
  | dataWindow (w : Half)
  /-- The mark IDAM_FC (R73, R143). -/
  | idamFc
  /-- The mark IDAM_FD (R73, R143). -/
  | idamFd
  /-- The mark IDAM_FE (R73, R143). -/
  | idamFe
  /-- The mark DAM, a byte 0xF8..0xFB (R73, R148, R149). -/
  | dam (v : Byte)
  /-- MARK_UNKNOWN, any other mark byte (R73, R153). -/
  | markUnknown (v : Byte)
  /-- The encoder selection ENC_SYNC_A1 (R76, R193). -/
  | encSyncA1
  /-- The encoder selection ENC_SYNC_C2 (R76, R193). -/
  | encSyncC2
  /-- The encoder selection ENC_DATA, any other byte and sync bit (R76, R193). -/
  | encData (v : Byte) (s : Bool)
deriving DecidableEq, Repr

/-- The window forms (R70). -/
inductive WindowForm where
  | syncA1
  | markC2
  | gap4E
  | dataWindow (w : Half)
deriving DecidableEq, Repr

/-- The field-mark forms (R73). -/
inductive MarkForm where
  | idamFc
  | idamFd
  | idamFe
  | dam (v : Byte)
  | unknown (v : Byte)
deriving DecidableEq, Repr

/-- The encoder's codeword selections (R76). -/
inductive EncForm where
  | syncA1
  | syncC2
  | data (v : Byte) (s : Bool)
deriving DecidableEq, Repr

/-- The instruction a window form is. -/
def WindowForm.instr : WindowForm → Instr
  | .syncA1 => .syncA1
  | .markC2 => .markC2
  | .gap4E => .gap4E
  | .dataWindow w => .dataWindow w

/-- The instruction a mark form is. -/
def MarkForm.instr : MarkForm → Instr
  | .idamFc => .idamFc
  | .idamFd => .idamFd
  | .idamFe => .idamFe
  | .dam v => .dam v
  | .unknown v => .markUnknown v

/-- The instruction an encoder selection is. -/
def EncForm.instr : EncForm → Instr
  | .syncA1 => .encSyncA1
  | .syncC2 => .encSyncC2
  | .data v s => .encData v s

/-- A word of one of the opcode table's four formats (R92). -/
inductive FormatWord where
  /-- The 32-bit command word of R80. -/
  | command32 (w : Word)
  /-- The 16-bit window of R70. -/
  | window16 (w : Half)
  /-- The mark byte of R73. -/
  | mark8 (v : Byte)
  /-- The encoder selector input of R76: the sync bit above the byte. -/
  | encsel9 (sel : BitVec 9)
deriving DecidableEq, Repr

/-- Why a command word is refused (60_exceptions.md R204). -/
inductive RefuseReason where
  /-- RESERVED_OPCODE: bits [31:24] name no command (R86). -/
  | reservedOpcode
  /-- RESERVED_OPERAND: a defined opcode with a nonzero reserved operand bit (R86). -/
  | reservedOperand
  /-- DECODER_DONE: DEC_BIT, DEC_BYTE or DEC_END while the decoder is Done (R22). -/
  | decoderDone
deriving DecidableEq, Repr

end Sys2Proof
end

