-- ==== Sys2Proof/WellFormed.lean ====
section
/-! DEFINITION. Which instructions are well formed: a form that stands for "any other value" of its table
does not hold a value that an earlier row matches, and a DAM byte lies in its row (30_encoding.md R70,
R73, R76). Every operand of a command word has its field's width, so every command is well formed (R80). -/

namespace Sys2Proof

/-- A window that DATA_WINDOW stands for: none of the three patterns (R70). -/
def isDataWindow (w : Half) : Bool :=
  w != Config.syncA1Win && w != Config.markC2Win && w != Config.gap4EWin

/-- A byte that MARK_UNKNOWN stands for: outside 0xF8..0xFE (R73). -/
def isUnknownMark (v : Byte) : Bool := v.toNat < 0xF8 || v.toNat > 0xFE

/-- A byte of the DAM row: 0xF8..0xFB (R73). -/
def isDataMark (v : Byte) : Bool := 0xF8 ≤ v.toNat && v.toNat ≤ 0xFB

/-- A byte and sync bit that ENC_DATA stands for: not a sync 0xA1 and not a sync 0xC2 (R76). -/
def isEncData (v : Byte) (s : Bool) : Bool :=
  !(s && (v == Config.a1Byte || v == Config.c2Byte))

/-- The well-formed instructions. -/
def Instr.wf : Instr → Bool
  | .decStart _ _ => true
  | .decBit _ => true
  | .decByte _ => true
  | .decEnd => true
  | .encStart _ => true
  | .encByte _ _ => true
  | .crcLoad _ => true
  | .crcByte _ => true
  | .syncA1 => true
  | .markC2 => true
  | .gap4E => true
  | .dataWindow w => isDataWindow w
  | .idamFc => true
  | .idamFd => true
  | .idamFe => true
  | .dam v => isDataMark v
  | .markUnknown v => isUnknownMark v
  | .encSyncA1 => true
  | .encSyncC2 => true
  | .encData v s => isEncData v s

/-- The legal parameters: BYTES_CAP is below 2^32, so that offsets and lengths fit the 32-bit record
words (00_scope.md R8). -/
def Config.Params.wf (c : Config.Params) : Bool := c.bytesCap < 2 ^ 32

end Sys2Proof
end

