-- ==== Sys2Proof/Decode.lean ====
section
/-! DEFINITION. Decoding and encoding. The decoder is total: a 32-bit command word gives an instruction or
the name of its refusal (30_encoding.md R80, R86, R87), and the block's own decode logic classifies every
window (R70), every mark byte (R73) and every encoder selector (R76). The encoder writes the word of an
instruction from the same tables. -/

namespace Sys2Proof

/-- Bits [31:24] of a command word (R80). -/
def opcodeOf (w : Word) : Byte := w.extractLsb' 24 8

/-- Bits [23:0] of a command word (R80). -/
def operandOf (w : Word) : BitVec 24 := w.extractLsb' 0 24

/-- `i` if the reserved operand bits, those from bit `used` up, are all 0; else RESERVED_OPERAND (R87). -/
def checkReserved (used : Nat) (operand : BitVec 24) (i : Instr) : Except RefuseReason Instr :=
  if operand >>> used = 0 then .ok i else .error .reservedOperand

/-- Decoding a command word, in the order of R87: the opcode first, then the reserved operand bits. The
operand fields are those of R80. -/
def decodeCommand (w : Word) : Except RefuseReason Instr :=
  let op := operandOf w
  match (opcodeOf w).toNat with
  | 0x01 => checkReserved 2 op (.decStart (op.getLsbD 0) (op.getLsbD 1))
  | 0x02 => checkReserved 1 op (.decBit (op.getLsbD 0))
  | 0x03 => checkReserved 8 op (.decByte (op.setWidth 8))
  | 0x04 => checkReserved 0 op .decEnd
  | 0x10 => checkReserved 1 op (.encStart (op.getLsbD 0))
  | 0x11 => checkReserved 9 op (.encByte (op.setWidth 8) (op.getLsbD 8))
  | 0x20 => checkReserved 16 op (.crcLoad (op.setWidth 16))
  | 0x21 => checkReserved 8 op (.crcByte (op.setWidth 8))
  | _ => .error .reservedOpcode

/-- The window recognizer's table (R70): a pattern matches only when the whole value is equal. -/
def classifyWindow (w : Half) : WindowForm :=
  if w = Config.syncA1Win then .syncA1
  else if w = Config.markC2Win then .markC2
  else if w = Config.gap4EWin then .gap4E
  else .dataWindow w

/-- The field-mark classifier (R73). -/
def classifyMark (v : Byte) : MarkForm :=
  if v = 0xFC then .idamFc
  else if v = 0xFD then .idamFd
  else if v = 0xFE then .idamFe
  else if v &&& 0xFC = 0xF8 then .dam v
  else .unknown v

/-- The encoder's codeword selector (R76). -/
def classifyEnc (v : Byte) (s : Bool) : EncForm :=
  if s = true ∧ v = Config.a1Byte then .syncA1
  else if s = true ∧ v = Config.c2Byte then .syncC2
  else .data v s

/-- Decoding a word of any of the table's formats (R92). -/
def decode : FormatWord → Except RefuseReason Instr
  | .command32 w => decodeCommand w
  | .window16 w => .ok (classifyWindow w).instr
  | .mark8 v => .ok (classifyMark v).instr
  | .encsel9 sel => .ok (classifyEnc (sel.setWidth 8) (sel.getLsbD 8)).instr

/-- A command word from its opcode and its operand (R80). -/
def commandWord (opcode : Byte) (operand : BitVec 24) : Word := opcode ++ operand

/-- The encoder selector input: the sync bit at bit 8, the byte at bits [7:0] (R92). -/
def selectorWord (v : Byte) (s : Bool) : BitVec 9 := BitVec.ofBool s ++ v

/-- The word of an instruction, from the encodings R81 to R85 of the commands and the match values of
R70, R73 and R76. -/
def encode : Instr → FormatWord
  | .decStart r p => .command32 (commandWord 0x01 ((BitVec.ofBool p ++ BitVec.ofBool r).setWidth 24))
  | .decBit b => .command32 (commandWord 0x02 ((BitVec.ofBool b).setWidth 24))
  | .decByte x => .command32 (commandWord 0x03 (x.setWidth 24))
  | .decEnd => .command32 (commandWord 0x04 0)
  | .encStart p => .command32 (commandWord 0x10 ((BitVec.ofBool p).setWidth 24))
  | .encByte v s => .command32 (commandWord 0x11 ((BitVec.ofBool s ++ v).setWidth 24))
  | .crcLoad value => .command32 (commandWord 0x20 (value.setWidth 24))
  | .crcByte b => .command32 (commandWord 0x21 (b.setWidth 24))
  | .syncA1 => .window16 Config.syncA1Win
  | .markC2 => .window16 Config.markC2Win
  | .gap4E => .window16 Config.gap4EWin
  | .dataWindow w => .window16 w
  | .idamFc => .mark8 0xFC
  | .idamFd => .mark8 0xFD
  | .idamFe => .mark8 0xFE
  | .dam v => .mark8 v
  | .markUnknown v => .mark8 v
  | .encSyncA1 => .encsel9 (selectorWord Config.a1Byte true)
  | .encSyncC2 => .encsel9 (selectorWord Config.c2Byte true)
  | .encData v s => .encsel9 (selectorWord v s)

/-- The command rows of the opcode table: mnemonic, match and mask (R80). -/
structure CommandRow where
  mnemonic : String
  matchBits : Word
  maskBits : Word
deriving DecidableEq, Repr

/-- The table of R80. -/
def commandRows : List CommandRow :=
  [⟨"DEC_START", 0x01000000, 0xFFFFFFFC⟩, ⟨"DEC_BIT", 0x02000000, 0xFFFFFFFE⟩,
   ⟨"DEC_BYTE", 0x03000000, 0xFFFFFF00⟩, ⟨"DEC_END", 0x04000000, 0xFFFFFFFF⟩,
   ⟨"ENC_START", 0x10000000, 0xFFFFFFFE⟩, ⟨"ENC_BYTE", 0x11000000, 0xFFFFFE00⟩,
   ⟨"CRC_LOAD", 0x20000000, 0xFFFF0000⟩, ⟨"CRC_BYTE", 0x21000000, 0xFFFFFF00⟩]

/-- A word is a row's command exactly when its masked bits are the row's match bits (R80). -/
def CommandRow.matches (r : CommandRow) (w : Word) : Bool := w &&& r.maskBits = r.matchBits

/-- The table format that a word of `nbits` bits is read in (R92). The table gives its window rows 16 bits
and its encoder selector rows 9, which are 16 in whole bytes. A 16-bit word whose bits above bit 8 are 0 is
read as a selector, and any other as a window. DESIGN CHOICE (log entry 6), unsafe. -/
def tableFormat (nbits w : Nat) : Option FormatWord :=
  if nbits = 32 then some (.command32 (BitVec.ofNat 32 w))
  else if nbits = 8 then some (.mark8 (BitVec.ofNat 8 w))
  else if nbits = 9 ∨ (nbits = 16 ∧ w < 2 ^ 9) then some (.encsel9 (BitVec.ofNat 9 w))
  else if nbits = 16 then some (.window16 (BitVec.ofNat 16 w))
  else none

/-- The instruction the decoder reads from a word of the opcode table. -/
def decodeTableWord (nbits w : Nat) : Option Instr :=
  match tableFormat nbits w with
  | none => none
  | some f =>
    match decode f with
    | .ok i => some i
    | .error _ => none

end Sys2Proof
end

