-- ==== Sys2Proof/Machine/State.lean ====
section
/-! DEFINITION. The state of one block instance (10_state.md R20 to R42, 20_memory.md R50 to R54), as plain
data, its value at power-on (R41, R220), and the ways a step could stop. -/

namespace Sys2Proof.Machine

open Sys2Proof.Config

/-- A sparse memory: (index, value) pairs. `Memory.wf` says which of them are canonical. -/
abbrev Cells (α : Type) := List (Nat × α)

/-- The byte memory of the Decoded Track (R50). -/
abbrev Memory := List Host.Cell

/-- The sync bits of the Decoded Track, one per byte (R50). -/
abbrev SyncMap := Cells Bool

/-- What an unlisted byte index reads as: 0, the value of an out-of-range read (30_encoding.md R88).
Log entry 9. -/
def unlistedByte : Byte := 0x00

/-- What an unlisted sync-bit index reads as: 0 (R88). Log entry 9. -/
def unlistedSync : Bool := false

/-- The canonical form of a sparse memory: indices strictly rising, and no entry equal to the value an
unlisted index reads as. -/
def cellsWf {α : Type} [DecidableEq α] (unlisted : α) (m : Cells α) : Bool :=
  decide (m.Pairwise fun e f => e.1 < f.1) && m.all fun e => e.2 ≠ unlisted

/-- The canonical form of the byte memory. -/
def Memory.wf (m : Memory) : Bool := cellsWf unlistedByte m

/-- The canonical form of the sync bits. -/
def SyncMap.wf (m : SyncMap) : Bool := cellsWf unlistedSync m

/-- The decoder's lifecycle state (R22). -/
inductive DState where
  | active
  | done
deriving DecidableEq, Repr

/-- How the most recent byte of the Decoded Track was produced (R25). -/
inductive LastKind where
  | none
  | data
  | a1
  | c2on
  | c2off
deriving DecidableEq, Repr

/-- The parser state (R28). A count is the number of bytes read so far. R28 gives AmigaHeader(k) for k in
1..21; the value k = 0 of the type is in no run (log entry 11). -/
inductive Stage where
  | idle
  | readId (k : Fin 4)
  | readIdCrc (j : Fin 2)
  | readData (k : Nat)
  | readDataCrc (j : Fin 2)
  | amigaHeader (k : Fin amigaHdrLen)
  | amigaData (k : Fin amigaDataLen)
deriving DecidableEq, Repr

/-- What a record's mark began (R39, R53). -/
inductive RecordKind where
  | idField
  | dataField
  | unknown
deriving DecidableEq, Repr

/-- The outcome of a record's check (R39, R53). -/
inductive CrcStatus where
  | ok
  | bad
  | incomplete
deriving DecidableEq, Repr

/-- The Sector Record under construction (R32). -/
structure OpenRec where
  kind : RecordKind
  markByte : Byte
  offset : Nat
deriving DecidableEq, Repr

/-- A Sector Record of the catalog (R53). -/
structure SectorRecord where
  kind : RecordKind
  markByte : Byte
  offset : Nat
  length : Nat
  crcStatus : CrcStatus
  cylinder : Byte
  side : Byte
  sector : Byte
deriving DecidableEq, Repr

/-- The decoder: every register DEC_START writes (R41), with the Decoded Track. -/
structure Decoder where
  /-- R21. -/
  recover : Bool
  /-- R21. -/
  preserve : Bool
  /-- R22. -/
  dstate : DState
  /-- R20: the channel bits consumed since DEC_START. -/
  pos : Nat
  /-- R23: W, bit 15 the newest. -/
  window : Half
  /-- R24: the bits still to consume up to the next presumed byte boundary. -/
  cnt : Nat
  /-- R25. -/
  lastKind : LastKind
  /-- R26: the consecutive A1 recognitions, modulo 4. -/
  a1 : Fin 4
  /-- R27. -/
  crc : Half
  /-- R28. -/
  stage : Stage
  /-- R29. -/
  crcHi : Byte
  /-- R30. -/
  idBuf : Vector Byte 3
  /-- R31. -/
  curCyl : Byte
  /-- R31. -/
  curSide : Byte
  /-- R31. -/
  curSector : Byte
  /-- R31. -/
  curSize : Byte
  /-- R31. -/
  lenKnown : Bool
  /-- R32. -/
  openRec : Option OpenRec
  /-- R33: one past the last byte any field has consumed. -/
  fieldEnd : Nat
  /-- R34. -/
  hBuf : Vector Byte amigaHdrLen
  /-- R34. -/
  hOff : Nat
  /-- R34. -/
  fold : Half
  /-- TrackLen() (R12, R50). -/
  trackLen : Nat
  /-- R50. -/
  bytes : Memory
  /-- R50. -/
  syncBits : SyncMap
  /-- R50, R53: in the order the records were closed (R55). -/
  catalog : List SectorRecord
deriving DecidableEq, Repr

/-- The whole block. -/
structure State where
  /-- The implementation parameters (00_scope.md R8); no instruction writes them. Log entry 2. -/
  cfg : Params
  /-- The decoder and the Decoded Track. -/
  dec : Decoder
  /-- R35: the encoder's previous bit. -/
  prev : Bool
  /-- R36: the encoder's output codeword. -/
  cw : Half
  /-- R37: the accumulator of the CRC test port. -/
  crcPort : Half
  /-- R42: the outcome code of the last command word. -/
  result : Byte
  /-- The model's own: the command words the host has issued and the block has not yet taken, oldest
  first (30_encoding.md R80, 20_memory.md R65). Log entry 1. -/
  port : List Word
deriving DecidableEq, Repr

/-- The two fault causes of 60_exceptions.md R203. The operations below answer with them; every command
turns one into the NEXT state R203 describes (`raiseFault` in Machine/Ops.lean), so no step of the model
ends in a Host fault (log entry 4). -/
inductive Fault where
  /-- BYTES_OVERFLOW, code 0x10: raised by an emission or an appended A1 when TrackLen() = BYTES_CAP.
  Safe: the spec gives it its effect, and the model takes it. -/
  | bytesOverflow
  /-- CATALOG_OVERFLOW, code 0x11: raised by a record close when the catalog holds CATALOG_CAP records.
  Safe: the spec gives it its effect, and the model takes it. -/
  | catalogOverflow
deriving DecidableEq, Repr

/-- Why a step could give no meaning. -/
inductive Refusal where
  /-- Raised by an arm of `exec` whose instruction has no meaning yet. Safe. No arm raises it: every
  instruction has its meaning. (The block's own refusals, R204, are next states: `refuse` in
  Machine/Ops.lean.) -/
  | notModelled (mnemonic : String)
deriving DecidableEq, Repr

/-- The decoder as DEC_START leaves it, with its two operands (R41, R100, R221). -/
def Decoder.start (recover preserve : Bool) : Decoder :=
  { recover := recover
    preserve := preserve
    dstate := .active
    pos := 0
    window := 0x0000
    cnt := 16
    lastKind := .none
    a1 := 0
    crc := 0xFFFF
    stage := .idle
    crcHi := 0x00
    idBuf := Vector.replicate 3 0x00
    curCyl := 0x00
    curSide := 0x00
    curSector := 0x00
    curSize := 0x00
    lenKnown := false
    openRec := none
    fieldEnd := 0
    hBuf := Vector.replicate amigaHdrLen 0x00
    hOff := 0
    fold := 0x0000
    trackLen := 0
    bytes := []
    syncBits := []
    catalog := [] }

/-- Power-on of a block with the parameters `c` (R41, R220): the decoder as after DEC_START 0,0, prev 0,
cw 0x0000, crcPort 0xFFFF, result 0x00 (OK). The host has issued nothing (log entry 1). -/
def State.powerOn (c : Params) : State :=
  { cfg := c
    dec := Decoder.start false false
    prev := false
    cw := 0x0000
    crcPort := 0xFFFF
    result := 0x00
    port := [] }

/-- The machine right after power-on reset (R220), with the parameters of log entries 2 and 3. -/
def State.reset : State := State.powerOn defaultParams

end Sys2Proof.Machine
end

