-- ==== Sys2Proof/Machine/Ops.lean ====
section
/-! DEFINITION. The named operations: reading and writing the sparse memories, the Decoded Track primitives
of 00_scope.md R12, closing a record (43_field_parser.md R154), and the three outcomes of a command word
(60_exceptions.md R202): `accept`, `refuse` and `raiseFault`, the block's one shared exceptional entry. The
block has no trap and no trap return (R201); what lets it go on after a fault is DEC_START (R223). -/

namespace Sys2Proof.Machine

open Sys2Proof.Config

/-! ### The sparse memories -/

/-- The value at index `a`: the listed one, else the value of an unlisted index. -/
def cellsRead {α : Type} (unlisted : α) (a : Nat) : Cells α → α
  | [] => unlisted
  | e :: rest => if e.1 = a then e.2 else cellsRead unlisted a rest

/-- The memory with the value `v` listed at index `a`, in index order. -/
def cellsInsert {α : Type} (a : Nat) (v : α) : Cells α → Cells α
  | [] => [(a, v)]
  | e :: rest =>
    if a < e.1 then (a, v) :: e :: rest
    else if e.1 = a then (a, v) :: rest
    else e :: cellsInsert a v rest

/-- The memory with nothing listed at index `a`. -/
def cellsErase {α : Type} (a : Nat) (m : Cells α) : Cells α := m.filter fun e => e.1 ≠ a

/-- Writing `v` at index `a`: writing the value an unlisted index reads as removes the entry. -/
def cellsWrite {α : Type} [DecidableEq α] (unlisted : α) (a : Nat) (v : α) (m : Cells α) : Cells α :=
  if v = unlisted then cellsErase a m else cellsInsert a v m

/-- One byte of the byte memory. -/
def Memory.read (m : Memory) (a : Nat) : Byte := cellsRead unlistedByte a m

/-- Writing one byte of the byte memory. -/
def Memory.write (m : Memory) (a : Nat) (v : Byte) : Memory := cellsWrite unlistedByte a v m

/-- One sync bit. -/
def SyncMap.read (m : SyncMap) (a : Nat) : Bool := cellsRead unlistedSync a m

/-- Writing one sync bit. -/
def SyncMap.write (m : SyncMap) (a : Nat) (s : Bool) : SyncMap := cellsWrite unlistedSync a s m

/-! ### The Decoded Track primitives (R12) -/

/-- TrackRead(i). -/
def trackRead (d : Decoder) (i : Nat) : Byte := d.bytes.read i

/-- SyncRead(i). -/
def syncRead (d : Decoder) (i : Nat) : Bool := d.syncBits.read i

/-- TrackWrite(i, v), with R12's condition i < TrackLen(). At another index, which no run reaches, nothing
is written (R51). DESIGN CHOICE (log entry 8). -/
def trackWrite (i : Nat) (v : Byte) (d : Decoder) : Decoder :=
  if i < d.trackLen then { d with bytes := d.bytes.write i v } else d

/-- SyncWrite(i, s), for i < TrackLen() as `trackWrite` (log entry 8). -/
def syncWrite (i : Nat) (s : Bool) (d : Decoder) : Decoder :=
  if i < d.trackLen then { d with syncBits := d.syncBits.write i s } else d

/-- TrackWrite(i, v); SyncWrite(i, s): the pair in which every backward rewrite comes (R114, R117, R172). -/
def trackRewrite (i : Nat) (v : Byte) (s : Bool) (d : Decoder) : Decoder :=
  syncWrite i s (trackWrite i v d)

/-- TrackAppend(v, s). -/
def trackAppend (v : Byte) (s : Bool) (d : Decoder) : Decoder :=
  { d with
    bytes := d.bytes.write d.trackLen v
    syncBits := d.syncBits.write d.trackLen s
    trackLen := d.trackLen + 1 }

/-- TrackAppend(v, s) behind the capacity check of R108 and R113. -/
def appendByte (c : Params) (v : Byte) (s : Bool) (d : Decoder) : Except Fault Decoder :=
  if d.trackLen = c.bytesCap then .error .bytesOverflow else .ok (trackAppend v s d)

/-- CatAppend(rec). -/
def catAppend (r : SectorRecord) (d : Decoder) : Decoder :=
  { d with catalog := d.catalog ++ [r] }

/-! ### Closing a record -/

/-- The kind a number names, for the free value of log entry 7. -/
def recordKindOf (k : Fin 3) : RecordKind :=
  if k = 0 then .idField else if k = 1 then .dataField else .unknown

/-- openRec as a close reads it. With no record open, which no run reaches, it is undefined (R32): a free
value (log entry 7). -/
def openRecord (d : Decoder) : OpenRec :=
  match d.openRec with
  | some r => r
  | none => ⟨recordKindOf (freeRecordKind d.pos), freeRecordMark d.pos, freeRecordOffset d.pos⟩

/-- The record a close with this status and length appends (R154). -/
def closedRecord (status : CrcStatus) (len : Nat) (d : Decoder) : SectorRecord :=
  { kind := (openRecord d).kind
    markByte := (openRecord d).markByte
    offset := (openRecord d).offset
    length := len
    crcStatus := status
    cylinder := d.curCyl
    side := d.curSide
    sector := d.curSector }

/-- Close(status, len) (R154). -/
def close (c : Params) (status : CrcStatus) (len : Nat) (d : Decoder) : Except Fault Decoder :=
  if d.catalog.length = c.catalogCap then .error .catalogOverflow
  else .ok { catAppend (closedRecord status len d) d with openRec := none }

/-- Close(status, len); stage <- Idle, as every completed field ends (R147, R149, R152, R153, R182). -/
def closeIdle (c : Params) (status : CrcStatus) (len : Nat) (d : Decoder) : Except Fault Decoder :=
  (close c status len d).bind fun d => .ok { d with stage := .idle }

/-! ### The outcomes of a command word (R202 to R205) -/

/-- The RESULT code of success (R205). -/
def okCode : Byte := 0x00

/-- The RESULT code of a refusal (R204, R205). -/
def refuseCode : RefuseReason → Byte
  | .reservedOpcode => 0x01
  | .reservedOperand => 0x02
  | .decoderDone => 0x03

/-- The RESULT code of a fault (R203, R205). -/
def faultCode : Fault → Byte
  | .bytesOverflow => 0x10
  | .catalogOverflow => 0x11

/-- OK: the command took effect (R202). -/
def accept (s : State) : State := { s with result := okCode }

/-- Refused: only RESULT changes (R204). -/
def refuse (r : RefuseReason) (s : State) : State := { s with result := refuseCode r }

/-- raise Fault(code) (R203), where `s` is the state the command started from: every change the command
made is discarded, dstate becomes Done, and RESULT holds the code. -/
def raiseFault (f : Fault) (s : State) : State :=
  { s with dec := { s.dec with dstate := .done }, result := faultCode f }

/-- A command on the decoder: refused with DECODER_DONE while Done (R204); else its operation as one atomic
step, which takes effect whole or, on a fault, not at all (R61, R203). -/
def decoderCommand (op : Params → Decoder → Except Fault Decoder) (s : State) :
    Host.Outcome State Fault Refusal :=
  match s.dec.dstate with
  | .done => .next (refuse .decoderDone s)
  | .active =>
    match op s.cfg s.dec with
    | .ok d => .next (accept { s with dec := d })
    | .error f => .next (raiseFault f s)

end Sys2Proof.Machine
end

