-- ==== Sys2Proof/Machine/Operands.lean ====
section
/-! DEFINITION. Bit fields and orders (20_memory.md R58): building a value from its bits, rev16, the
demodulation of a window, the channel bits of a byte, the sector length, the Amiga words. -/

namespace Sys2Proof.Machine

open Sys2Proof.Config

/-- The `n`-bit value whose bit i is `f i`. -/
def ofBits : (n : Nat) → (Nat → Bool) → BitVec n
  | 0, _ => 0#0
  | n + 1, f => BitVec.cons (f n) (ofBits n f)

/-- rev16(v): bit i is v[15-i] (00_scope.md R12). -/
def rev16 (v : Half) : Half := ofBits 16 fun i => v.getLsbD (15 - i)

/-- demod(W): bit 7-k is W[2k+1] (41_demodulator.md R106). -/
def demod (w : Half) : Byte := ofBits 8 fun i => w.getLsbD (2 * (7 - i) + 1)

/-- The channel bits of DEC_BYTE x, x[0] first (20_memory.md R56, 30_encoding.md R82). -/
def channelBits (x : Byte) : List Bool := (List.range 8).map fun i => x.getLsbD i

/-- sectorLength = 128 << (curSize & 7) (10_state.md R31, 30_encoding.md R75). -/
def sectorLength (d : Decoder) : Nat := 128 <<< (d.curSize &&& 7).toNat

/-- A 16-bit word of two bytes, the first the high half (20_memory.md R58). -/
def bytePair (hi lo : Byte) : Half := hi ++ lo

/-- Re-interleaving two bit planes: info[2i+1] = odd[i], info[2i] = even[i] (44_recovery_amiga.md R176). -/
def interleave (odd even : Half) : Word :=
  ofBits 32 fun i => if i % 2 = 1 then odd.getLsbD (i / 2) else even.getLsbD (i / 2)

/-- The info word of a header region: the first two bytes are the odd-bit word, the next two the even-bit
word (R176). -/
def infoWord (h : Vector Byte amigaHdrLen) : Word := interleave (bytePair h[0] h[1]) (bytePair h[2] h[3])

/-- The four bytes of the info word, and the cylinder and side of its track (R176). togap is decoded and
not used. -/
structure AmigaInfo where
  fmt : Byte
  cyl : Byte
  side : Byte
  sec : Byte
  togap : Byte
deriving DecidableEq, Repr

/-- The fields of an info word (R176). -/
def amigaInfo (info : Word) : AmigaInfo :=
  { fmt := info.extractLsb' 24 8
    cyl := info.extractLsb' 16 8 >>> 1
    side := info.extractLsb' 16 8 &&& 1
    sec := info.extractLsb' 8 8
    togap := info.extractLsb' 0 8 }

/-- The exclusive or of 16-bit words of bytes, the even-index byte the high half (R179). -/
def xorFold : List Byte → Half
  | hi :: lo :: rest => bytePair hi lo ^^^ xorFold rest
  | _ => 0

/-- One byte's part of the running data fold: an even-index byte is a high half (R182). -/
def foldByte (k : Nat) (v : Byte) (f : Half) : Half :=
  if k % 2 = 0 then f ^^^ (v.setWidth 16 <<< 8) else f ^^^ v.setWidth 16

/-- The byte class 0xF8..0xFE, a plausible field mark: RECOVERY_CLASS, and the complement of
AMIGA_TRIGGER_CLASS (30_encoding.md R74). -/
def inMarkRange (v : Byte) : Bool := 0xF8 ≤ v.toNat && v.toNat ≤ 0xFE

/-- AMIGA_TRIGGER_CLASS (R74). -/
def inAmigaTriggerClass (c : Params) (v : Byte) : Bool := c.amigaTriggerAny || !inMarkRange v

end Sys2Proof.Machine
end

