-- ==== Sys2Proof/Machine/Flags.lean ====
section
/-! DEFINITION. The block has no condition codes (10_state.md R39). Its status values are a record's
crcStatus, computed here for an IBM field (43_field_parser.md R147, R152) and an Amiga region
(44_recovery_amiga.md R179, R182), and the conditions of the per-bit step (41_demodulator.md R102 to R104). -/

namespace Sys2Proof.Machine

open Sys2Proof.Config

/-- The status of an IBM field: its two CRC bytes, high byte first, against the accumulator (R147, R152). -/
def crcVerdict (crcHi lo : Byte) (crc : Half) : CrcStatus :=
  if bytePair crcHi lo = crc then .ok else .bad

/-- The status of an Amiga region: Ok exactly when its fold is zero (R179, R182). -/
def foldVerdict (fold : Half) : CrcStatus := if fold = 0 then .ok else .bad

/-- full: the window holds 16 channel bits (R102), on a decoder that has counted the current bit. -/
def full (d : Decoder) : Bool := windowBits ≤ d.pos

/-- due: the current bit is on the presumed byte boundary (R103), on a decoder whose cnt the step has not
yet changed. -/
def due (d : Decoder) : Bool := d.cnt = 1

/-- isA1 (R104). -/
def isA1 (d : Decoder) : Bool := full d && d.window = syncA1Win

/-- gapChk: whether the C2 and 4E windows are evaluated on this bit (R104). -/
def gapCheck (c : Params) (d : Decoder) : Bool :=
  full d && (due d || (d.preserve && !(c.preserveGateIdle && d.stage ≠ .idle)))

/-- isC2 (R104). -/
def isC2 (c : Params) (d : Decoder) : Bool := gapCheck c d && d.window = markC2Win

/-- is4E (R104). -/
def is4E (c : Params) (d : Decoder) : Bool := gapCheck c d && d.window = gap4EWin

end Sys2Proof.Machine
end

