-- ==== Sys2Proof/Machine/Crc.lean ====
section
/-! DEFINITION. The CRC-16 engine (42_crc.md) and the commands of its test port: CRC_LOAD, CRC_BYTE. -/

namespace Sys2Proof.Machine

open Sys2Proof.Config

/-- One division step, most significant bit first (R131). -/
def crcDivide (c : Half) : Half := if c.getLsbD 15 then (c <<< 1) ^^^ crcPoly else c <<< 1

/-- CRC_TABLE[i] (R131): the ROM contents. -/
def crcTable (i : Byte) : Half := (List.range 8).foldl (fun c _ => crcDivide c) (i ++ (0 : Byte))

/-- crcUpd(c, b) (R132). -/
def crcUpd (c : Half) (b : Byte) : Half := crcTable ((c >>> 8).setWidth 8 ^^^ b) ^^^ (c <<< 8)

/-- CRC_LOAD (R134): crcPort <- value. -/
def execCrcLoad (value : Half) (s : State) : Host.Outcome State Fault Refusal :=
  .next (accept { s with crcPort := value })

/-- CRC_BYTE (R135): crcPort <- crcUpd(crcPort, b). -/
def execCrcByte (b : Byte) (s : State) : Host.Outcome State Fault Refusal :=
  .next (accept { s with crcPort := crcUpd s.crcPort b })

end Sys2Proof.Machine
end

