-- ==== Sys2Proof/Machine/Parser.lean ====
section
/-! DEFINITION. The field parser (43_field_parser.md): field marks, field bytes, truncation, DEC_END, and
the five mark forms. -/

namespace Sys2Proof.Machine

open Sys2Proof.Config

/-! ### Marks (R142 to R153) -/

/-- An ID mark `v` at index `p` opens an ID record (R143). -/
def openIdField (v : Byte) (p : Nat) (d : Decoder) : Decoder :=
  { d with openRec := some ⟨.idField, v, p + 1⟩, crc := crcUpd d.crc v, stage := .readId 0 }

/-- A Data mark with a known sector length opens a Data record (R148). -/
def openDataField (v : Byte) (p : Nat) (d : Decoder) : Decoder :=
  { d with openRec := some ⟨.dataField, v, p + 1⟩, crc := crcUpd d.crc v, stage := .readData 0 }

/-- A record that is opened and closed at its mark, Incomplete with length 0 (R149, R153). -/
def closeAtMark (c : Params) (kind : RecordKind) (v : Byte) (p : Nat) (d : Decoder) :
    Except Fault Decoder :=
  closeIdle c .incomplete 0 { d with openRec := some ⟨kind, v, p + 1⟩ }

/-- A Data mark: R148 if a sector length is known, else the displaced Data mark of R149. -/
def dataMark (c : Params) (v : Byte) (p : Nat) (d : Decoder) : Except Fault Decoder :=
  if d.lenKnown then .ok (openDataField v p d) else closeAtMark c .dataField v p d

/-- What the mark form at index `p` does (R142): the mark byte is part of the field, so fieldEnd rises
first. -/
def runMark (c : Params) (f : MarkForm) (p : Nat) (d : Decoder) : Except Fault Decoder :=
  let d := { d with fieldEnd := p + 1 }
  match f with
  | .idamFc => .ok (openIdField 0xFC p d)
  | .idamFd => .ok (openIdField 0xFD p d)
  | .idamFe => .ok (openIdField 0xFE p d)
  | .dam v => dataMark c v p d
  | .unknown v => closeAtMark c .unknown v p d

/-- MarkByte(v, p) (R142). -/
def markByte (c : Params) (v : Byte) (p : Nat) (d : Decoder) : Except Fault Decoder :=
  runMark c (classifyMark v) p d

/-! ### Field bytes (R144 to R152) -/

/-- A byte of an ID field: one of the first three is buffered (R144), the fourth latches the current-ID
registers (R145). -/
def idByte (k : Fin 4) (v : Byte) (d : Decoder) : Decoder :=
  if h : k.val < 3 then
    { d with
      crc := crcUpd d.crc v
      idBuf := d.idBuf.set k.val v h
      stage := .readId ⟨k.val + 1, by omega⟩ }
  else
    { d with
      crc := crcUpd d.crc v
      curCyl := d.idBuf[0]
      curSide := d.idBuf[1]
      curSector := d.idBuf[2]
      curSize := v
      lenKnown := true
      stage := .readIdCrc 0 }

/-- A CRC byte of an ID field (R146, R147). -/
def idCrcByte (c : Params) (j : Fin 2) (v : Byte) (d : Decoder) : Except Fault Decoder :=
  if j = 0 then .ok { d with crcHi := v, stage := .readIdCrc 1 }
  else closeIdle c (crcVerdict d.crcHi v d.crc) idLen d

/-- A byte of a Data field (R150). -/
def dataByte (k : Nat) (v : Byte) (d : Decoder) : Decoder :=
  { d with
    crc := crcUpd d.crc v
    stage := if k + 1 = sectorLength d then .readDataCrc 0 else .readData (k + 1) }

/-- A CRC byte of a Data field (R151, R152). -/
def dataCrcByte (c : Params) (j : Fin 2) (v : Byte) (d : Decoder) : Except Fault Decoder :=
  if j = 0 then .ok { d with crcHi := v, stage := .readDataCrc 1 }
  else closeIdle c (crcVerdict d.crcHi v d.crc) (sectorLength d) d

/-! ### Truncation and end of track (R155, R157) -/

/-- The record a truncation closes: the payload bytes the field had received; no record for Idle and for
an Amiga header (R155). -/
def truncateClose (c : Params) (d : Decoder) : Except Fault Decoder :=
  match d.stage with
  | .idle => .ok d
  | .readId k => close c .incomplete k.val d
  | .readIdCrc _ => close c .incomplete idLen d
  | .readData k => close c .incomplete k d
  | .readDataCrc _ => close c .incomplete (sectorLength d) d
  | .amigaHeader _ => .ok d
  | .amigaData k => close c .incomplete k.val d

/-- Truncate() (R155). -/
def truncate (c : Params) (d : Decoder) : Except Fault Decoder :=
  (truncateClose c d).bind fun d => .ok { d with stage := .idle, a1 := 0 }

/-- `if stage != Idle: Truncate()`, as its two callers have it (R113, R157). -/
def truncateOpen (c : Params) (d : Decoder) : Except Fault Decoder :=
  if d.stage = .idle then .ok d else truncate c d

/-- The operation of DEC_END (R157). -/
def endTrack (c : Params) (d : Decoder) : Except Fault Decoder :=
  (truncateOpen c d).bind fun d => .ok { d with dstate := .done }

/-- DEC_END (R157). -/
def execDecEnd (s : State) : Host.Outcome State Fault Refusal := decoderCommand endTrack s

/-! ### The mark forms by themselves (log entry 5)

A mark form's byte is the last byte of the Decoded Track, where the emission has put it (R108). -/

/-- The effect of a mark form on the byte at the end of the Decoded Track. DESIGN CHOICE (log entry 5): on an
empty track, which has no such byte and which no run hands to a mark, `d.trackLen - 1` is index 0, so fieldEnd
and the record's offset become 1, above TrackLen(). -/
def markForm (f : MarkForm) (c : Params) (d : Decoder) : Except Fault Decoder :=
  runMark c f (d.trackLen - 1) d

/-- IDAM_FC (R143). -/
def execIdamFc (s : State) : Host.Outcome State Fault Refusal := decoderCommand (markForm .idamFc) s

/-- IDAM_FD (R143). -/
def execIdamFd (s : State) : Host.Outcome State Fault Refusal := decoderCommand (markForm .idamFd) s

/-- IDAM_FE (R143). -/
def execIdamFe (s : State) : Host.Outcome State Fault Refusal := decoderCommand (markForm .idamFe) s

/-- DAM (R148, R149). -/
def execDam (v : Byte) (s : State) : Host.Outcome State Fault Refusal :=
  decoderCommand (markForm (.dam v)) s

/-- MARK_UNKNOWN (R153). -/
def execMarkUnknown (v : Byte) (s : State) : Host.Outcome State Fault Refusal :=
  decoderCommand (markForm (.unknown v)) s

end Sys2Proof.Machine
end

