-- ==== Sys2Proof/Machine/Recovery.lean ====
section
/-! DEFINITION. Recovery mode and the Amiga path (44_recovery_amiga.md), and the parser's dispatch of an
emitted byte (43_field_parser.md R140, R141). -/

namespace Sys2Proof.Machine

open Sys2Proof.Config

/-! ### Recovery (R170 to R172) -/

/-- The lowest index RecoverRewrite(p) writes (R172). -/
def recoverFloor (p : Nat) (d : Decoder) : Nat := max d.fieldEnd (p - recoverSpan)

/-- RecoverRewrite(p) at one index: A1 with sync 1 in the last three, else 00 with sync 0 (R172). -/
def recoverRewriteAt (p : Nat) (d : Decoder) (q : Nat) : Decoder :=
  if p - 3 ≤ q then trackRewrite q a1Byte true d else trackRewrite q 0x00 false d

/-- RecoverRewrite(p) (R172). -/
def recoverRewrite (p : Nat) (d : Decoder) : Decoder :=
  (List.range' (recoverFloor p d) (p - recoverFloor p d)).foldl (recoverRewriteAt p) d

/-- Recover(v, p) (R171). -/
def recoverMark (c : Params) (v : Byte) (p : Nat) (d : Decoder) : Except Fault Decoder :=
  markByte c v p { recoverRewrite p d with crc := crcRecoverSeed }

/-! ### The Amiga path (R174 to R182) -/

/-- AmigaStart(v, p) (R174). -/
def amigaStart (v : Byte) (p : Nat) (d : Decoder) : Decoder :=
  { d with hBuf := d.hBuf.set 0 v, hOff := p, fieldEnd := p + 1, stage := .amigaHeader 1 }

/-- The plausibility check (R177): true when the header is kept. -/
def amigaPlausible (c : Params) (i : AmigaInfo) : Bool :=
  i.fmt = c.amigaFormatMark && i.cyl.toNat ≤ c.amigaMaxCyl && i.sec.toNat ≤ c.amigaMaxSector

/-- The latch and the header record under construction (R179, R180). -/
def amigaLatch (i : AmigaInfo) (d : Decoder) : Decoder :=
  { d with
    curCyl := i.cyl
    curSide := i.side
    curSector := i.sec
    openRec := some ⟨.idField, i.fmt, d.hOff⟩ }

/-- Opening the data region (R181). -/
def amigaOpenData (i : AmigaInfo) (d : Decoder) : Decoder :=
  { d with
    openRec := some ⟨.dataField, i.fmt, d.hOff + amigaHdrLen⟩
    fold := 0
    stage := .amigaData 0 }

/-- HeaderDone() (R176 to R181): an implausible header is abandoned with no record; a plausible one is
latched and recorded, and the data region opens. -/
def headerDone (c : Params) (d : Decoder) : Except Fault Decoder :=
  let i := amigaInfo (infoWord d.hBuf)
  if amigaPlausible c i then
    (close c (foldVerdict (xorFold d.hBuf.toList)) amigaHdrLen (amigaLatch i d)).bind fun d =>
      .ok (amigaOpenData i d)
  else .ok { d with stage := .idle }

/-- A byte of the Amiga header region (R175). The rule has k in 1..21. At k = 0, which no run reaches, the
spec gives no effect and the model buffers the byte at hBuf[0] like any other: DESIGN CHOICE (log entry
11). -/
def amigaHeaderByte (c : Params) (k : Fin amigaHdrLen) (v : Byte) (d : Decoder) : Except Fault Decoder :=
  let d := { d with hBuf := d.hBuf.set k.val v }
  if h : k.val + 1 < amigaHdrLen then .ok { d with stage := .amigaHeader ⟨k.val + 1, h⟩ }
  else headerDone c d

/-- A byte of the Amiga data region (R182). -/
def amigaDataByte (c : Params) (k : Fin amigaDataLen) (v : Byte) (d : Decoder) : Except Fault Decoder :=
  let d := { d with fold := foldByte k.val v d.fold }
  if h : k.val + 1 < amigaDataLen then .ok { d with stage := .amigaData ⟨k.val + 1, h⟩ }
  else closeIdle c (foldVerdict d.fold) amigaDataLen d

/-! ### The parser's dispatch (R140, R141) -/

/-- What a byte does that arrives while no field is open, before the sync-run counter is reset (R141). -/
def idleByte (c : Params) (v : Byte) (p : Nat) (d : Decoder) : Except Fault Decoder :=
  if d.a1 = a1Run then markByte c v p d
  else if d.recover && inMarkRange v then recoverMark c v p d
  else if !d.recover && d.a1 = amigaRun && inAmigaTriggerClass c v then .ok (amigaStart v p d)
  else .ok d

/-- ConsumeIdle(v, p) (R141). -/
def consumeIdle (c : Params) (v : Byte) (p : Nat) (d : Decoder) : Except Fault Decoder :=
  (idleByte c v p d).bind fun d => .ok { d with a1 := 0 }

/-- Consume(v, p) (R140). -/
def consume (c : Params) (v : Byte) (p : Nat) (d : Decoder) : Except Fault Decoder :=
  let e := { d with fieldEnd := p + 1 }
  match d.stage with
  | .idle => consumeIdle c v p d
  | .readId k => .ok (idByte k v e)
  | .readIdCrc j => idCrcByte c j v e
  | .readData k => .ok (dataByte k v e)
  | .readDataCrc j => dataCrcByte c j v e
  | .amigaHeader k => amigaHeaderByte c k v e
  | .amigaData k => amigaDataByte c k v e

end Sys2Proof.Machine
end

