-- ==== Sys2Proof/Machine/Demodulator.lean ====
section
/-! DEFINITION. The demodulator, sync detector and phase tracker (41_demodulator.md): DEC_START, DEC_BIT,
DEC_BYTE, and the four window forms. -/

namespace Sys2Proof.Machine

open Sys2Proof.Config

/-! ### Emission (R108) -/

/-- Emit(v, s, kind) (R108): one byte is appended and handed to the parser. -/
def emit (c : Params) (v : Byte) (s : Bool) (kind : LastKind) (d : Decoder) : Except Fault Decoder :=
  (appendByte c v s d).bind fun d => consume c v (d.trackLen - 1) { d with lastKind := kind }

/-- cnt <- 16: the countdown restarts (R105, R112). -/
def restart (d : Decoder) : Decoder := { d with cnt := windowBits }

/-! ### The pre-sync fixup (R117) -/

/-- Whether Fixup(p) clears the byte at index `q` (R117). -/
def fixupClears (c : Params) (p q : Nat) (d : Decoder) : Bool :=
  d.fieldEnd ≤ q &&
    (trackRead d q = 0x00 || trackRead d q = 0xFF || (q + 1 = p && c.partialSet.contains (trackRead d q)))

/-- The walk of Fixup(p) over the indices below `n`, from `n - 1` down (R117). -/
def fixupWalk (c : Params) (p : Nat) : Nat → Decoder → Decoder
  | 0, d => d
  | q + 1, d => if fixupClears c p q d then fixupWalk c p q (trackRewrite q 0x00 false d) else d

/-- Fixup(p) (R117). -/
def fixup (c : Params) (p : Nat) (d : Decoder) : Decoder := fixupWalk c p p d

/-- The fixup runs only when recover = 0 and preserve = 0 (R119). -/
def fixupGated (c : Params) (p : Nat) (d : Decoder) : Decoder :=
  if !d.recover && !d.preserve then fixup c p d else d

/-! ### A1 sync (R113 to R116) -/

/-- Whether the A1 replaces the byte before it (R114). -/
def replacesC2 (onBoundary : Bool) (d : Decoder) : Bool := d.lastKind = .c2off && !onBoundary

/-- The A1 byte replaces the last byte or is appended (R113, R114). -/
def placeA1 (c : Params) (replace : Bool) (d : Decoder) : Except Fault Decoder :=
  if replace then .ok (trackRewrite (d.trackLen - 1) a1Byte true d) else appendByte c a1Byte true d

/-- The consecutive-A1 counter and the CRC of the sync run (R115, R116). -/
def countA1 (d : Decoder) : Decoder :=
  { d with a1 := d.a1 + 1, crc := crcUpd (if d.a1 + 1 = 1 then crcSeed else d.crc) a1Byte }

/-- SyncA1(due) (R113). -/
def syncRun (c : Params) (onBoundary : Bool) (d : Decoder) : Except Fault Decoder :=
  (truncateOpen c d).bind fun e =>
    (placeA1 c (replacesC2 onBoundary d) e).bind fun e =>
      .ok (countA1 (fixupGated c (e.trackLen - 1) { e with lastKind := .a1 }))

/-! ### The per-bit step (R101 to R105) -/

/-- The window shift and the bit count (R101, R105). -/
def shiftIn (b : Bool) (d : Decoder) : Decoder :=
  { d with window := (d.window >>> 1) ||| ((BitVec.ofBool b).setWidth 16 <<< 15), pos := d.pos + 1 }

/-- What the shifted window is recognized as, if anything: the priority of R71 over the conditions of
R104, and DATA_WINDOW on a due boundary. -/
def recognize (c : Params) (d : Decoder) : Option WindowForm :=
  if isA1 d then some .syncA1
  else if isC2 c d then some .markC2
  else if is4E c d then some .gap4E
  else if due d then some (.dataWindow d.window)
  else none

/-- What a recognized window form does, on the decoder after the shift (R105, R109 to R113). -/
def runWindow (c : Params) (f : WindowForm) (d : Decoder) : Except Fault Decoder :=
  (match f with
    | .syncA1 => syncRun c (due d) d
    | .markC2 => emit c (demod markC2Win) true (if due d then .c2on else .c2off) d
    | .gap4E => emit c (demod gap4EWin) false .data d
    | .dataWindow w => emit c (demod w) false .data d).bind fun d => .ok (restart d)

/-- Step(b) without its Done check (R105). -/
def stepBit (c : Params) (b : Bool) (d : Decoder) : Except Fault Decoder :=
  let d := shiftIn b d
  match recognize c d with
  | some f => runWindow c f d
  | none => .ok { d with cnt := d.cnt - 1 }

/-- The steps of several channel bits, the first of the list first (R107). -/
def stepBits (c : Params) : List Bool → Decoder → Except Fault Decoder
  | [], d => .ok d
  | b :: rest, d => (stepBit c b d).bind (stepBits c rest)

/-! ### The commands -/

/-- DEC_START (R100): accepted in both Active and Done. -/
def execDecStart (recover preserve : Bool) (s : State) : Host.Outcome State Fault Refusal :=
  .next (accept { s with dec := Decoder.start recover preserve })

/-- DEC_BIT (R105). -/
def execDecBit (b : Bool) (s : State) : Host.Outcome State Fault Refusal :=
  decoderCommand (fun c => stepBit c b) s

/-- DEC_BYTE (R107): eight channel bits in one atomic step. -/
def execDecByte (x : Byte) (s : State) : Host.Outcome State Fault Refusal :=
  decoderCommand (fun c => stepBits c (channelBits x)) s

/-! ### The window forms by themselves (log entry 5)

The state is the one in which the window has just been recognized: the current bit is shifted in and
counted, and cnt is not yet changed. -/

/-- SYNC_A1 (R113). -/
def execSyncA1 (s : State) : Host.Outcome State Fault Refusal :=
  decoderCommand (fun c => runWindow c .syncA1) s

/-- MARK_C2 (R110). -/
def execMarkC2 (s : State) : Host.Outcome State Fault Refusal :=
  decoderCommand (fun c => runWindow c .markC2) s

/-- GAP_4E (R111). -/
def execGap4E (s : State) : Host.Outcome State Fault Refusal :=
  decoderCommand (fun c => runWindow c .gap4E) s

/-- DATA_WINDOW (R109). -/
def execDataWindow (w : Half) (s : State) : Host.Outcome State Fault Refusal :=
  decoderCommand (fun c => runWindow c (.dataWindow w)) s

end Sys2Proof.Machine
end

