-- ==== Sys2Proof/Machine/Remodulator.lean ====
section
/-! DEFINITION. The bit remodulator (45_remodulator.md): ENC_TABLE, ENC_START, ENC_BYTE, and the three
encoder selections. -/

namespace Sys2Proof.Machine

open Sys2Proof.Config

/-- One data bit of ENC_TABLE's loop (R190): the clock bit is 1 exactly when the data bit before it and this
one are both 0. The pair is the codeword so far, in time-MSB order, and the data bit before. -/
def encTableStep (b : Byte) (acc : Half × Bool) (i : Nat) : Half × Bool :=
  let d := b.getLsbD i
  let clock := !acc.2 && !d
  ((acc.1 <<< 2) ||| ((BitVec.ofBool clock).setWidth 16 <<< 1) ||| (BitVec.ofBool d).setWidth 16, d)

/-- ENC_TABLE[b] (R190): the ROM contents, in window order. -/
def encTable (b : Byte) : Half :=
  rev16 (([7, 6, 5, 4, 3, 2, 1, 0].foldl (encTableStep b) (0, false)).1)

/-- The codeword of a selection, given the previous bit (R192, R193). -/
def codeword (f : EncForm) (prev : Bool) : Half :=
  match f with
  | .syncA1 => syncA1Win
  | .syncC2 => markC2Win
  | .data v _ => if prev then encTable v &&& 0xFFFE else encTable v

/-- Emitting a codeword: cw <- w; prev <- w[15] (R193, R195). -/
def emitCodeword (w : Half) (s : State) : State := { s with cw := w, prev := w.getLsbD 15 }

/-- What an encoder selection does (R193). -/
def runEnc (f : EncForm) (s : State) : Host.Outcome State Fault Refusal :=
  .next (accept (emitCodeword (codeword f s.prev) s))

/-- ENC_START (R191): prev <- op[0]; cw <- 0. -/
def execEncStart (prev : Bool) (s : State) : Host.Outcome State Fault Refusal :=
  .next (accept { s with prev := prev, cw := 0 })

/-- ENC_BYTE (R193): the selection of R76, run. -/
def execEncByte (v : Byte) (sync : Bool) (s : State) : Host.Outcome State Fault Refusal :=
  runEnc (classifyEnc v sync) s

/-! ### The encoder selections by themselves (log entry 5) -/

/-- ENC_SYNC_A1 (R193, R194). -/
def execEncSyncA1 (s : State) : Host.Outcome State Fault Refusal := runEnc .syncA1 s

/-- ENC_SYNC_C2 (R193, R194). -/
def execEncSyncC2 (s : State) : Host.Outcome State Fault Refusal := runEnc .syncC2 s

/-- ENC_DATA (R192, R193). -/
def execEncData (v : Byte) (sync : Bool) (s : State) : Host.Outcome State Fault Refusal :=
  runEnc (.data v sync) s

end Sys2Proof.Machine
end

