-- ==== Sys2Proof/Machine/Dispatch.lean ====
section
/-! DEFINITION. The dispatch: one arm per constructor of Instr, each a call of that instruction's meaning. -/

namespace Sys2Proof.Machine

def exec (i : Instr) (s : State) : Host.Outcome State Fault Refusal :=
  match i with
  | .decStart r p => Sys2Proof.Machine.execDecStart r p s
  | .decBit b => Sys2Proof.Machine.execDecBit b s
  | .decByte x => Sys2Proof.Machine.execDecByte x s
  | .decEnd => Sys2Proof.Machine.execDecEnd s
  | .encStart q => Sys2Proof.Machine.execEncStart q s
  | .encByte v y => Sys2Proof.Machine.execEncByte v y s
  | .crcLoad h => Sys2Proof.Machine.execCrcLoad h s
  | .crcByte b => Sys2Proof.Machine.execCrcByte b s
  | .syncA1 => Sys2Proof.Machine.execSyncA1 s
  | .markC2 => Sys2Proof.Machine.execMarkC2 s
  | .gap4E => Sys2Proof.Machine.execGap4E s
  | .dataWindow w => Sys2Proof.Machine.execDataWindow w s
  | .idamFc => Sys2Proof.Machine.execIdamFc s
  | .idamFd => Sys2Proof.Machine.execIdamFd s
  | .idamFe => Sys2Proof.Machine.execIdamFe s
  | .dam v => Sys2Proof.Machine.execDam v s
  | .markUnknown v => Sys2Proof.Machine.execMarkUnknown v s
  | .encSyncA1 => Sys2Proof.Machine.execEncSyncA1 s
  | .encSyncC2 => Sys2Proof.Machine.execEncSyncC2 s
  | .encData v y => Sys2Proof.Machine.execEncData v y s

end Sys2Proof.Machine
end

