-- ==== Sys2Proof/Machine/Fetch.lean ====
section
/-! DEFINITION. The command port: the block fetches nothing from a memory (10_state.md R20, 20_memory.md
R67); the host issues command words and the block takes them one at a time, in order (20_memory.md R65,
log entry 1). And placing an instruction word so that the very next step runs it (log entry 15). -/

namespace Sys2Proof.Machine

/-- The host issues a command word on the command port (30_encoding.md R80). -/
def State.issue (w : Word) (s : State) : State := { s with port := s.port ++ [w] }

/-- The oldest command word on the port, and the state without it. -/
def fetch (s : State) : Option (Word × State) :=
  match s.port with
  | [] => none
  | w :: rest => some (w, { s with port := rest })

/-- The state with a command word put first on the port. -/
def issueFirst (w : Word) (s : State) : State := { s with port := w :: s.port }

/-- A window whose data bits are the byte `v` and whose clock bits are all 0: none of the three patterns,
and demodulated to `v` (41_demodulator.md R106). -/
def dataBitsWindow (v : Byte) : Half := ofBits 16 fun i => i % 2 = 1 && v.getLsbD (7 - i / 2)

/-- A decoder that the channel bit W[15] brings to the window `w` on a presumed byte boundary with the
window full (R101 to R103). -/
def primeWindow (w : Half) (d : Decoder) : Decoder :=
  { d with dstate := .active, window := w <<< 1, pos := max d.pos 15, cnt := 1 }

/-- The DEC_BIT word of the newest bit of the window `w` (30_encoding.md R82). -/
def lastBitWord (w : Half) : Word := commandWord 0x02 ((BitVec.ofBool (w.getLsbD 15)).setWidth 24)

/-- The state whose very next step runs the instruction of a word of the opcode table: a command stands
first on the port; a window form is the window that the DEC_BIT on the port completes; a mark form is the
byte that DEC_BIT's boundary hands to the parser after three A1s; an encoder selection is the operand of
the ENC_BYTE on the port. Log entry 15. -/
def placeFormat (f : FormatWord) (s : State) : State :=
  match f with
  | .command32 w => issueFirst w s
  | .window16 w => issueFirst (lastBitWord w) { s with dec := primeWindow w s.dec }
  | .mark8 v =>
    issueFirst (lastBitWord (dataBitsWindow v))
      { s with dec := { primeWindow (dataBitsWindow v) s.dec with a1 := Config.a1Run, stage := .idle } }
  | .encsel9 sel => issueFirst (commandWord 0x11 (sel.setWidth 24)) s

/-- `placeFormat` for a word of the opcode table; a word of no format changes nothing. -/
def placeTableWord (s : State) (nbits w : Nat) : State :=
  match tableFormat nbits w with
  | some f => placeFormat f s
  | none => s

end Sys2Proof.Machine
end

