-- ==== Sys2Proof/Machine/Step.lean ====
section
/-! DEFINITION. One step: the block takes the oldest command word on the port and runs it, in the order of
30_encoding.md R87: decode, else refuse by name, then execute (one command is one atomic step, 00_scope.md
R6). With no command issued nothing happens (log entry 1). -/

namespace Sys2Proof.Machine

/-- One step of the machine. -/
def step (s : State) : Host.Outcome State Fault Refusal :=
  match fetch s with
  | none => .next s
  | some (w, t) =>
    match decodeCommand w with
    | .error r => .next (refuse r t)
    | .ok i => exec i t

/-- The state whose very next step fetches and runs the instruction of a word of the opcode table
(log entry 15). -/
def State.withFetchWord (s : State) (nbits w : Nat) : State := placeTableWord s nbits w

end Sys2Proof.Machine
end

