-- ==== Sys2Proof/Machine/Instances.lean ====
section
/-! DEFINITION. Parallel instances (60_exceptions.md R210): each has its own State; they share only the two
ROMs, which are constants; their relative order is free, so a schedule names the instance that steps next.
Log entry 14. -/

namespace Sys2Proof.Machine

/-- One step of instance `k`; with no such instance nothing happens. -/
def stepInstance (k : Nat) (blocks : List State) : Host.Outcome (List State) Fault Refusal :=
  match blocks[k]? with
  | none => .next blocks
  | some s =>
    match step s with
    | .next t => .next (blocks.set k t)
    | .fault f => .fault f
    | .refused r => .refused r

end Sys2Proof.Machine
end

