-- ==== Sys2Proof/Machine/Ports.lean ====
section
/-! DEFINITION. The host's read ports (30_encoding.md R88), the packed sync bitmap (20_memory.md R52) and
the read-out layout of a Sector Record (20_memory.md R54). A read is not a command: it is a function of the
state and changes nothing. Reading an index out of range returns 0. -/

namespace Sys2Proof.Machine

/-- The number of packed control bytes: ceil(TrackLen() / 8) (R52). -/
def controlBytes (d : Decoder) : Nat := (d.trackLen + 7) / 8

/-- Packed control byte j: bit i is the sync bit of byte 8j + i, or 0 past the end (R52). -/
def packedControl (d : Decoder) (j : Nat) : Byte :=
  ofBits 8 fun i => decide (8 * j + i < d.trackLen) && syncRead d (8 * j + i)

/-- The packed sync bitmap (R52). -/
def syncBitmap (d : Decoder) : List Byte := (List.range (controlBytes d)).map (packedControl d)

/-- The read-out code of a record's kind (R54). -/
def kindCode : RecordKind → BitVec 2
  | .idField => 0
  | .dataField => 1
  | .unknown => 2

/-- The read-out code of a record's status (R54). -/
def statusCode : CrcStatus → BitVec 2
  | .ok => 0
  | .bad => 1
  | .incomplete => 2

/-- A record's read-out: four 32-bit words (R54). -/
structure RecordWords where
  word0 : Word
  word1 : Word
  word2 : Word
  word3 : Word
deriving DecidableEq, Repr

/-- The read-out layout of R54. Offset and length below 2^32 (R8) fit their words. -/
def recordWords (r : SectorRecord) : RecordWords :=
  { word0 := r.side ++ r.cylinder ++ r.markByte ++ (0 : BitVec 4) ++ statusCode r.crcStatus ++ kindCode r.kind
    word1 := r.sector.setWidth 32
    word2 := BitVec.ofNat 32 r.offset
    word3 := BitVec.ofNat 32 r.length }

/-- Port TRACK_LEN. -/
def readTrackLen (s : State) : Nat := s.dec.trackLen

/-- Port TRACK_BYTE(i). -/
def readTrackByte (i : Nat) (s : State) : Byte := if i < s.dec.trackLen then trackRead s.dec i else 0

/-- Port TRACK_SYNC(i). -/
def readTrackSync (i : Nat) (s : State) : Bool := if i < s.dec.trackLen then syncRead s.dec i else false

/-- Port TRACK_CTL(j). -/
def readTrackCtl (j : Nat) (s : State) : Byte := if j < controlBytes s.dec then packedControl s.dec j else 0

/-- Port CAT_LEN. -/
def readCatLen (s : State) : Nat := s.dec.catalog.length

/-- Port CAT_REC(r); four zero words out of range (log entry 12). -/
def readCatRec (r : Nat) (s : State) : RecordWords :=
  match s.dec.catalog[r]? with
  | some rec => recordWords rec
  | none => ⟨0, 0, 0, 0⟩

/-- Port DEC_STATE: 0 Active, 1 Done. -/
def readDecState (s : State) : Nat :=
  match s.dec.dstate with
  | .active => 0
  | .done => 1

/-- Port ENC_CW. -/
def readEncCw (s : State) : Half := s.cw

/-- Port ENC_PREV. -/
def readEncPrev (s : State) : Bool := s.prev

/-- Port CRC_VALUE. -/
def readCrcValue (s : State) : Half := s.crcPort

/-- Port RESULT. -/
def readResult (s : State) : Byte := s.result

/-- The two bytes the host lays a codeword out in, low byte first (20_memory.md R57, 45_remodulator.md
R197). -/
def serializeCodeword (w : Half) : List Byte := [w.setWidth 8, (w >>> 8).setWidth 8]

end Sys2Proof.Machine
end

