-- ==== Sys2Proof/Safety.lean ====
section
/-! DEFINITION. What a good state is: the invariants the rules give the registers and the Decoded Track,
in the terms the statements use. -/

namespace Sys2Proof.Machine

open Sys2Proof.Config

/-- The open-field stages (10_state.md R28): those with a record under construction. -/
def Stage.openField : Stage → Bool
  | .idle => false
  | .readId _ => true
  | .readIdCrc _ => true
  | .readData _ => true
  | .readDataCrc _ => true
  | .amigaHeader _ => false
  | .amigaData _ => true

/-- The payload bytes the open field has received: the length a truncation records (43_field_parser.md
R155). -/
def receivedLength (d : Decoder) : Nat :=
  match d.stage with
  | .idle => 0
  | .readId k => k.val
  | .readIdCrc _ => idLen
  | .readData k => k
  | .readDataCrc _ => sectorLength d
  | .amigaHeader _ => 0
  | .amigaData k => k.val

/-- The Decoded Track memory is canonical, holds nothing at or above TrackLen(), and is within BYTES_CAP
(20_memory.md R50, R51, R63). -/
structure TrackInv (c : Params) (d : Decoder) : Prop where
  bytesWf : d.bytes.wf = true
  syncWf : d.syncBits.wf = true
  bytesBelow : ∀ e ∈ d.bytes, e.1 < d.trackLen
  syncBelow : ∀ e ∈ d.syncBits, e.1 < d.trackLen
  lenCap : d.trackLen ≤ c.bytesCap

/-- How far the open field reaches: the bytes of the track below its end are exactly those of the field
read so far (10_state.md R28, R32; 20_memory.md R53). -/
def fieldReach (d : Decoder) : Option Nat :=
  match d.stage, d.openRec with
  | .readId k, some r => some (r.offset + k.val)
  | .readIdCrc j, some r => some (r.offset + idLen + j.val)
  | .readData k, some r => some (r.offset + k)
  | .readDataCrc j, some r => some (r.offset + sectorLength d + j.val)
  | .amigaHeader k, _ => some (d.hOff + k.val)
  | .amigaData k, some r => some (r.offset + k.val)
  | _, _ => none

/-- The legal values of the demodulator's and the parser's registers (R20 to R34). -/
structure DecoderInv (c : Params) (d : Decoder) : Prop where
  track : TrackInv c d
  /-- R24: cnt is in 1..16. -/
  cntRange : 1 ≤ d.cnt ∧ d.cnt ≤ 16
  /-- R25: lastKind is None exactly while the track is empty. -/
  lastKindNone : d.lastKind = .none ↔ d.trackLen = 0
  /-- R33: fieldEnd is at most TrackLen(). -/
  fieldEndLe : d.fieldEnd ≤ d.trackLen
  /-- R32: a record is under construction exactly in the open-field stages. -/
  openIff : d.openRec.isSome = d.stage.openField
  /-- R28: the data count is below the sector length, which is known. -/
  dataCount : ∀ k, d.stage = .readData k → k < sectorLength d ∧ d.lenKnown = true
  /-- R28: a Data field has a known length in its CRC too. -/
  dataCrcKnown : ∀ j, d.stage = .readDataCrc j → d.lenKnown = true
  /-- R28: at least one header byte is buffered. -/
  headerCount : ∀ k, d.stage = .amigaHeader k → 1 ≤ k.val
  /-- R53: the open field ends where the track ends, and has consumed all of it. -/
  reach : ∀ n, fieldReach d = some n → n = d.trackLen ∧ d.fieldEnd = d.trackLen
  /-- R63: the catalog is within CATALOG_CAP. -/
  catCap : d.catalog.length ≤ c.catalogCap
  /-- R53: every record's payload lies in the track. -/
  records : ∀ r ∈ d.catalog, r.offset + r.length ≤ d.trackLen

/-- The RESULT codes (60_exceptions.md R205). -/
def resultCodes : List Byte := [0x00, 0x01, 0x02, 0x03, 0x10, 0x11]

/-- A good state of the block. -/
structure StateInv (s : State) : Prop where
  decoder : DecoderInv s.cfg s.dec
  result : s.result ∈ resultCodes

/-! ### Terms of the statements -/

/-- Running instructions one after another, as long as each gives a next state. -/
def runInstrs : List Instr → State → Host.Outcome State Fault Refusal
  | [], s => .next s
  | i :: rest, s =>
    match exec i s with
    | .next t => runInstrs rest t
    | .fault f => .fault f
    | .refused r => .refused r

/-- The decoder when one byte has been appended and the countdown restarted, and the parser has done
nothing (41_demodulator.md R108, R112). The address written is TrackLen(). -/
def appendedByte (v : Byte) (s : Bool) (kind : LastKind) (d : Decoder) : Decoder :=
  { d with
    bytes := d.bytes.write d.trackLen v
    syncBits := d.syncBits.write d.trackLen s
    trackLen := d.trackLen + 1
    lastKind := kind
    cnt := 16 }

/-- The byte class 0xF8..0xFE (30_encoding.md R74). -/
abbrev plausibleMark (v : Byte) : Prop := 0xF8 ≤ v.toNat ∧ v.toNat ≤ 0xFE

/-- A byte without parser effect: no field is open and none starts at it (43_field_parser.md R141). -/
abbrev gapByte (c : Params) (v : Byte) (d : Decoder) : Prop :=
  d.stage = .idle ∧ d.a1 ≠ 3 ∧ ¬ (d.recover = true ∧ plausibleMark v) ∧
    ¬ (d.recover = false ∧ d.a1 = 2 ∧ (c.amigaTriggerAny = true ∨ ¬ plausibleMark v))

/-- The length of the record that a truncation closes, if it closes one (43_field_parser.md R155). -/
def truncatedLength (d : Decoder) : Option Nat :=
  match d.stage with
  | .idle => none
  | .readId k => some k.val
  | .readIdCrc _ => some 4
  | .readData k => some k
  | .readDataCrc _ => some (128 <<< (d.curSize &&& 7).toNat)
  | .amigaHeader _ => none
  | .amigaData k => some k.val

/-- The catalog after a truncation of a field whose record under construction is `r` (R154, R155). -/
def truncatedCatalog (r : OpenRec) (d : Decoder) : List SectorRecord :=
  match truncatedLength d with
  | none => d.catalog
  | some n =>
    d.catalog ++ [⟨r.kind, r.markByte, r.offset, n, .incomplete, d.curCyl, d.curSide, d.curSector⟩]

/-- The window after the channel bit `b` (41_demodulator.md R101). -/
def shiftedWindow (b : Bool) (d : Decoder) : Half :=
  (d.window >>> 1) ||| (if b then 0x8000 else 0x0000)

/-- Whether the C2 and 4E windows are evaluated on the next bit (41_demodulator.md R102 to R104): `pos`
counts the bits before it. -/
abbrev gapEvaluated (c : Params) (d : Decoder) : Prop :=
  15 ≤ d.pos ∧ (d.cnt = 1 ∨ (d.preserve = true ∧ ¬ (c.preserveGateIdle = true ∧ d.stage ≠ .idle)))

/-- `i` is the window form that the next channel bit `b` completes, by the priority of 30_encoding.md R71. -/
def completesForm (c : Params) (b : Bool) (d : Decoder) (i : Instr) : Prop :=
  (i = .syncA1 ∧ 15 ≤ d.pos ∧ shiftedWindow b d = 0x9122) ∨
    (i = .markC2 ∧ gapEvaluated c d ∧ shiftedWindow b d = 0x244A) ∨
    (i = .gap4E ∧ gapEvaluated c d ∧ shiftedWindow b d = 0x2A49) ∨
    (i = .dataWindow (shiftedWindow b d) ∧ d.cnt = 1 ∧
      ¬ (15 ≤ d.pos ∧
        (shiftedWindow b d = 0x9122 ∨ shiftedWindow b d = 0x244A ∨ shiftedWindow b d = 0x2A49)))

/-- A byte the fixup clears at index `q` of the run below `p` (41_demodulator.md R117). -/
abbrev clearable (c : Params) (p q : Nat) (d : Decoder) : Prop :=
  trackRead d q = 0x00 ∨ trackRead d q = 0xFF ∨ (q + 1 = p ∧ trackRead d q ∈ c.partialSet)

/-- Index `i` lies in the zero run that the fixup clears below an A1 at index `p` (R117, R119). -/
def inZeroRun (c : Params) (p i : Nat) (d : Decoder) : Prop :=
  d.recover = false ∧ d.preserve = false ∧ d.fieldEnd ≤ i ∧ i < p ∧
    ∀ q, i ≤ q → q < p → clearable c p q d

/-- The codewords of a track, as the host collects them from ENC_CW after each ENC_BYTE (30_encoding.md
R90, 45_remodulator.md R197). -/
def encodeRun : List (Byte × Bool) → State → List Half
  | [], _ => []
  | (v, y) :: rest, s =>
    match exec (.encByte v y) s with
    | .next t => t.cw :: encodeRun rest t
    | _ => []

/-- The channel bits of codewords in window order, in time order (20_memory.md R57). -/
def channelStream (ws : List Half) : List Bool := ws.flatMap fun w => (List.range 16).map w.getLsbD

/-- The window over a stream that holds the bits from offset `o` on, the oldest at bit 0 (00_scope.md
R11). -/
def windowAt (bits : List Bool) (o : Nat) : Half := ofBits 16 fun i => bits.getD (o + i) false

/-- The instructions of the decoder's datapath: the four commands and the forms they select (00_scope.md
R3). -/
def isDecoderInstr : Instr → Bool
  | .decStart _ _ => true
  | .decBit _ => true
  | .decByte _ => true
  | .decEnd => true
  | .encStart _ => false
  | .encByte _ _ => false
  | .crcLoad _ => false
  | .crcByte _ => false
  | .syncA1 => true
  | .markC2 => true
  | .gap4E => true
  | .dataWindow _ => true
  | .idamFc => true
  | .idamFd => true
  | .idamFe => true
  | .dam _ => true
  | .markUnknown _ => true
  | .encSyncA1 => false
  | .encSyncC2 => false
  | .encData _ _ => false

/-- The instructions of the encoder's datapath (R3). -/
def isEncoderInstr : Instr → Bool
  | .decStart _ _ => false
  | .decBit _ => false
  | .decByte _ => false
  | .decEnd => false
  | .encStart _ => true
  | .encByte _ _ => true
  | .crcLoad _ => false
  | .crcByte _ => false
  | .syncA1 => false
  | .markC2 => false
  | .gap4E => false
  | .dataWindow _ => false
  | .idamFc => false
  | .idamFd => false
  | .idamFe => false
  | .dam _ => false
  | .markUnknown _ => false
  | .encSyncA1 => true
  | .encSyncC2 => true
  | .encData _ _ => true

/-- The commands of the CRC test port (R3). -/
def isCrcInstr : Instr → Bool := fun i => !isDecoderInstr i && !isEncoderInstr i

/-- DEC_START, the one command that empties the track (20_memory.md R51, R69). -/
def isDecStart : Instr → Bool
  | .decStart _ _ => true
  | _ => false

end Sys2Proof.Machine
end

