-- ==== Sys2Proof/Certificates/Slice0/Obligations.lean ====
section
/-! DEFINITION. The statements for the provers. Each docstring names the rules of spec/ it formalises.
Where a statement says a whole next state, every register, flag and byte it does not name is unchanged. -/

open Sys2Proof Sys2Proof.Machine

/-! ### Encodings -/

/-- Decoding the word of a well-formed instruction gives the instruction back, with every operand at every
value its encoding admits (R80 to R85, R70, R73, R76, R92). -/
def Obligations.DecodeInvertsEncode : Prop :=
  ∀ i : Instr, i.wf = true → decode (encode i) = .ok i

/-- Whatever the decoder reads from a word is a well-formed instruction, and its word is that word: no two
words of one format are one instruction (R80, R92). -/
def Obligations.EncodeInvertsDecode : Prop :=
  ∀ (f : FormatWord) (i : Instr), decode f = .ok i → i.wf = true ∧ encode i = f

/-- R80: a word is a command exactly when its masked bits are the row's match bits; the operand fields are
the row's. -/
def Obligations.CommandRowsDecideDecoding : Prop :=
  ∀ w : Word,
    (w &&& 0xFFFFFFFC = 0x01000000 ↔
      decodeCommand w = .ok (.decStart (w.getLsbD 0) (w.getLsbD 1))) ∧
    (w &&& 0xFFFFFFFE = 0x02000000 ↔ decodeCommand w = .ok (.decBit (w.getLsbD 0))) ∧
    (w &&& 0xFFFFFF00 = 0x03000000 ↔ decodeCommand w = .ok (.decByte (w.extractLsb' 0 8))) ∧
    (w &&& 0xFFFFFFFF = 0x04000000 ↔ decodeCommand w = .ok .decEnd) ∧
    (w &&& 0xFFFFFFFE = 0x10000000 ↔ decodeCommand w = .ok (.encStart (w.getLsbD 0))) ∧
    (w &&& 0xFFFFFE00 = 0x11000000 ↔
      decodeCommand w = .ok (.encByte (w.extractLsb' 0 8) (w.getLsbD 8))) ∧
    (w &&& 0xFFFF0000 = 0x20000000 ↔ decodeCommand w = .ok (.crcLoad (w.extractLsb' 0 16))) ∧
    (w &&& 0xFFFFFF00 = 0x21000000 ↔ decodeCommand w = .ok (.crcByte (w.extractLsb' 0 8))) ∧
    ((∃ i, decodeCommand w = .ok i) ↔ ∃ r ∈ commandRows, w &&& r.maskBits = r.matchBits)

/-- R81 to R85: the word of each command, and the order in which DEC_BYTE presents its bits. -/
def Obligations.CommandEncodings : Prop :=
  (∀ r p : Bool, encode (.decStart r p) =
      .command32 (0x01000000 ||| ((BitVec.ofBool p).setWidth 32 <<< 1) ||| (BitVec.ofBool r).setWidth 32)) ∧
    encode (.decStart false false) = .command32 0x01000000 ∧
    encode (.decStart true false) = .command32 0x01000001 ∧
    encode (.decStart false true) = .command32 0x01000002 ∧
    encode (.decStart true true) = .command32 0x01000003 ∧
    (∀ b : Bool, encode (.decBit b) = .command32 (0x02000000 ||| (BitVec.ofBool b).setWidth 32)) ∧
    (∀ x : Byte, encode (.decByte x) = .command32 (0x03000000 ||| x.setWidth 32)) ∧
    (∀ x : Byte, channelBits x =
      [x.getLsbD 0, x.getLsbD 1, x.getLsbD 2, x.getLsbD 3,
        x.getLsbD 4, x.getLsbD 5, x.getLsbD 6, x.getLsbD 7]) ∧
    encode .decEnd = .command32 0x04000000 ∧
    (∀ w : Word, decodeCommand w = .ok .decEnd ↔ w = 0x04000000) ∧
    (∀ p : Bool, encode (.encStart p) = .command32 (0x10000000 ||| (BitVec.ofBool p).setWidth 32)) ∧
    (∀ (v : Byte) (y : Bool), encode (.encByte v y) =
      .command32 (0x11000000 ||| ((BitVec.ofBool y).setWidth 32 <<< 8) ||| v.setWidth 32)) ∧
    (∀ h : Half, encode (.crcLoad h) = .command32 (0x20000000 ||| h.setWidth 32)) ∧
    (∀ b : Byte, encode (.crcByte b) = .command32 (0x21000000 ||| b.setWidth 32))

/-- R86, R204, R205: a reserved opcode and a defined opcode with a reserved operand bit are refused by name,
and the refused word changes nothing but RESULT. The port, which the word leaves, is the model's choice (log
entry 1). -/
def Obligations.ReservedWordsRefused : Prop :=
  ∀ (s : State) (w : Word) (rest : List Word), s.port = w :: rest →
    ((w.extractLsb' 24 8 : Byte) ∉ [0x01, 0x02, 0x03, 0x04, 0x10, 0x11, 0x20, 0x21] →
      decodeCommand w = .error .reservedOpcode ∧
        step s = .next { s with port := rest, result := 0x01 }) ∧
    ((w.extractLsb' 24 8 : Byte) ∈ [0x01, 0x02, 0x03, 0x04, 0x10, 0x11, 0x20, 0x21] →
      (∀ r ∈ commandRows, w &&& r.maskBits ≠ r.matchBits) →
      decodeCommand w = .error .reservedOperand ∧
        step s = .next { s with port := rest, result := 0x02 })

/-- R206: a DEC_BYTE word with a reserved operand bit is refused with RESERVED_OPERAND also while Done; and
of the two faults an A1 sync can meet, the truncation's comes first (R113), each with the effect of R203. That
SYNC_A1 runs as an instruction of its own, with its RESULT and its rollback, is the model's choice (log entry
5), and so is the port, which the word leaves (log entry 1). -/
def Obligations.RefusalAndFaultPriority : Prop :=
  (∀ (s : State) (w : Word) (rest : List Word), s.port = w :: rest → s.dec.dstate = .done →
    w.extractLsb' 24 8 = (0x03 : Byte) → w.extractLsb' 8 16 ≠ (0 : Half) →
    step s = .next { s with port := rest, result := 0x02 }) ∧
  (∀ s : State, s.dec.dstate = .active → s.dec.stage.openField = true →
    s.dec.catalog.length = s.cfg.catalogCap → s.dec.trackLen = s.cfg.bytesCap →
    exec .syncA1 s = .next { s with dec := { s.dec with dstate := .done }, result := 0x11 }) ∧
  (∀ s : State, s.dec.dstate = .active → s.dec.stage = .idle → s.dec.trackLen = s.cfg.bytesCap →
    ¬ (s.dec.lastKind = .c2off ∧ s.dec.cnt ≠ 1) →
    exec .syncA1 s = .next { s with dec := { s.dec with dstate := .done }, result := 0x10 })

/-! ### The step -/

/-- A step takes the oldest command word of the port, decodes it and runs it; a word that does not decode is
refused; with an empty port nothing happens. The port is the model's own (log entry 1); R65, R80, R87. -/
def Obligations.StepRunsDecodedCommand : Prop :=
  ∀ s : State,
    (s.port = [] → step s = .next s) ∧
    ∀ (w : Word) (rest : List Word), s.port = w :: rest →
      (∀ i, decodeCommand w = .ok i → step s = exec i { s with port := rest }) ∧
      (∀ r, decodeCommand w = .error r →
        step s = .next { s with port := rest, result := refuseCode r })

/-- A few words written out from the tables of R80, R70, R73 and R76 decode to what they stand for. -/
def Obligations.SpecWordsDecode : Prop :=
  decodeCommand 0x01000001 = .ok (.decStart true false) ∧
    decodeCommand 0x02000001 = .ok (.decBit true) ∧
    decodeCommand 0x03000055 = .ok (.decByte 0x55) ∧
    decodeCommand 0x04000000 = .ok .decEnd ∧
    decodeCommand 0x10000001 = .ok (.encStart true) ∧
    decodeCommand 0x110001A1 = .ok (.encByte 0xA1 true) ∧
    decodeCommand 0x2000FFFF = .ok (.crcLoad 0xFFFF) ∧
    decodeCommand 0x210000A1 = .ok (.crcByte 0xA1) ∧
    decode (.window16 0x9122) = .ok .syncA1 ∧
    decode (.window16 0x2A48) = .ok (.dataWindow 0x2A48) ∧
    decode (.mark8 0xFB) = .ok (.dam 0xFB) ∧
    decode (.mark8 0xFF) = .ok (.markUnknown 0xFF) ∧
    decode (.encsel9 0x0A1) = .ok (.encData 0xA1 false)

/-- R202: every command word has exactly one of three outcomes, written to RESULT: its instruction took
effect; or it took none and only RESULT changed; or it took none, dstate became Done and RESULT holds the
fault code. The three are told apart by the code. That the word leaves the port, and that the parameters are
a field of the state which no word changes, are the model's choices (log entries 1 and 2). -/
def Obligations.ThreeOutcomes : Prop :=
  ∀ (s : State) (w : Word) (rest : List Word), s.port = w :: rest →
    ∃ t, step s = .next t ∧ t.port = rest ∧ t.cfg = s.cfg ∧
      ((t.result = 0x00 ∧
          ∃ i, decodeCommand w = .ok i ∧ exec i { s with port := rest } = .next t) ∨
        (t.result ∈ [0x01, 0x02, 0x03] ∧ t = { s with port := rest, result := t.result }) ∨
        (t.result ∈ [0x10, 0x11] ∧
          t = { s with port := rest, dec := { s.dec with dstate := .done }, result := t.result }))

/-- R205: the RESULT codes; a command word writes no other value; RESULT is 0x00 at power-on. That a decoded
form by itself writes one of them is the model's choice (log entry 5). -/
def Obligations.ResultCodesOnly : Prop :=
  okCode = 0x00 ∧ refuseCode .reservedOpcode = 0x01 ∧ refuseCode .reservedOperand = 0x02 ∧
    refuseCode .decoderDone = 0x03 ∧ faultCode .bytesOverflow = 0x10 ∧
    faultCode .catalogOverflow = 0x11 ∧
    (∀ (i : Instr) (s t : State), exec i s = .next t →
      t.result ∈ ([0x00, 0x01, 0x02, 0x03, 0x10, 0x11] : List Byte)) ∧
    (∀ s t : State, s.port ≠ [] → step s = .next t →
      t.result ∈ ([0x00, 0x01, 0x02, 0x03, 0x10, 0x11] : List Byte)) ∧
    ∀ c : Config.Params, (State.powerOn c).result = 0x00

/-- R204, R22: while Done, DEC_BIT, DEC_BYTE and DEC_END are refused with DECODER_DONE. The decoded forms by
themselves are refused alike, which is the model's choice (log entry 5). -/
def Obligations.DecoderDoneRefused : Prop :=
  ∀ (i : Instr) (s : State), isDecoderInstr i = true → isDecStart i = false → s.dec.dstate = .done →
    exec i s = .next { s with result := 0x03 }

/-- R203, R61: a fault discards every change of its command, also those of the earlier bits of the same byte,
makes the decoder Done and puts the code in RESULT. With the byte memory full: a DEC_BYTE in which a presumed
byte boundary lies, whatever its bits are, unless an A1 in it could replace a C2 (R114) or could not close the
open field's record; and a DEC_BIT that completes any form but an A1 (R108), on the presumed boundary or off
it (R104). With the catalog full: a DEC_END that has to close a record (R154). -/
def Obligations.FaultDiscardsCommand : Prop :=
  (∀ (x : Byte) (s : State), s.dec.dstate = .active → 1 ≤ s.dec.cnt → s.dec.cnt ≤ 8 →
    s.dec.lastKind ≠ .c2off →
    (s.dec.stage.openField = true → s.dec.catalog.length < s.cfg.catalogCap) →
    s.dec.trackLen = s.cfg.bytesCap →
    exec (.decByte x) s = .next { s with dec := { s.dec with dstate := .done }, result := 0x10 }) ∧
  (∀ (b : Bool) (i : Instr) (s : State), s.dec.dstate = .active → completesForm s.cfg b s.dec i →
    i ≠ .syncA1 → s.dec.trackLen = s.cfg.bytesCap →
    exec (.decBit b) s = .next { s with dec := { s.dec with dstate := .done }, result := 0x10 }) ∧
  (∀ s : State, s.dec.dstate = .active → s.dec.stage.openField = true →
    s.dec.catalog.length = s.cfg.catalogCap →
    exec .decEnd s = .next { s with dec := { s.dec with dstate := .done }, result := 0x11 })

/-! ### Reset -/

/-- R220: the power-on values, for every choice of the implementation parameters. -/
def Obligations.PowerOnValues : Prop :=
  ∀ c : Config.Params,
    (State.powerOn c).dec =
      { recover := false, preserve := false, dstate := .active, pos := 0, window := 0x0000, cnt := 16,
        lastKind := .none, a1 := 0, crc := 0xFFFF, stage := .idle, crcHi := 0x00, idBuf := #v[0, 0, 0],
        curCyl := 0, curSide := 0, curSector := 0, curSize := 0, lenKnown := false, openRec := none,
        fieldEnd := 0, hBuf := Vector.replicate 22 0, hOff := 0, fold := 0, trackLen := 0, bytes := [],
        syncBits := [], catalog := [] } ∧
    (State.powerOn c).prev = false ∧ (State.powerOn c).cw = 0x0000 ∧
    (State.powerOn c).crcPort = 0xFFFF ∧ (State.powerOn c).result = 0x00 ∧
    exec (.decStart false false) (State.powerOn c) = .next (State.powerOn c)

/-- R100: DEC_START, in every state: it empties the track, puts every decoder register at its reset value
with recover and preserve from its operand, and makes the decoder Active; the encoder and the CRC test port
stay; a word with a reserved operand bit is refused. -/
def Obligations.DecStartResult : Prop :=
  (∀ r p : Bool, encode (.decStart r p) =
      .command32 (0x01000000 ||| ((BitVec.ofBool p).setWidth 32 <<< 1) ||| (BitVec.ofBool r).setWidth 32)) ∧
  (∀ w : Word, w.extractLsb' 24 8 = (0x01 : Byte) → w.extractLsb' 2 22 ≠ (0 : BitVec 22) →
    decodeCommand w = .error .reservedOperand) ∧
  ∀ (r p : Bool) (s : State), exec (.decStart r p) s = .next { s with
    dec :=
      { recover := r, preserve := p, dstate := .active, pos := 0, window := 0x0000, cnt := 16,
        lastKind := .none, a1 := 0, crc := 0xFFFF, stage := .idle, crcHi := 0x00, idBuf := #v[0, 0, 0],
        curCyl := 0, curSide := 0, curSector := 0, curSize := 0, lenKnown := false, openRec := none,
        fieldEnd := 0, hBuf := Vector.replicate 22 0, hOff := 0, fold := 0, trackLen := 0, bytes := [],
        syncBits := [], catalog := [] }
    result := 0x00 }

/-! ### The encoder -/

/-- R191: ENC_START, in every state: prev from its operand, cw cleared, the decoder untouched; a word with a
reserved operand bit is refused. -/
def Obligations.EncStartResult : Prop :=
  (∀ p : Bool, encode (.encStart p) = .command32 (0x10000000 ||| (BitVec.ofBool p).setWidth 32)) ∧
  (∀ (p : Bool) (s : State), exec (.encStart p) s = .next { s with prev := p, cw := 0x0000, result := 0x00 }) ∧
  ∀ w : Word, w.extractLsb' 24 8 = (0x10 : Byte) → w.extractLsb' 1 23 ≠ (0 : BitVec 23) →
    decodeCommand w = .error .reservedOperand

/-- R193: ENC_BYTE, in every state: the codeword selected, with the previous-bit rule of R192, and the
trailing bit of R195; a word with a reserved operand bit is refused. -/
def Obligations.EncByteResult : Prop :=
  (∀ (v : Byte) (y : Bool), encode (.encByte v y) =
      .command32 (0x11000000 ||| ((BitVec.ofBool y).setWidth 32 <<< 8) ||| v.setWidth 32)) ∧
  (∀ (v : Byte) (y : Bool) (s : State),
    let w : Half :=
      if y = true ∧ v = 0xA1 then 0x9122
      else if y = true ∧ v = 0xC2 then 0x244A
      else if s.prev = true then encTable v &&& 0xFFFE else encTable v
    exec (.encByte v y) s = .next { s with cw := w, prev := w.getLsbD 15, result := 0x00 }) ∧
  ∀ w : Word, w.extractLsb' 24 8 = (0x11 : Byte) → w.extractLsb' 9 15 ≠ (0 : BitVec 15) →
    decodeCommand w = .error .reservedOperand

/-- R76, R194, R195: the encoder selections by themselves (log entry 5), in every state: the two sync
codewords whatever prev is, and a data codeword; and ENC_BYTE runs the selection of its operand. -/
def Obligations.EncSelectionResults : Prop :=
  ∀ (s : State) (v : Byte) (y : Bool),
    exec .encSyncA1 s = .next { s with cw := 0x9122, prev := true, result := 0x00 } ∧
    exec .encSyncC2 s = .next { s with cw := 0x244A, prev := false, result := 0x00 } ∧
    exec (.encData v y) s = .next { s with
      cw := if s.prev = true then encTable v &&& 0xFFFE else encTable v
      prev := v.getLsbD 0
      result := 0x00 } ∧
    ∀ i, decode (.encsel9 (BitVec.ofBool y ++ v)) = .ok i → exec (.encByte v y) s = exec i s

/-- R190: the bits of ENC_TABLE, and its sample entries. -/
def Obligations.EncTableClockRule : Prop :=
  (∀ (b : Byte) (k : Fin 8),
    (encTable b).getLsbD (2 * k.val + 1) = b.getLsbD (7 - k.val) ∧
      (encTable b).getLsbD (2 * k.val) =
        (!(if k.val = 0 then false else b.getLsbD (8 - k.val)) && !b.getLsbD (7 - k.val))) ∧
  encTable 0x00 = 0x5555 ∧ encTable 0x01 = 0x9555 ∧ encTable 0x4E = 0x2A49 ∧ encTable 0x55 = 0x8889 ∧
    encTable 0x80 = 0x5552 ∧ encTable 0xA1 = 0x9522 ∧ encTable 0xAA = 0x2222 ∧ encTable 0xC2 = 0x254A ∧
    encTable 0xFE = 0x2AAA ∧ encTable 0xFF = 0xAAAA

/-- R106, R121: demodulation takes the data bits of a window, W[1] first, and gives back every byte whose
codeword the table holds, with and without its leading clock bit. -/
def Obligations.DemodulationCorrect : Prop :=
  (∀ w : Half, demod w =
    BitVec.ofBool (w.getLsbD 1) ++ BitVec.ofBool (w.getLsbD 3) ++ BitVec.ofBool (w.getLsbD 5) ++
      BitVec.ofBool (w.getLsbD 7) ++ BitVec.ofBool (w.getLsbD 9) ++ BitVec.ofBool (w.getLsbD 11) ++
      BitVec.ofBool (w.getLsbD 13) ++ BitVec.ofBool (w.getLsbD 15)) ∧
  demod 0x9122 = 0xA1 ∧ demod 0x244A = 0xC2 ∧ demod 0x2A49 = 0x4E ∧ demod 0x5555 = 0x00 ∧
    demod 0xAAAA = 0xFF ∧
  ∀ b : Byte, demod (encTable b) = b ∧ demod (encTable b &&& 0xFFFE) = b

/-- R196, R72, R192: whatever bytes and sync bits are encoded, the channel stream never has two adjacent 1
bits, and it starts with a 0 bit when the bit before it was 1. -/
def Obligations.EncodedTrackHasNoAdjacentOnes : Prop :=
  ∀ (l : List (Byte × Bool)) (s : State) (o : Nat),
    ¬ ((channelStream (encodeRun l s)).getD o false = true ∧
        (channelStream (encodeRun l s)).getD (o + 1) false = true) ∧
      (s.prev = true → (channelStream (encodeRun l s)).getD 0 false = false)

/-- R77, R120: a stream of data codewords, of any length, holds the A1 window at no bit offset, and the C2
window only at odd offsets. -/
def Obligations.SyncWindowsAbsentFromData : Prop :=
  ∀ (l : List (Byte × Bool)) (s : State) (o : Nat), (∀ x ∈ l, isEncData x.1 x.2 = true) →
    o + 16 ≤ (channelStream (encodeRun l s)).length →
    windowAt (channelStream (encodeRun l s)) o ≠ 0x9122 ∧
      (windowAt (channelStream (encodeRun l s)) o = 0x244A → o % 2 = 1)

/-- R196, R57, R107: a track of data bytes, encoded from any state, laid out in bytes and decoded in phase in
normal mode, gives back every byte with sync bit 0 and no record, if the byte memory has room. -/
def Obligations.LegalTrackRoundTrip : Prop :=
  ∀ (l : List (Byte × Bool)) (s : State), (∀ x ∈ l, isEncData x.1 x.2 = true) →
    l.length ≤ s.cfg.bytesCap →
    ∃ t, runInstrs
        (.decStart false false :: ((encodeRun l s).flatMap serializeCodeword).map .decByte) s = .next t ∧
      t.result = 0x00 ∧ t.dec.dstate = .active ∧ t.dec.trackLen = l.length ∧ t.dec.catalog = [] ∧
      ∀ (n : Nat) (h : n < l.length),
        trackRead t.dec n = (l[n]'h).1 ∧ syncRead t.dec n = false

/-- R57: fed in two bytes, low byte first, a codeword stands in the window after the second. -/
def Obligations.CodewordReachesWindow : Prop :=
  ∀ (w : Half) (s : State), s.dec.dstate = .active → s.dec.trackLen + 16 ≤ s.cfg.bytesCap →
    s.dec.catalog.length + 16 ≤ s.cfg.catalogCap →
    ∃ t, runInstrs [.decByte (w.setWidth 8), .decByte ((w >>> 8).setWidth 8)] s = .next t ∧
      t.result = 0x00 ∧ t.dec.window = w ∧ t.dec.pos = s.dec.pos + 16

/-! ### The CRC engine and its test port -/

/-- R134: CRC_LOAD, in every state; the decoder is not touched; a word with a reserved operand bit is
refused. -/
def Obligations.CrcLoadResult : Prop :=
  (∀ h : Half, encode (.crcLoad h) = .command32 (0x20000000 ||| h.setWidth 32)) ∧
  (∀ (h : Half) (s : State), exec (.crcLoad h) s = .next { s with crcPort := h, result := 0x00 }) ∧
  ∀ w : Word, w.extractLsb' 24 8 = (0x20 : Byte) → w.extractLsb' 16 8 ≠ (0 : Byte) →
    decodeCommand w = .error .reservedOperand

/-- R135: CRC_BYTE, in every state; the decoder is not touched; a word with a reserved operand bit is
refused. -/
def Obligations.CrcByteResult : Prop :=
  (∀ b : Byte, encode (.crcByte b) = .command32 (0x21000000 ||| b.setWidth 32)) ∧
  (∀ (b : Byte) (s : State), exec (.crcByte b) s =
    .next { s with crcPort := crcUpd s.crcPort b, result := 0x00 }) ∧
  (∀ s : State, runInstrs [.crcLoad 0xFFFF, .crcByte 0xA1] s =
    .next { s with crcPort := 0x443B, result := 0x00 }) ∧
  ∀ w : Word, w.extractLsb' 24 8 = (0x21 : Byte) → w.extractLsb' 8 16 ≠ (0 : Half) →
    decodeCommand w = .error .reservedOperand

/-- R130 to R132: one step of the engine is the division of the register, with the byte exclusive-ored into
its high half, by the polynomial, eight bits most significant first; and the table is linear (R131). -/
def Obligations.CrcUpdateIsDivision : Prop :=
  (∀ (c : Half) (b : Byte), crcUpd c b =
    (List.range 8).foldl
      (fun r _ => if r.getLsbD 15 then (r <<< 1) ^^^ 0x1021 else r <<< 1) (c ^^^ (b ++ (0x00 : Byte)))) ∧
  ∀ i j : Byte, crcTable (i ^^^ j) = crcTable i ^^^ crcTable j

/-- R133: the check values, the sync prefix, and the zero residue: after any bytes, accumulating the CRC
itself, high byte first, gives 0. -/
def Obligations.CrcProperties : Prop :=
  ([0x31, 0x32, 0x33, 0x34, 0x35, 0x36, 0x37, 0x38, 0x39] : List Byte).foldl crcUpd 0xFFFF = 0x29B1 ∧
    ([0x31, 0x32, 0x33, 0x34, 0x35, 0x36, 0x37, 0x38, 0x39] : List Byte).foldl crcUpd 0x0000 = 0x31C3 ∧
    crcUpd 0xFFFF 0xA1 = 0x443B ∧ crcUpd 0x443B 0xA1 = 0x968B ∧ crcUpd 0x968B 0xA1 = 0xCDB4 ∧
    ∀ (seed : Half) (bs : List Byte),
      (bs ++ [(bs.foldl crcUpd seed >>> 8).setWidth 8, (bs.foldl crcUpd seed).setWidth 8]).foldl
        crcUpd seed = 0x0000

/-! ### The channel bit -/

/-- R101 to R105, R71: while Active, a channel bit is shifted in and counted; if it completes no form, the
countdown goes on; if it completes one, by the priority of R71, DEC_BIT does what that form does on the
shifted window, or faults with its fault, whole or not at all. -/
def Obligations.DecBitRunsCompletedForm : Prop :=
  ∀ (b : Bool) (s : State), s.dec.dstate = .active →
    ((∀ i, ¬ completesForm s.cfg b s.dec i) →
      exec (.decBit b) s = .next { s with
        dec := { s.dec with
          window := shiftedWindow b s.dec, pos := s.dec.pos + 1, cnt := s.dec.cnt - 1 }
        result := 0x00 }) ∧
    ∀ i, completesForm s.cfg b s.dec i →
      ∃ t, exec i { s with
          dec := { s.dec with window := shiftedWindow b s.dec, pos := s.dec.pos + 1 } } = .next t ∧
        (t.result = 0x00 → exec (.decBit b) s = .next t) ∧
        (t.result ≠ 0x00 → exec (.decBit b) s =
          .next { s with dec := { s.dec with dstate := .done }, result := t.result })

/-- While Active, with room for one byte and one record, DEC_BIT takes effect (R105, R203): the bit is
shifted in and counted, at most one byte is emitted (R71), and the countdown restarts exactly when a form is
completed. -/
def Obligations.DecBitCompletes : Prop :=
  ∀ (b : Bool) (s : State), s.dec.dstate = .active → s.dec.trackLen < s.cfg.bytesCap →
    s.dec.catalog.length < s.cfg.catalogCap →
    ∃ t, exec (.decBit b) s = .next t ∧ t.result = 0x00 ∧ t.dec.dstate = .active ∧
      t.dec.window = shiftedWindow b s.dec ∧ t.dec.pos = s.dec.pos + 1 ∧
      s.dec.trackLen ≤ t.dec.trackLen ∧ t.dec.trackLen ≤ s.dec.trackLen + 1 ∧
      ((∃ i, completesForm s.cfg b s.dec i) → t.dec.cnt = 16) ∧
      ((∀ i, ¬ completesForm s.cfg b s.dec i) → t.dec.cnt = s.dec.cnt - 1 ∧
        t.dec.trackLen = s.dec.trackLen)

/-- R107, R228: DEC_BYTE does what eight DEC_BITs do, bit 0 first, when all eight take effect; and with room
for eight bytes and records it takes effect. -/
def Obligations.DecByteIsEightDecBits : Prop :=
  (∀ (x : Byte) (s t : State), s.dec.dstate = .active →
    runInstrs ((channelBits x).map .decBit) s = .next t → t.result = 0x00 →
    exec (.decByte x) s = .next t) ∧
  ∀ (x : Byte) (s : State), s.dec.dstate = .active → s.dec.trackLen + 8 ≤ s.cfg.bytesCap →
    s.dec.catalog.length + 8 ≤ s.cfg.catalogCap →
    ∃ t, exec (.decByte x) s = .next t ∧ t.result = 0x00 ∧ t.dec.dstate = .active ∧
      t.dec.pos = s.dec.pos + 8 ∧ runInstrs ((channelBits x).map .decBit) s = .next t

/-- R107: one DEC_BYTE emits at most two bytes, from every state. -/
def Obligations.DecByteEmitsAtMostTwoBytes : Prop :=
  ∀ (x : Byte) (s t : State), exec (.decByte x) s = .next t →
    s.dec.trackLen ≤ t.dec.trackLen ∧ t.dec.trackLen ≤ s.dec.trackLen + 2

/-! ### The window forms

The forms are run here as instructions of their own, on the decoder in which the window has just been
recognized; that is the model's reading of the opcode table (log entry 5). `DecBitRunsCompletedForm` says
where DEC_BIT runs them. -/

/-- R113 to R119, R155, R112: SYNC_A1 in every stage. Index p is where the A1 lands: the last byte if it
replaces an off-boundary C2 (R114), else the end of the track. An open field is truncated first; the run is
counted and the CRC seeded (R115, R116); in normal mode the zero run below p is cleared, and no other byte or
sync bit changes (R117, R119). -/
def Obligations.SyncA1Result : Prop :=
  ∀ (s : State) (r : OpenRec) (p : Nat), s.dec.dstate = .active →
    (s.dec.stage.openField = true →
      s.dec.openRec = some r ∧ s.dec.catalog.length < s.cfg.catalogCap) →
    ((s.dec.lastKind = .c2off ∧ s.dec.cnt ≠ 1 ∧ p + 1 = s.dec.trackLen) ∨
      (¬ (s.dec.lastKind = .c2off ∧ s.dec.cnt ≠ 1) ∧ p = s.dec.trackLen ∧ p < s.cfg.bytesCap)) →
    ∃ t, exec .syncA1 s = .next t ∧
      t = { s with
        dec := { s.dec with
          bytes := t.dec.bytes
          syncBits := t.dec.syncBits
          trackLen := p + 1
          lastKind := .a1
          cnt := 16
          catalog := truncatedCatalog r s.dec
          openRec := if s.dec.stage.openField = true then none else s.dec.openRec
          stage := .idle
          a1 := if s.dec.stage = .idle then s.dec.a1 + 1 else 1
          crc := if s.dec.stage = .idle ∧ s.dec.a1 ≠ 0 then crcUpd s.dec.crc 0xA1 else 0x443B }
        result := 0x00 } ∧
      trackRead t.dec p = 0xA1 ∧ syncRead t.dec p = true ∧
      ∀ n, n ≠ p →
        (inZeroRun s.cfg p n s.dec → trackRead t.dec n = 0x00 ∧ syncRead t.dec n = false) ∧
        (¬ inZeroRun s.cfg p n s.dec →
          trackRead t.dec n = trackRead s.dec n ∧ syncRead t.dec n = syncRead s.dec n)

/-- What an appended byte changes in the memory: the byte and the sync bit at TrackLen(), and no other
(R108). -/
def Obligations.AppendedByteReads : Prop :=
  ∀ (v : Byte) (y : Bool) (k : LastKind) (d : Decoder) (n : Nat),
    trackRead (appendedByte v y k d) n = (if n = d.trackLen then v else trackRead d n) ∧
      syncRead (appendedByte v y k d) n = (if n = d.trackLen then y else syncRead d n)

/-- R109, R110, R111, R141: MARK_C2, GAP_4E and DATA_WINDOW on a byte without parser effect: the byte and its
sync bit are appended, the kind recorded, the countdown restarted and the sync-run counter reset. -/
def Obligations.GapBytesAppended : Prop :=
  (∀ s : State, s.dec.dstate = .active → s.dec.trackLen < s.cfg.bytesCap → gapByte s.cfg 0xC2 s.dec →
    exec .markC2 s = .next { s with
      dec := { appendedByte 0xC2 true (if s.dec.cnt = 1 then .c2on else .c2off) s.dec with a1 := 0 }
      result := 0x00 }) ∧
  (∀ s : State, s.dec.dstate = .active → s.dec.trackLen < s.cfg.bytesCap → gapByte s.cfg 0x4E s.dec →
    exec .gap4E s = .next { s with
      dec := { appendedByte 0x4E false .data s.dec with a1 := 0 }, result := 0x00 }) ∧
  ∀ (w : Half) (s : State), s.dec.dstate = .active → s.dec.trackLen < s.cfg.bytesCap →
    gapByte s.cfg (demod w) s.dec →
    exec (.dataWindow w) s = .next { s with
      dec := { appendedByte (demod w) false .data s.dec with a1 := 0 }, result := 0x00 }

/-- R122: GAP_4E does what the ordinary emission of the same window does; MARK_C2 differs from the ordinary
emission only in the sync bit it writes and in lastKind, whichever field is open; and outside preserve mode
lastKind never becomes C2off. The memory is in its canonical form, which every step keeps. The two windows
that this compares with are no operands of the DATA_WINDOW row, and that DATA_WINDOW runs on them as on any
window is the model's choice (log entry 10), as is running a form by itself (log entry 5). -/
def Obligations.GapWindowsAgainstOrdinary : Prop :=
  (∀ s : State, exec .gap4E s = exec (.dataWindow 0x2A49) s) ∧
  (∀ s t : State, s.dec.syncBits.wf = true → s.dec.dstate = .active →
    exec (.dataWindow 0x244A) s = .next t → t.result = 0x00 →
    exec .markC2 s = .next { t with
      dec := { t.dec with
        syncBits := t.dec.syncBits.write s.dec.trackLen true
        lastKind := if s.dec.cnt = 1 then .c2on else .c2off } }) ∧
  ∀ s t : State, s.dec.preserve = false → s.dec.lastKind ≠ .c2off → step s = .next t →
    t.dec.lastKind ≠ .c2off

/-! ### Marks -/

/-- R143: the three ID marks open an ID record at the byte after the mark, accumulate the mark byte and start
the ID field. The mark is the last byte of the track, and on an empty track index 0: the model's choices (log
entry 5). -/
def Obligations.IdMarkForms : Prop :=
  ∀ s : State, s.dec.dstate = .active →
    ∀ x ∈ ([(0xFC, .idamFc), (0xFD, .idamFd), (0xFE, .idamFe)] : List (Byte × Instr)),
      exec x.2 s = .next { s with
        dec := { s.dec with
          fieldEnd := s.dec.trackLen - 1 + 1
          openRec := some ⟨.idField, x.1, s.dec.trackLen - 1 + 1⟩
          crc := crcUpd s.dec.crc x.1
          stage := .readId 0 }
        result := 0x00 }

/-- R148, R149, R153: a Data mark with a known sector length opens a Data record; without one, and an unknown
mark, it is recorded at once, Incomplete with length 0 and the current-ID registers. The mark is the last byte
of the track, and on an empty track index 0: the model's choices (log entry 5). -/
def Obligations.DataAndUnknownMarkForms : Prop :=
  ∀ (v : Byte) (s : State), s.dec.dstate = .active →
    (isDataMark v = true → s.dec.lenKnown = true →
      exec (.dam v) s = .next { s with
        dec := { s.dec with
          fieldEnd := s.dec.trackLen - 1 + 1
          openRec := some ⟨.dataField, v, s.dec.trackLen - 1 + 1⟩
          crc := crcUpd s.dec.crc v
          stage := .readData 0 }
        result := 0x00 }) ∧
    (isDataMark v = true → s.dec.lenKnown = false → s.dec.catalog.length < s.cfg.catalogCap →
      exec (.dam v) s = .next { s with
        dec := { s.dec with
          fieldEnd := s.dec.trackLen - 1 + 1
          openRec := none
          stage := .idle
          catalog := s.dec.catalog ++ [⟨.dataField, v, s.dec.trackLen - 1 + 1, 0, .incomplete,
            s.dec.curCyl, s.dec.curSide, s.dec.curSector⟩] }
        result := 0x00 }) ∧
    (isUnknownMark v = true → s.dec.catalog.length < s.cfg.catalogCap →
      exec (.markUnknown v) s = .next { s with
        dec := { s.dec with
          fieldEnd := s.dec.trackLen - 1 + 1
          openRec := none
          stage := .idle
          catalog := s.dec.catalog ++ [⟨.unknown, v, s.dec.trackLen - 1 + 1, 0, .incomplete,
            s.dec.curCyl, s.dec.curSide, s.dec.curSector⟩] }
        result := 0x00 })

/-- R141, R142, R73: the first byte after exactly three A1s is the field mark: the window form appends it,
does what its mark form does, and resets the sync-run counter; a C2 there is an Unknown mark (R153). The
window forms and the mark forms run here as instructions of their own, each writing RESULT: the model's choice
(log entry 5). -/
def Obligations.MarkAfterThreeSyncs : Prop :=
  ∀ s : State, s.dec.dstate = .active → s.dec.stage = .idle → s.dec.a1 = 3 →
    s.dec.trackLen < s.cfg.bytesCap → s.dec.catalog.length < s.cfg.catalogCap →
    (∀ (w : Half) (i : Instr), decode (.mark8 (demod w)) = .ok i →
      ∃ t, exec i { s with dec := appendedByte (demod w) false .data s.dec } = .next t ∧
        t.result = 0x00 ∧
        exec (.dataWindow w) s = .next { t with dec := { t.dec with a1 := 0 } }) ∧
    exec .markC2 s = .next { s with
      dec := { appendedByte 0xC2 true (if s.dec.cnt = 1 then .c2on else .c2off) s.dec with
        fieldEnd := s.dec.trackLen + 1
        openRec := none
        catalog := s.dec.catalog ++ [⟨.unknown, 0xC2, s.dec.trackLen + 1, 0, .incomplete,
          s.dec.curCyl, s.dec.curSide, s.dec.curSector⟩]
        a1 := 0 }
      result := 0x00 }

/-- R170 to R172: in recover mode a plausible mark without three A1s is taken as after a genuine sync, with
the CRC reseeded; the bytes below it, down to fieldEnd and at most 16, are rewritten, the last three as A1
with sync bit 1, and no other byte or sync bit changes. DATA_WINDOW and the mark form run here as instructions
of their own: the model's choice (log entry 5). -/
def Obligations.RecoveryRebuildsSync : Prop :=
  ∀ (w : Half) (i : Instr) (s : State), s.dec.dstate = .active → s.dec.recover = true →
    s.dec.stage = .idle → s.dec.a1 ≠ 3 → plausibleMark (demod w) → decode (.mark8 (demod w)) = .ok i →
    s.dec.trackLen < s.cfg.bytesCap → s.dec.catalog.length < s.cfg.catalogCap →
    ∃ t u, exec (.dataWindow w) s = .next t ∧ t.result = 0x00 ∧
      exec i { s with
        dec := { appendedByte (demod w) false .data s.dec with crc := 0xCDB4 } } = .next u ∧
      t = { u with dec := { u.dec with a1 := 0, bytes := t.dec.bytes, syncBits := t.dec.syncBits } } ∧
      ∀ n,
        trackRead t.dec n =
          (if n = s.dec.trackLen then demod w
          else if max s.dec.fieldEnd (s.dec.trackLen - 16) ≤ n ∧ n < s.dec.trackLen then
            (if s.dec.trackLen - 3 ≤ n then 0xA1 else 0x00)
          else trackRead s.dec n) ∧
        syncRead t.dec n =
          (if n = s.dec.trackLen then false
          else if max s.dec.fieldEnd (s.dec.trackLen - 16) ≤ n ∧ n < s.dec.trackLen then
            decide (s.dec.trackLen - 3 ≤ n)
          else syncRead s.dec n)

/-! ### Field bytes

A field byte reaches the parser through a window form, here DATA_WINDOW, whose byte is demod of any window
(log entry 5). -/

/-- R144 to R147, R140: each byte of an ID field and of its CRC. -/
def Obligations.IdFieldBytes : Prop :=
  ∀ (w : Half) (s : State), s.dec.dstate = .active → s.dec.trackLen < s.cfg.bytesCap →
    (∀ k : Fin 3, s.dec.stage = .readId k.castSucc →
      exec (.dataWindow w) s = .next { s with
        dec := { appendedByte (demod w) false .data s.dec with
          fieldEnd := s.dec.trackLen + 1
          crc := crcUpd s.dec.crc (demod w)
          idBuf := s.dec.idBuf.set k.val (demod w) k.isLt
          stage := .readId k.succ }
        result := 0x00 }) ∧
    (s.dec.stage = .readId 3 →
      exec (.dataWindow w) s = .next { s with
        dec := { appendedByte (demod w) false .data s.dec with
          fieldEnd := s.dec.trackLen + 1
          crc := crcUpd s.dec.crc (demod w)
          curCyl := s.dec.idBuf[0]
          curSide := s.dec.idBuf[1]
          curSector := s.dec.idBuf[2]
          curSize := demod w
          lenKnown := true
          stage := .readIdCrc 0 }
        result := 0x00 }) ∧
    (s.dec.stage = .readIdCrc 0 →
      exec (.dataWindow w) s = .next { s with
        dec := { appendedByte (demod w) false .data s.dec with
          fieldEnd := s.dec.trackLen + 1
          crcHi := demod w
          stage := .readIdCrc 1 }
        result := 0x00 }) ∧
    ∀ r : OpenRec, s.dec.stage = .readIdCrc 1 → s.dec.openRec = some r →
      s.dec.catalog.length < s.cfg.catalogCap →
      exec (.dataWindow w) s = .next { s with
        dec := { appendedByte (demod w) false .data s.dec with
          fieldEnd := s.dec.trackLen + 1
          catalog := s.dec.catalog ++ [⟨r.kind, r.markByte, r.offset, 4,
            if s.dec.crcHi ++ demod w = s.dec.crc then .ok else .bad,
            s.dec.curCyl, s.dec.curSide, s.dec.curSector⟩]
          openRec := none
          stage := .idle }
        result := 0x00 }

/-- R150 to R152, R75, R140: each byte of a Data field and of its CRC. -/
def Obligations.DataFieldBytes : Prop :=
  ∀ (w : Half) (s : State), s.dec.dstate = .active → s.dec.trackLen < s.cfg.bytesCap →
    (∀ k, s.dec.stage = .readData k →
      exec (.dataWindow w) s = .next { s with
        dec := { appendedByte (demod w) false .data s.dec with
          fieldEnd := s.dec.trackLen + 1
          crc := crcUpd s.dec.crc (demod w)
          stage := if k + 1 = 128 <<< (s.dec.curSize &&& 7).toNat then .readDataCrc 0
            else .readData (k + 1) }
        result := 0x00 }) ∧
    (s.dec.stage = .readDataCrc 0 →
      exec (.dataWindow w) s = .next { s with
        dec := { appendedByte (demod w) false .data s.dec with
          fieldEnd := s.dec.trackLen + 1
          crcHi := demod w
          stage := .readDataCrc 1 }
        result := 0x00 }) ∧
    ∀ r : OpenRec, s.dec.stage = .readDataCrc 1 → s.dec.openRec = some r →
      s.dec.catalog.length < s.cfg.catalogCap →
      exec (.dataWindow w) s = .next { s with
        dec := { appendedByte (demod w) false .data s.dec with
          fieldEnd := s.dec.trackLen + 1
          catalog := s.dec.catalog ++ [⟨r.kind, r.markByte, r.offset,
            128 <<< (s.dec.curSize &&& 7).toNat,
            if s.dec.crcHi ++ demod w = s.dec.crc then .ok else .bad,
            s.dec.curCyl, s.dec.curSide, s.dec.curSector⟩]
          openRec := none
          stage := .idle }
        result := 0x00 }

/-- R18, R144 to R147: an ID field that has just been opened reads four ID bytes and two CRC bytes, latches
the current-ID registers, and records the field, Ok exactly when the two bytes are the CRC of the rest. -/
def Obligations.WholeIdFieldRecorded : Prop :=
  ∀ (cyl side sec size hi lo : Half) (r : OpenRec) (s : State), s.dec.dstate = .active →
    s.dec.stage = .readId 0 → s.dec.openRec = some r → s.dec.trackLen + 6 ≤ s.cfg.bytesCap →
    s.dec.catalog.length < s.cfg.catalogCap →
    let crc := ([demod cyl, demod side, demod sec, demod size]).foldl crcUpd s.dec.crc
    ∃ t, runInstrs [.dataWindow cyl, .dataWindow side, .dataWindow sec, .dataWindow size,
        .dataWindow hi, .dataWindow lo] s = .next t ∧
      t = { s with
        dec := { s.dec with
          bytes := t.dec.bytes
          syncBits := t.dec.syncBits
          trackLen := s.dec.trackLen + 6
          lastKind := .data
          cnt := 16
          fieldEnd := s.dec.trackLen + 6
          crc := crc
          crcHi := demod hi
          idBuf := #v[demod cyl, demod side, demod sec]
          curCyl := demod cyl
          curSide := demod side
          curSector := demod sec
          curSize := demod size
          lenKnown := true
          openRec := none
          stage := .idle
          catalog := s.dec.catalog ++ [⟨r.kind, r.markByte, r.offset, 4,
            if demod hi ++ demod lo = crc then .ok else .bad, demod cyl, demod side, demod sec⟩] }
        result := 0x00 } ∧
      ∀ n,
        trackRead t.dec n =
          (if s.dec.trackLen ≤ n ∧ n < s.dec.trackLen + 6 then
            [demod cyl, demod side, demod sec, demod size, demod hi, demod lo].getD
              (n - s.dec.trackLen) 0
          else trackRead s.dec n) ∧
        syncRead t.dec n =
          (if s.dec.trackLen ≤ n ∧ n < s.dec.trackLen + 6 then false else syncRead s.dec n)

/-- R148, R150 to R152, R75: a Data field that has just been opened reads exactly 128 << (curSize & 7) data
bytes, whatever they are, and two CRC bytes; the bytes stand in the track in order, and the record has that
length, Ok exactly when the two bytes are the CRC of the rest. -/
def Obligations.WholeDataFieldRecorded : Prop :=
  ∀ (data : List Half) (hi lo : Half) (r : OpenRec) (s : State), s.dec.dstate = .active →
    s.dec.stage = .readData 0 → s.dec.openRec = some r →
    data.length = 128 <<< (s.dec.curSize &&& 7).toNat →
    s.dec.trackLen + data.length + 2 ≤ s.cfg.bytesCap → s.dec.catalog.length < s.cfg.catalogCap →
    let crc := (data.map demod).foldl crcUpd s.dec.crc
    ∃ t, runInstrs ((data ++ [hi, lo]).map .dataWindow) s = .next t ∧
      t = { s with
        dec := { s.dec with
          bytes := t.dec.bytes
          syncBits := t.dec.syncBits
          trackLen := s.dec.trackLen + data.length + 2
          lastKind := .data
          cnt := 16
          fieldEnd := s.dec.trackLen + data.length + 2
          crc := crc
          crcHi := demod hi
          openRec := none
          stage := .idle
          catalog := s.dec.catalog ++ [⟨r.kind, r.markByte, r.offset, data.length,
            if demod hi ++ demod lo = crc then .ok else .bad,
            s.dec.curCyl, s.dec.curSide, s.dec.curSector⟩] }
        result := 0x00 } ∧
      ∀ n,
        trackRead t.dec n =
          (if s.dec.trackLen ≤ n ∧ n < s.dec.trackLen + data.length + 2 then
            ((data ++ [hi, lo]).map demod).getD (n - s.dec.trackLen) 0
          else trackRead s.dec n) ∧
        syncRead t.dec n =
          (if s.dec.trackLen ≤ n ∧ n < s.dec.trackLen + data.length + 2 then false
          else syncRead s.dec n)

/-! ### The Amiga path

The byte reaches the parser through DATA_WINDOW, run as an instruction of its own (log entry 5). -/

/-- R174, R175, R140: the byte after exactly two A1s starts the Amiga header region outside recover mode, if
it is in the trigger class; each byte of the region but the last is buffered. That DATA_WINDOW runs by itself
and writes RESULT is the model's choice (log entry 5); so is the region's byte at AmigaHeader(0), a stage
outside R28's range that no run reaches (log entry 11). -/
def Obligations.AmigaHeaderBytes : Prop :=
  ∀ (w : Half) (s : State), s.dec.dstate = .active → s.dec.trackLen < s.cfg.bytesCap →
    (s.dec.recover = false → s.dec.stage = .idle → s.dec.a1 = 2 →
      (s.cfg.amigaTriggerAny = true ∨ ¬ plausibleMark (demod w)) →
      exec (.dataWindow w) s = .next { s with
        dec := { appendedByte (demod w) false .data s.dec with
          hBuf := s.dec.hBuf.set 0 (demod w)
          hOff := s.dec.trackLen
          fieldEnd := s.dec.trackLen + 1
          stage := .amigaHeader 1
          a1 := 0 }
        result := 0x00 }) ∧
    ∀ k : Fin 21, s.dec.stage = .amigaHeader k.castSucc →
      exec (.dataWindow w) s = .next { s with
        dec := { appendedByte (demod w) false .data s.dec with
          fieldEnd := s.dec.trackLen + 1
          hBuf := s.dec.hBuf.set k.castSucc.val (demod w) k.castSucc.isLt
          stage := .amigaHeader k.succ }
        result := 0x00 }

/-- R176: the info word takes its odd bits from the first two header bytes and its even bits from the next
two; the example of R176. -/
def Obligations.AmigaInfoWordBits : Prop :=
  (∀ (h : Vector Byte 22) (n : Fin 16),
    (infoWord h).getLsbD (2 * n.val + 1) = (h[0] ++ h[1]).getLsbD n.val ∧
      (infoWord h).getLsbD (2 * n.val) = (h[2] ++ h[3]).getLsbD n.val) ∧
  (∀ info : Word, amigaInfo info =
    ⟨info.extractLsb' 24 8, info.extractLsb' 16 8 >>> 1, info.extractLsb' 16 8 &&& 1,
      info.extractLsb' 8 8, info.extractLsb' 0 8⟩) ∧
  interleave 0xF101 0xF132 = 0xFF030506 ∧
  amigaInfo 0xFF030506 = ⟨0xFF, 1, 1, 5, 6⟩

/-- R176 to R181, R184: the last byte of the header region. An implausible header leaves no record and no
latch (R177); a plausible one latches the cylinder, side and sector, is recorded with the fold's verdict over
its eleven words, and opens the data region. That DATA_WINDOW runs by itself and writes RESULT is the model's
choice (log entry 5). -/
def Obligations.AmigaHeaderDone : Prop :=
  ∀ (w : Half) (s : State), s.dec.dstate = .active → s.dec.trackLen < s.cfg.bytesCap →
    s.dec.stage = .amigaHeader 21 →
    let h := s.dec.hBuf.set 21 (demod w)
    let i := amigaInfo (infoWord h)
    let kept := i.fmt = s.cfg.amigaFormatMark ∧ i.cyl.toNat ≤ s.cfg.amigaMaxCyl ∧
      i.sec.toNat ≤ s.cfg.amigaMaxSector
    (¬ kept →
      exec (.dataWindow w) s = .next { s with
        dec := { appendedByte (demod w) false .data s.dec with
          fieldEnd := s.dec.trackLen + 1
          hBuf := h
          stage := .idle }
        result := 0x00 }) ∧
    (kept → s.dec.catalog.length < s.cfg.catalogCap →
      exec (.dataWindow w) s = .next { s with
        dec := { appendedByte (demod w) false .data s.dec with
          fieldEnd := s.dec.trackLen + 1
          hBuf := h
          curCyl := i.cyl
          curSide := i.side
          curSector := i.sec
          catalog := s.dec.catalog ++ [⟨.idField, i.fmt, s.dec.hOff, 22,
            if (h[0] ++ h[1]) ^^^ (h[2] ++ h[3]) ^^^ (h[4] ++ h[5]) ^^^ (h[6] ++ h[7]) ^^^
              (h[8] ++ h[9]) ^^^ (h[10] ++ h[11]) ^^^ (h[12] ++ h[13]) ^^^ (h[14] ++ h[15]) ^^^
              (h[16] ++ h[17]) ^^^ (h[18] ++ h[19]) ^^^ (h[20] ++ h[21]) = (0 : Half)
            then .ok else .bad, i.cyl, i.side, i.sec⟩]
          openRec := some ⟨.dataField, i.fmt, s.dec.hOff + 22⟩
          fold := 0
          stage := .amigaData 0 }
        result := 0x00 })

/-- R182, R140: each byte of the Amiga data region is folded, an even-index byte as the high half; the last
closes the record, Ok exactly when the fold is zero. That DATA_WINDOW runs by itself and writes RESULT is the
model's choice (log entry 5). -/
def Obligations.AmigaDataBytes : Prop :=
  ∀ (w : Half) (k : Fin 512) (s : State), s.dec.dstate = .active → s.dec.trackLen < s.cfg.bytesCap →
    s.dec.stage = .amigaData k →
    let fold := s.dec.fold ^^^
      (if k.val % 2 = 0 then demod w ++ (0 : Byte) else (0 : Byte) ++ demod w : Half)
    (∀ h : k.val + 1 < 512,
      exec (.dataWindow w) s = .next { s with
        dec := { appendedByte (demod w) false .data s.dec with
          fieldEnd := s.dec.trackLen + 1
          fold := fold
          stage := .amigaData ⟨k.val + 1, h⟩ }
        result := 0x00 }) ∧
    ∀ r : OpenRec, k.val = 511 → s.dec.openRec = some r →
      s.dec.catalog.length < s.cfg.catalogCap →
      exec (.dataWindow w) s = .next { s with
        dec := { appendedByte (demod w) false .data s.dec with
          fieldEnd := s.dec.trackLen + 1
          fold := fold
          catalog := s.dec.catalog ++ [⟨r.kind, r.markByte, r.offset, 512,
            if fold = 0 then .ok else .bad, s.dec.curCyl, s.dec.curSide, s.dec.curSector⟩]
          openRec := none
          stage := .idle }
        result := 0x00 }

/-! ### End of track and the whole machine

Where a statement ranges over every instruction, the decoded forms are among them, run by themselves: the
model's choice (log entry 5). -/

/-- R157, R155, R154: DEC_END in every stage of an Active decoder. Idle: only dstate changes; else the open
record is closed Incomplete with the length R155 gives, an Amiga header leaves none, and the decoder is
Done. -/
def Obligations.DecEndResult : Prop :=
  ∀ (s : State) (r : OpenRec), s.dec.dstate = .active →
    (s.dec.stage = .idle →
      exec .decEnd s = .next { s with dec := { s.dec with dstate := .done }, result := 0x00 }) ∧
    (s.dec.stage ≠ .idle →
      (s.dec.stage.openField = true →
        s.dec.openRec = some r ∧ s.dec.catalog.length < s.cfg.catalogCap) →
      exec .decEnd s = .next { s with
        dec := { s.dec with
          catalog := truncatedCatalog r s.dec
          openRec := if s.dec.stage.openField = true then none else s.dec.openRec
          stage := .idle
          a1 := 0
          dstate := .done }
        result := 0x00 })

/-- R20 to R34, R50, R53, R63: every step keeps the legal values of the registers: cnt in 1..16, fieldEnd
within the track, a record under construction exactly in the open-field stages, the open field ending where
the track ends, every record inside the track, the capacities, the memory's canonical form, a legal RESULT. -/
def Obligations.StepKeepsInvariant : Prop :=
  ∀ s t : State, StateInv s → step s = .next t → StateInv t

/-- The invariant holds at power-on, for every choice of the parameters (R41, R220). -/
def Obligations.PowerOnMeetsInvariant : Prop :=
  (∀ c : Config.Params, StateInv (State.powerOn c)) ∧ StateInv State.reset

/-- R223, R69: while Done nothing but DEC_START changes the decoder or its track; DEC_END and every fault
leave the decoder Done. -/
def Obligations.DoneTrackIsFinal : Prop :=
  ∀ (i : Instr) (s t : State), exec i s = .next t →
    (s.dec.dstate = .done → isDecStart i = false → t.dec = s.dec) ∧
    (i = .decEnd → t.dec.dstate = .done) ∧
    (t.result = 0x10 ∨ t.result = 0x11 → t.dec.dstate = .done)

/-- R3, R211: an instruction of one datapath writes no register of the other two. That it writes neither the
port nor a parameter is said of fields that are the model's own (log entries 1 and 2). -/
def Obligations.DatapathsShareNoRegister : Prop :=
  ∀ (i : Instr) (s t : State), exec i s = .next t →
    t.cfg = s.cfg ∧ t.port = s.port ∧
    (isDecoderInstr i = false → t.dec = s.dec) ∧
    (isEncoderInstr i = false → t.prev = s.prev ∧ t.cw = s.cw) ∧
    (isCrcInstr i = false → t.crcPort = s.crcPort)

/-- R211: instructions of two different datapaths commute, apart from RESULT. -/
def Obligations.DatapathInstrsCommute : Prop :=
  ∀ (i j : Instr) (s : State),
    (isDecoderInstr i ≠ isDecoderInstr j ∨ isEncoderInstr i ≠ isEncoderInstr j) →
    ∃ t u, runInstrs [i, j] s = .next t ∧ runInstrs [j, i] s = .next u ∧
      u = { t with result := u.result }

/-- R51, R160, R55: no instruction but DEC_START takes a byte or a record away, or changes a record or the
order of the records. -/
def Obligations.TrackOnlyGrows : Prop :=
  ∀ (i : Instr) (s t : State), isDecStart i = false → exec i s = .next t →
    s.dec.trackLen ≤ t.dec.trackLen ∧ s.dec.catalog <+: t.dec.catalog

/-- R33, R225, R160: no instruction but DEC_START rewrites a byte below fieldEnd or its sync bit, but for the
last byte of the track when it is an off-boundary C2, which an A1 may replace (R114, R226); and fieldEnd
never falls. -/
def Obligations.FieldBytesStable : Prop :=
  ∀ (i : Instr) (s t : State), isDecStart i = false → s.dec.fieldEnd ≤ s.dec.trackLen →
    exec i s = .next t →
    s.dec.fieldEnd ≤ t.dec.fieldEnd ∧
    ∀ n, n < s.dec.fieldEnd → (n + 1 < s.dec.trackLen ∨ s.dec.lastKind ≠ .c2off) →
      trackRead t.dec n = trackRead s.dec n ∧ syncRead t.dec n = syncRead s.dec n

/-- R20, R21: DEC_BIT that takes effect advances pos by 1 and DEC_BYTE by 8; nothing else but DEC_START
changes pos, recover or preserve. -/
def Obligations.PosCountsAndFlagsHold : Prop :=
  ∀ (i : Instr) (s t : State), exec i s = .next t →
    (isDecStart i = false → t.dec.recover = s.dec.recover ∧ t.dec.preserve = s.dec.preserve) ∧
    (t.result ≠ 0x00 → t.dec.pos = s.dec.pos) ∧
    (t.result = 0x00 → ∀ b, i = .decBit b → t.dec.pos = s.dec.pos + 1) ∧
    (t.result = 0x00 → ∀ x, i = .decByte x → t.dec.pos = s.dec.pos + 8) ∧
    (isDecStart i = false → (∀ b, i ≠ .decBit b) → (∀ x, i ≠ .decByte x) → t.dec.pos = s.dec.pos)

/-- R52: the packed sync bitmap. -/
def Obligations.PackedSyncBitmap : Prop :=
  ∀ d : Decoder,
    (syncBitmap d).length = (d.trackLen + 7) / 8 ∧
    ∀ (j : Nat) (h : j < (syncBitmap d).length) (n : Fin 8),
      ((syncBitmap d)[j]'h).getLsbD n.val =
        (if 8 * j + n.val < d.trackLen then syncRead d (8 * j + n.val) else false)

/-- R54: the four words of a record's read-out. -/
def Obligations.RecordReadout : Prop :=
  ∀ r : SectorRecord,
    (recordWords r).word0.extractLsb' 0 2 =
      (match r.kind with | .idField => 0 | .dataField => 1 | .unknown => 2 : BitVec 2) ∧
    (recordWords r).word0.extractLsb' 2 2 =
      (match r.crcStatus with | .ok => 0 | .bad => 1 | .incomplete => 2 : BitVec 2) ∧
    (recordWords r).word0.extractLsb' 4 4 = (0 : BitVec 4) ∧
    (recordWords r).word0.extractLsb' 8 8 = r.markByte ∧
    (recordWords r).word0.extractLsb' 16 8 = r.cylinder ∧
    (recordWords r).word0.extractLsb' 24 8 = r.side ∧
    (recordWords r).word1.extractLsb' 0 8 = r.sector ∧
    (recordWords r).word1.extractLsb' 8 24 = (0 : BitVec 24) ∧
    (r.offset < 2 ^ 32 → (recordWords r).word2.toNat = r.offset) ∧
    (r.length < 2 ^ 32 → (recordWords r).word3.toNat = r.length)

/-- R88: the read ports, and 0 for an index out of range. That a record out of range reads as four zero words
is the model's reading (DEDUCED, log entry 12). -/
def Obligations.ReadPorts : Prop :=
  ∀ s : State,
    readTrackLen s = s.dec.trackLen ∧
    (∀ n, readTrackByte n s = if n < s.dec.trackLen then trackRead s.dec n else 0) ∧
    (∀ n, readTrackSync n s = if n < s.dec.trackLen then syncRead s.dec n else false) ∧
    (∀ j, readTrackCtl j s = (syncBitmap s.dec).getD j 0) ∧
    readCatLen s = s.dec.catalog.length ∧
    (∀ (n : Nat) (h : n < s.dec.catalog.length),
      readCatRec n s = recordWords (s.dec.catalog[n]'h)) ∧
    (∀ n, s.dec.catalog.length ≤ n → readCatRec n s = ⟨0, 0, 0, 0⟩) ∧
    (s.dec.dstate = .active → readDecState s = 0) ∧ (s.dec.dstate = .done → readDecState s = 1) ∧
    readEncCw s = s.cw ∧ readEncPrev s = s.prev ∧ readCrcValue s = s.crcPort ∧ readResult s = s.result

/-- R210, R68: a step of one instance leaves every other instance alone and is a step of that instance
alone, and steps of two instances may be taken in either order. That the instances are a list of states, and
that a step of a member that does not exist does nothing, are the model's choices (log entry 14). -/
def Obligations.InstancesIndependent : Prop :=
  (∀ (k : Nat) (bs cs : List State), stepInstance k bs = .next cs →
    cs.length = bs.length ∧ (∀ j, j ≠ k → cs[j]? = bs[j]?) ∧
    ∀ s, bs[k]? = some s → ∃ t, step s = .next t ∧ cs[k]? = some t) ∧
  ∀ (j k : Nat) (bs : List State), j ≠ k →
    ∃ bj bk bjk, stepInstance j bs = .next bj ∧ stepInstance k bs = .next bk ∧
      stepInstance k bj = .next bjk ∧ stepInstance j bk = .next bjk
end

