-- ==== Sys2Proof/Laws/Decode.lean ====
section
/-! SUPPORT. The parts of a command word, and the check of its reserved operand bits. -/

namespace Sys2Proof

/-- A command word is its opcode and its operand (R80). -/
theorem commandWord_parts (w : Word) : commandWord (opcodeOf w) (operandOf w) = w := by
  refine BitVec.eq_of_getLsbD_eq fun i hi => ?_
  rw [commandWord, BitVec.getLsbD_append]
  by_cases h : i < 24
  · simp [h, operandOf]
  · have h1 : i - 24 < 8 := by omega
    have h2 : 24 + (i - 24) = i := by omega
    simp [h, opcodeOf, h1, h2]

/-- The opcode of a word built from its parts (R80). -/
@[simp] theorem opcodeOf_commandWord (opcode : Byte) (operand : BitVec 24) :
    opcodeOf (commandWord opcode operand) = opcode := by
  refine BitVec.eq_of_getLsbD_eq fun i hi => ?_
  rw [opcodeOf, BitVec.getLsbD_extractLsb', commandWord, BitVec.getLsbD_append]
  have h1 : ¬ 24 + i < 24 := by omega
  have h2 : 24 + i - 24 = i := by omega
  simp [h1, h2, hi]

/-- The operand of a word built from its parts (R80). -/
@[simp] theorem operandOf_commandWord (opcode : Byte) (operand : BitVec 24) :
    operandOf (commandWord opcode operand) = operand := by
  refine BitVec.eq_of_getLsbD_eq fun i hi => ?_
  rw [operandOf, BitVec.getLsbD_extractLsb', commandWord, BitVec.getLsbD_append]
  simp [hi]

/-- What the reserved check lets through, and that the operand then fits the used bits (R86, R87). -/
theorem checkReserved_ok {used : Nat} {operand : BitVec 24} {i j : Instr} :
    checkReserved used operand i = .ok j ↔ operand >>> used = 0 ∧ j = i := by
  unfold checkReserved
  split <;> simp_all [eq_comm]

/-- What it refuses, and how (R86). -/
theorem checkReserved_error {used : Nat} {operand : BitVec 24} {i : Instr} {r : RefuseReason} :
    checkReserved used operand i = .error r ↔ operand >>> used ≠ 0 ∧ r = .reservedOperand := by
  unfold checkReserved
  split <;> simp_all [eq_comm]

end Sys2Proof
end

