-- ==== Sys2Proof/Laws/State.lean ====
section
/-! SUPPORT. One lemma per field per update, true by unfolding the update once, so that no later proof
unfolds a record update. -/

namespace Sys2Proof.Machine

open Sys2Proof.Config

/-! ### accept -/

@[simp] theorem accept_cfg (s : State) : (accept s).cfg = s.cfg := rfl
@[simp] theorem accept_dec (s : State) : (accept s).dec = s.dec := rfl
@[simp] theorem accept_prev (s : State) : (accept s).prev = s.prev := rfl
@[simp] theorem accept_cw (s : State) : (accept s).cw = s.cw := rfl
@[simp] theorem accept_crcPort (s : State) : (accept s).crcPort = s.crcPort := rfl
@[simp] theorem accept_result (s : State) : (accept s).result = okCode := rfl
@[simp] theorem accept_port (s : State) : (accept s).port = s.port := rfl

/-! ### refuse -/

@[simp] theorem refuse_cfg (r : RefuseReason) (s : State) : (refuse r s).cfg = s.cfg := rfl
@[simp] theorem refuse_dec (r : RefuseReason) (s : State) : (refuse r s).dec = s.dec := rfl
@[simp] theorem refuse_prev (r : RefuseReason) (s : State) : (refuse r s).prev = s.prev := rfl
@[simp] theorem refuse_cw (r : RefuseReason) (s : State) : (refuse r s).cw = s.cw := rfl
@[simp] theorem refuse_crcPort (r : RefuseReason) (s : State) : (refuse r s).crcPort = s.crcPort := rfl
@[simp] theorem refuse_result (r : RefuseReason) (s : State) : (refuse r s).result = refuseCode r := rfl
@[simp] theorem refuse_port (r : RefuseReason) (s : State) : (refuse r s).port = s.port := rfl

/-! ### raiseFault -/

@[simp] theorem raiseFault_cfg (f : Fault) (s : State) : (raiseFault f s).cfg = s.cfg := rfl
@[simp] theorem raiseFault_dec (f : Fault) (s : State) : (raiseFault f s).dec = { s.dec with dstate := .done } := rfl
@[simp] theorem raiseFault_prev (f : Fault) (s : State) : (raiseFault f s).prev = s.prev := rfl
@[simp] theorem raiseFault_cw (f : Fault) (s : State) : (raiseFault f s).cw = s.cw := rfl
@[simp] theorem raiseFault_crcPort (f : Fault) (s : State) : (raiseFault f s).crcPort = s.crcPort := rfl
@[simp] theorem raiseFault_result (f : Fault) (s : State) : (raiseFault f s).result = faultCode f := rfl
@[simp] theorem raiseFault_port (f : Fault) (s : State) : (raiseFault f s).port = s.port := rfl

/-! ### emitCodeword -/

@[simp] theorem emitCodeword_cfg (w : Half) (s : State) : (emitCodeword w s).cfg = s.cfg := rfl
@[simp] theorem emitCodeword_dec (w : Half) (s : State) : (emitCodeword w s).dec = s.dec := rfl
@[simp] theorem emitCodeword_prev (w : Half) (s : State) : (emitCodeword w s).prev = w.getLsbD 15 := rfl
@[simp] theorem emitCodeword_cw (w : Half) (s : State) : (emitCodeword w s).cw = w := rfl
@[simp] theorem emitCodeword_crcPort (w : Half) (s : State) : (emitCodeword w s).crcPort = s.crcPort := rfl
@[simp] theorem emitCodeword_result (w : Half) (s : State) : (emitCodeword w s).result = s.result := rfl
@[simp] theorem emitCodeword_port (w : Half) (s : State) : (emitCodeword w s).port = s.port := rfl

/-! ### State.issue -/

@[simp] theorem State.issue_cfg (w : Word) (s : State) : (s.issue w).cfg = s.cfg := rfl
@[simp] theorem State.issue_dec (w : Word) (s : State) : (s.issue w).dec = s.dec := rfl
@[simp] theorem State.issue_prev (w : Word) (s : State) : (s.issue w).prev = s.prev := rfl
@[simp] theorem State.issue_cw (w : Word) (s : State) : (s.issue w).cw = s.cw := rfl
@[simp] theorem State.issue_crcPort (w : Word) (s : State) : (s.issue w).crcPort = s.crcPort := rfl
@[simp] theorem State.issue_result (w : Word) (s : State) : (s.issue w).result = s.result := rfl
@[simp] theorem State.issue_port (w : Word) (s : State) : (s.issue w).port = s.port ++ [w] := rfl

/-! ### issueFirst -/

@[simp] theorem issueFirst_cfg (w : Word) (s : State) : (issueFirst w s).cfg = s.cfg := rfl
@[simp] theorem issueFirst_dec (w : Word) (s : State) : (issueFirst w s).dec = s.dec := rfl
@[simp] theorem issueFirst_prev (w : Word) (s : State) : (issueFirst w s).prev = s.prev := rfl
@[simp] theorem issueFirst_cw (w : Word) (s : State) : (issueFirst w s).cw = s.cw := rfl
@[simp] theorem issueFirst_crcPort (w : Word) (s : State) : (issueFirst w s).crcPort = s.crcPort := rfl
@[simp] theorem issueFirst_result (w : Word) (s : State) : (issueFirst w s).result = s.result := rfl
@[simp] theorem issueFirst_port (w : Word) (s : State) : (issueFirst w s).port = w :: s.port := rfl

/-! ### trackAppend -/

@[simp] theorem trackAppend_recover (v : Byte) (s : Bool) (d : Decoder) :
    (trackAppend v s d).recover = d.recover := rfl
@[simp] theorem trackAppend_preserve (v : Byte) (s : Bool) (d : Decoder) :
    (trackAppend v s d).preserve = d.preserve := rfl
@[simp] theorem trackAppend_dstate (v : Byte) (s : Bool) (d : Decoder) :
    (trackAppend v s d).dstate = d.dstate := rfl
@[simp] theorem trackAppend_pos (v : Byte) (s : Bool) (d : Decoder) : (trackAppend v s d).pos = d.pos := rfl
@[simp] theorem trackAppend_window (v : Byte) (s : Bool) (d : Decoder) :
    (trackAppend v s d).window = d.window := rfl
@[simp] theorem trackAppend_cnt (v : Byte) (s : Bool) (d : Decoder) : (trackAppend v s d).cnt = d.cnt := rfl
@[simp] theorem trackAppend_lastKind (v : Byte) (s : Bool) (d : Decoder) :
    (trackAppend v s d).lastKind = d.lastKind := rfl
@[simp] theorem trackAppend_a1 (v : Byte) (s : Bool) (d : Decoder) : (trackAppend v s d).a1 = d.a1 := rfl
@[simp] theorem trackAppend_crc (v : Byte) (s : Bool) (d : Decoder) : (trackAppend v s d).crc = d.crc := rfl
@[simp] theorem trackAppend_stage (v : Byte) (s : Bool) (d : Decoder) :
    (trackAppend v s d).stage = d.stage := rfl
@[simp] theorem trackAppend_crcHi (v : Byte) (s : Bool) (d : Decoder) :
    (trackAppend v s d).crcHi = d.crcHi := rfl
@[simp] theorem trackAppend_idBuf (v : Byte) (s : Bool) (d : Decoder) :
    (trackAppend v s d).idBuf = d.idBuf := rfl
@[simp] theorem trackAppend_curCyl (v : Byte) (s : Bool) (d : Decoder) :
    (trackAppend v s d).curCyl = d.curCyl := rfl
@[simp] theorem trackAppend_curSide (v : Byte) (s : Bool) (d : Decoder) :
    (trackAppend v s d).curSide = d.curSide := rfl
@[simp] theorem trackAppend_curSector (v : Byte) (s : Bool) (d : Decoder) :
    (trackAppend v s d).curSector = d.curSector := rfl
@[simp] theorem trackAppend_curSize (v : Byte) (s : Bool) (d : Decoder) :
    (trackAppend v s d).curSize = d.curSize := rfl
@[simp] theorem trackAppend_lenKnown (v : Byte) (s : Bool) (d : Decoder) :
    (trackAppend v s d).lenKnown = d.lenKnown := rfl
@[simp] theorem trackAppend_openRec (v : Byte) (s : Bool) (d : Decoder) :
    (trackAppend v s d).openRec = d.openRec := rfl
@[simp] theorem trackAppend_fieldEnd (v : Byte) (s : Bool) (d : Decoder) :
    (trackAppend v s d).fieldEnd = d.fieldEnd := rfl
@[simp] theorem trackAppend_hBuf (v : Byte) (s : Bool) (d : Decoder) :
    (trackAppend v s d).hBuf = d.hBuf := rfl
@[simp] theorem trackAppend_hOff (v : Byte) (s : Bool) (d : Decoder) :
    (trackAppend v s d).hOff = d.hOff := rfl
@[simp] theorem trackAppend_fold (v : Byte) (s : Bool) (d : Decoder) :
    (trackAppend v s d).fold = d.fold := rfl
@[simp] theorem trackAppend_trackLen (v : Byte) (s : Bool) (d : Decoder) :
    (trackAppend v s d).trackLen = d.trackLen + 1 := rfl
@[simp] theorem trackAppend_bytes (v : Byte) (s : Bool) (d : Decoder) :
    (trackAppend v s d).bytes = d.bytes.write d.trackLen v := rfl
@[simp] theorem trackAppend_syncBits (v : Byte) (s : Bool) (d : Decoder) :
    (trackAppend v s d).syncBits = d.syncBits.write d.trackLen s := rfl
@[simp] theorem trackAppend_catalog (v : Byte) (s : Bool) (d : Decoder) :
    (trackAppend v s d).catalog = d.catalog := rfl

/-! ### catAppend -/

@[simp] theorem catAppend_recover (r : SectorRecord) (d : Decoder) :
    (catAppend r d).recover = d.recover := rfl
@[simp] theorem catAppend_preserve (r : SectorRecord) (d : Decoder) :
    (catAppend r d).preserve = d.preserve := rfl
@[simp] theorem catAppend_dstate (r : SectorRecord) (d : Decoder) : (catAppend r d).dstate = d.dstate := rfl
@[simp] theorem catAppend_pos (r : SectorRecord) (d : Decoder) : (catAppend r d).pos = d.pos := rfl
@[simp] theorem catAppend_window (r : SectorRecord) (d : Decoder) : (catAppend r d).window = d.window := rfl
@[simp] theorem catAppend_cnt (r : SectorRecord) (d : Decoder) : (catAppend r d).cnt = d.cnt := rfl
@[simp] theorem catAppend_lastKind (r : SectorRecord) (d : Decoder) :
    (catAppend r d).lastKind = d.lastKind := rfl
@[simp] theorem catAppend_a1 (r : SectorRecord) (d : Decoder) : (catAppend r d).a1 = d.a1 := rfl
@[simp] theorem catAppend_crc (r : SectorRecord) (d : Decoder) : (catAppend r d).crc = d.crc := rfl
@[simp] theorem catAppend_stage (r : SectorRecord) (d : Decoder) : (catAppend r d).stage = d.stage := rfl
@[simp] theorem catAppend_crcHi (r : SectorRecord) (d : Decoder) : (catAppend r d).crcHi = d.crcHi := rfl
@[simp] theorem catAppend_idBuf (r : SectorRecord) (d : Decoder) : (catAppend r d).idBuf = d.idBuf := rfl
@[simp] theorem catAppend_curCyl (r : SectorRecord) (d : Decoder) : (catAppend r d).curCyl = d.curCyl := rfl
@[simp] theorem catAppend_curSide (r : SectorRecord) (d : Decoder) :
    (catAppend r d).curSide = d.curSide := rfl
@[simp] theorem catAppend_curSector (r : SectorRecord) (d : Decoder) :
    (catAppend r d).curSector = d.curSector := rfl
@[simp] theorem catAppend_curSize (r : SectorRecord) (d : Decoder) :
    (catAppend r d).curSize = d.curSize := rfl
@[simp] theorem catAppend_lenKnown (r : SectorRecord) (d : Decoder) :
    (catAppend r d).lenKnown = d.lenKnown := rfl
@[simp] theorem catAppend_openRec (r : SectorRecord) (d : Decoder) :
    (catAppend r d).openRec = d.openRec := rfl
@[simp] theorem catAppend_fieldEnd (r : SectorRecord) (d : Decoder) :
    (catAppend r d).fieldEnd = d.fieldEnd := rfl
@[simp] theorem catAppend_hBuf (r : SectorRecord) (d : Decoder) : (catAppend r d).hBuf = d.hBuf := rfl
@[simp] theorem catAppend_hOff (r : SectorRecord) (d : Decoder) : (catAppend r d).hOff = d.hOff := rfl
@[simp] theorem catAppend_fold (r : SectorRecord) (d : Decoder) : (catAppend r d).fold = d.fold := rfl
@[simp] theorem catAppend_trackLen (r : SectorRecord) (d : Decoder) :
    (catAppend r d).trackLen = d.trackLen := rfl
@[simp] theorem catAppend_bytes (r : SectorRecord) (d : Decoder) : (catAppend r d).bytes = d.bytes := rfl
@[simp] theorem catAppend_syncBits (r : SectorRecord) (d : Decoder) :
    (catAppend r d).syncBits = d.syncBits := rfl
@[simp] theorem catAppend_catalog (r : SectorRecord) (d : Decoder) :
    (catAppend r d).catalog = d.catalog ++ [r] := rfl

/-! ### restart -/

@[simp] theorem restart_recover (d : Decoder) : (restart d).recover = d.recover := rfl
@[simp] theorem restart_preserve (d : Decoder) : (restart d).preserve = d.preserve := rfl
@[simp] theorem restart_dstate (d : Decoder) : (restart d).dstate = d.dstate := rfl
@[simp] theorem restart_pos (d : Decoder) : (restart d).pos = d.pos := rfl
@[simp] theorem restart_window (d : Decoder) : (restart d).window = d.window := rfl
@[simp] theorem restart_cnt (d : Decoder) : (restart d).cnt = windowBits := rfl
@[simp] theorem restart_lastKind (d : Decoder) : (restart d).lastKind = d.lastKind := rfl
@[simp] theorem restart_a1 (d : Decoder) : (restart d).a1 = d.a1 := rfl
@[simp] theorem restart_crc (d : Decoder) : (restart d).crc = d.crc := rfl
@[simp] theorem restart_stage (d : Decoder) : (restart d).stage = d.stage := rfl
@[simp] theorem restart_crcHi (d : Decoder) : (restart d).crcHi = d.crcHi := rfl
@[simp] theorem restart_idBuf (d : Decoder) : (restart d).idBuf = d.idBuf := rfl
@[simp] theorem restart_curCyl (d : Decoder) : (restart d).curCyl = d.curCyl := rfl
@[simp] theorem restart_curSide (d : Decoder) : (restart d).curSide = d.curSide := rfl
@[simp] theorem restart_curSector (d : Decoder) : (restart d).curSector = d.curSector := rfl
@[simp] theorem restart_curSize (d : Decoder) : (restart d).curSize = d.curSize := rfl
@[simp] theorem restart_lenKnown (d : Decoder) : (restart d).lenKnown = d.lenKnown := rfl
@[simp] theorem restart_openRec (d : Decoder) : (restart d).openRec = d.openRec := rfl
@[simp] theorem restart_fieldEnd (d : Decoder) : (restart d).fieldEnd = d.fieldEnd := rfl
@[simp] theorem restart_hBuf (d : Decoder) : (restart d).hBuf = d.hBuf := rfl
@[simp] theorem restart_hOff (d : Decoder) : (restart d).hOff = d.hOff := rfl
@[simp] theorem restart_fold (d : Decoder) : (restart d).fold = d.fold := rfl
@[simp] theorem restart_trackLen (d : Decoder) : (restart d).trackLen = d.trackLen := rfl
@[simp] theorem restart_bytes (d : Decoder) : (restart d).bytes = d.bytes := rfl
@[simp] theorem restart_syncBits (d : Decoder) : (restart d).syncBits = d.syncBits := rfl
@[simp] theorem restart_catalog (d : Decoder) : (restart d).catalog = d.catalog := rfl

/-! ### shiftIn -/

@[simp] theorem shiftIn_recover (b : Bool) (d : Decoder) : (shiftIn b d).recover = d.recover := rfl
@[simp] theorem shiftIn_preserve (b : Bool) (d : Decoder) : (shiftIn b d).preserve = d.preserve := rfl
@[simp] theorem shiftIn_dstate (b : Bool) (d : Decoder) : (shiftIn b d).dstate = d.dstate := rfl
@[simp] theorem shiftIn_pos (b : Bool) (d : Decoder) : (shiftIn b d).pos = d.pos + 1 := rfl
@[simp] theorem shiftIn_window (b : Bool) (d : Decoder) :
    (shiftIn b d).window = (d.window >>> 1) ||| ((BitVec.ofBool b).setWidth 16 <<< 15) := rfl
@[simp] theorem shiftIn_cnt (b : Bool) (d : Decoder) : (shiftIn b d).cnt = d.cnt := rfl
@[simp] theorem shiftIn_lastKind (b : Bool) (d : Decoder) : (shiftIn b d).lastKind = d.lastKind := rfl
@[simp] theorem shiftIn_a1 (b : Bool) (d : Decoder) : (shiftIn b d).a1 = d.a1 := rfl
@[simp] theorem shiftIn_crc (b : Bool) (d : Decoder) : (shiftIn b d).crc = d.crc := rfl
@[simp] theorem shiftIn_stage (b : Bool) (d : Decoder) : (shiftIn b d).stage = d.stage := rfl
@[simp] theorem shiftIn_crcHi (b : Bool) (d : Decoder) : (shiftIn b d).crcHi = d.crcHi := rfl
@[simp] theorem shiftIn_idBuf (b : Bool) (d : Decoder) : (shiftIn b d).idBuf = d.idBuf := rfl
@[simp] theorem shiftIn_curCyl (b : Bool) (d : Decoder) : (shiftIn b d).curCyl = d.curCyl := rfl
@[simp] theorem shiftIn_curSide (b : Bool) (d : Decoder) : (shiftIn b d).curSide = d.curSide := rfl
@[simp] theorem shiftIn_curSector (b : Bool) (d : Decoder) : (shiftIn b d).curSector = d.curSector := rfl
@[simp] theorem shiftIn_curSize (b : Bool) (d : Decoder) : (shiftIn b d).curSize = d.curSize := rfl
@[simp] theorem shiftIn_lenKnown (b : Bool) (d : Decoder) : (shiftIn b d).lenKnown = d.lenKnown := rfl
@[simp] theorem shiftIn_openRec (b : Bool) (d : Decoder) : (shiftIn b d).openRec = d.openRec := rfl
@[simp] theorem shiftIn_fieldEnd (b : Bool) (d : Decoder) : (shiftIn b d).fieldEnd = d.fieldEnd := rfl
@[simp] theorem shiftIn_hBuf (b : Bool) (d : Decoder) : (shiftIn b d).hBuf = d.hBuf := rfl
@[simp] theorem shiftIn_hOff (b : Bool) (d : Decoder) : (shiftIn b d).hOff = d.hOff := rfl
@[simp] theorem shiftIn_fold (b : Bool) (d : Decoder) : (shiftIn b d).fold = d.fold := rfl
@[simp] theorem shiftIn_trackLen (b : Bool) (d : Decoder) : (shiftIn b d).trackLen = d.trackLen := rfl
@[simp] theorem shiftIn_bytes (b : Bool) (d : Decoder) : (shiftIn b d).bytes = d.bytes := rfl
@[simp] theorem shiftIn_syncBits (b : Bool) (d : Decoder) : (shiftIn b d).syncBits = d.syncBits := rfl
@[simp] theorem shiftIn_catalog (b : Bool) (d : Decoder) : (shiftIn b d).catalog = d.catalog := rfl

/-! ### countA1 -/

@[simp] theorem countA1_recover (d : Decoder) : (countA1 d).recover = d.recover := rfl
@[simp] theorem countA1_preserve (d : Decoder) : (countA1 d).preserve = d.preserve := rfl
@[simp] theorem countA1_dstate (d : Decoder) : (countA1 d).dstate = d.dstate := rfl
@[simp] theorem countA1_pos (d : Decoder) : (countA1 d).pos = d.pos := rfl
@[simp] theorem countA1_window (d : Decoder) : (countA1 d).window = d.window := rfl
@[simp] theorem countA1_cnt (d : Decoder) : (countA1 d).cnt = d.cnt := rfl
@[simp] theorem countA1_lastKind (d : Decoder) : (countA1 d).lastKind = d.lastKind := rfl
@[simp] theorem countA1_a1 (d : Decoder) : (countA1 d).a1 = d.a1 + 1 := rfl
@[simp] theorem countA1_crc (d : Decoder) :
    (countA1 d).crc = crcUpd (if d.a1 + 1 = 1 then crcSeed else d.crc) a1Byte := rfl
@[simp] theorem countA1_stage (d : Decoder) : (countA1 d).stage = d.stage := rfl
@[simp] theorem countA1_crcHi (d : Decoder) : (countA1 d).crcHi = d.crcHi := rfl
@[simp] theorem countA1_idBuf (d : Decoder) : (countA1 d).idBuf = d.idBuf := rfl
@[simp] theorem countA1_curCyl (d : Decoder) : (countA1 d).curCyl = d.curCyl := rfl
@[simp] theorem countA1_curSide (d : Decoder) : (countA1 d).curSide = d.curSide := rfl
@[simp] theorem countA1_curSector (d : Decoder) : (countA1 d).curSector = d.curSector := rfl
@[simp] theorem countA1_curSize (d : Decoder) : (countA1 d).curSize = d.curSize := rfl
@[simp] theorem countA1_lenKnown (d : Decoder) : (countA1 d).lenKnown = d.lenKnown := rfl
@[simp] theorem countA1_openRec (d : Decoder) : (countA1 d).openRec = d.openRec := rfl
@[simp] theorem countA1_fieldEnd (d : Decoder) : (countA1 d).fieldEnd = d.fieldEnd := rfl
@[simp] theorem countA1_hBuf (d : Decoder) : (countA1 d).hBuf = d.hBuf := rfl
@[simp] theorem countA1_hOff (d : Decoder) : (countA1 d).hOff = d.hOff := rfl
@[simp] theorem countA1_fold (d : Decoder) : (countA1 d).fold = d.fold := rfl
@[simp] theorem countA1_trackLen (d : Decoder) : (countA1 d).trackLen = d.trackLen := rfl
@[simp] theorem countA1_bytes (d : Decoder) : (countA1 d).bytes = d.bytes := rfl
@[simp] theorem countA1_syncBits (d : Decoder) : (countA1 d).syncBits = d.syncBits := rfl
@[simp] theorem countA1_catalog (d : Decoder) : (countA1 d).catalog = d.catalog := rfl

/-! ### trackWrite, syncWrite, trackRewrite: the fields they never change -/

@[simp] theorem trackWrite_recover (i : Nat) (v : Byte) (d : Decoder) : (trackWrite i v d).recover = d.recover := by
  unfold trackWrite; split <;> rfl
@[simp] theorem trackWrite_preserve (i : Nat) (v : Byte) (d : Decoder) : (trackWrite i v d).preserve = d.preserve := by
  unfold trackWrite; split <;> rfl
@[simp] theorem trackWrite_dstate (i : Nat) (v : Byte) (d : Decoder) : (trackWrite i v d).dstate = d.dstate := by
  unfold trackWrite; split <;> rfl
@[simp] theorem trackWrite_pos (i : Nat) (v : Byte) (d : Decoder) : (trackWrite i v d).pos = d.pos := by
  unfold trackWrite; split <;> rfl
@[simp] theorem trackWrite_window (i : Nat) (v : Byte) (d : Decoder) : (trackWrite i v d).window = d.window := by
  unfold trackWrite; split <;> rfl
@[simp] theorem trackWrite_cnt (i : Nat) (v : Byte) (d : Decoder) : (trackWrite i v d).cnt = d.cnt := by
  unfold trackWrite; split <;> rfl
@[simp] theorem trackWrite_lastKind (i : Nat) (v : Byte) (d : Decoder) : (trackWrite i v d).lastKind = d.lastKind := by
  unfold trackWrite; split <;> rfl
@[simp] theorem trackWrite_a1 (i : Nat) (v : Byte) (d : Decoder) : (trackWrite i v d).a1 = d.a1 := by
  unfold trackWrite; split <;> rfl
@[simp] theorem trackWrite_crc (i : Nat) (v : Byte) (d : Decoder) : (trackWrite i v d).crc = d.crc := by
  unfold trackWrite; split <;> rfl
@[simp] theorem trackWrite_stage (i : Nat) (v : Byte) (d : Decoder) : (trackWrite i v d).stage = d.stage := by
  unfold trackWrite; split <;> rfl
@[simp] theorem trackWrite_crcHi (i : Nat) (v : Byte) (d : Decoder) : (trackWrite i v d).crcHi = d.crcHi := by
  unfold trackWrite; split <;> rfl
@[simp] theorem trackWrite_idBuf (i : Nat) (v : Byte) (d : Decoder) : (trackWrite i v d).idBuf = d.idBuf := by
  unfold trackWrite; split <;> rfl
@[simp] theorem trackWrite_curCyl (i : Nat) (v : Byte) (d : Decoder) : (trackWrite i v d).curCyl = d.curCyl := by
  unfold trackWrite; split <;> rfl
@[simp] theorem trackWrite_curSide (i : Nat) (v : Byte) (d : Decoder) : (trackWrite i v d).curSide = d.curSide := by
  unfold trackWrite; split <;> rfl
@[simp] theorem trackWrite_curSector (i : Nat) (v : Byte) (d : Decoder) : (trackWrite i v d).curSector = d.curSector := by
  unfold trackWrite; split <;> rfl
@[simp] theorem trackWrite_curSize (i : Nat) (v : Byte) (d : Decoder) : (trackWrite i v d).curSize = d.curSize := by
  unfold trackWrite; split <;> rfl
@[simp] theorem trackWrite_lenKnown (i : Nat) (v : Byte) (d : Decoder) : (trackWrite i v d).lenKnown = d.lenKnown := by
  unfold trackWrite; split <;> rfl
@[simp] theorem trackWrite_openRec (i : Nat) (v : Byte) (d : Decoder) : (trackWrite i v d).openRec = d.openRec := by
  unfold trackWrite; split <;> rfl
@[simp] theorem trackWrite_fieldEnd (i : Nat) (v : Byte) (d : Decoder) : (trackWrite i v d).fieldEnd = d.fieldEnd := by
  unfold trackWrite; split <;> rfl
@[simp] theorem trackWrite_hBuf (i : Nat) (v : Byte) (d : Decoder) : (trackWrite i v d).hBuf = d.hBuf := by
  unfold trackWrite; split <;> rfl
@[simp] theorem trackWrite_hOff (i : Nat) (v : Byte) (d : Decoder) : (trackWrite i v d).hOff = d.hOff := by
  unfold trackWrite; split <;> rfl
@[simp] theorem trackWrite_fold (i : Nat) (v : Byte) (d : Decoder) : (trackWrite i v d).fold = d.fold := by
  unfold trackWrite; split <;> rfl
@[simp] theorem trackWrite_trackLen (i : Nat) (v : Byte) (d : Decoder) : (trackWrite i v d).trackLen = d.trackLen := by
  unfold trackWrite; split <;> rfl
@[simp] theorem trackWrite_syncBits (i : Nat) (v : Byte) (d : Decoder) : (trackWrite i v d).syncBits = d.syncBits := by
  unfold trackWrite; split <;> rfl
@[simp] theorem trackWrite_catalog (i : Nat) (v : Byte) (d : Decoder) : (trackWrite i v d).catalog = d.catalog := by
  unfold trackWrite; split <;> rfl
@[simp] theorem syncWrite_recover (i : Nat) (s : Bool) (d : Decoder) : (syncWrite i s d).recover = d.recover := by
  unfold syncWrite; split <;> rfl
@[simp] theorem syncWrite_preserve (i : Nat) (s : Bool) (d : Decoder) : (syncWrite i s d).preserve = d.preserve := by
  unfold syncWrite; split <;> rfl
@[simp] theorem syncWrite_dstate (i : Nat) (s : Bool) (d : Decoder) : (syncWrite i s d).dstate = d.dstate := by
  unfold syncWrite; split <;> rfl
@[simp] theorem syncWrite_pos (i : Nat) (s : Bool) (d : Decoder) : (syncWrite i s d).pos = d.pos := by
  unfold syncWrite; split <;> rfl
@[simp] theorem syncWrite_window (i : Nat) (s : Bool) (d : Decoder) : (syncWrite i s d).window = d.window := by
  unfold syncWrite; split <;> rfl
@[simp] theorem syncWrite_cnt (i : Nat) (s : Bool) (d : Decoder) : (syncWrite i s d).cnt = d.cnt := by
  unfold syncWrite; split <;> rfl
@[simp] theorem syncWrite_lastKind (i : Nat) (s : Bool) (d : Decoder) : (syncWrite i s d).lastKind = d.lastKind := by
  unfold syncWrite; split <;> rfl
@[simp] theorem syncWrite_a1 (i : Nat) (s : Bool) (d : Decoder) : (syncWrite i s d).a1 = d.a1 := by
  unfold syncWrite; split <;> rfl
@[simp] theorem syncWrite_crc (i : Nat) (s : Bool) (d : Decoder) : (syncWrite i s d).crc = d.crc := by
  unfold syncWrite; split <;> rfl
@[simp] theorem syncWrite_stage (i : Nat) (s : Bool) (d : Decoder) : (syncWrite i s d).stage = d.stage := by
  unfold syncWrite; split <;> rfl
@[simp] theorem syncWrite_crcHi (i : Nat) (s : Bool) (d : Decoder) : (syncWrite i s d).crcHi = d.crcHi := by
  unfold syncWrite; split <;> rfl
@[simp] theorem syncWrite_idBuf (i : Nat) (s : Bool) (d : Decoder) : (syncWrite i s d).idBuf = d.idBuf := by
  unfold syncWrite; split <;> rfl
@[simp] theorem syncWrite_curCyl (i : Nat) (s : Bool) (d : Decoder) : (syncWrite i s d).curCyl = d.curCyl := by
  unfold syncWrite; split <;> rfl
@[simp] theorem syncWrite_curSide (i : Nat) (s : Bool) (d : Decoder) : (syncWrite i s d).curSide = d.curSide := by
  unfold syncWrite; split <;> rfl
@[simp] theorem syncWrite_curSector (i : Nat) (s : Bool) (d : Decoder) : (syncWrite i s d).curSector = d.curSector := by
  unfold syncWrite; split <;> rfl
@[simp] theorem syncWrite_curSize (i : Nat) (s : Bool) (d : Decoder) : (syncWrite i s d).curSize = d.curSize := by
  unfold syncWrite; split <;> rfl
@[simp] theorem syncWrite_lenKnown (i : Nat) (s : Bool) (d : Decoder) : (syncWrite i s d).lenKnown = d.lenKnown := by
  unfold syncWrite; split <;> rfl
@[simp] theorem syncWrite_openRec (i : Nat) (s : Bool) (d : Decoder) : (syncWrite i s d).openRec = d.openRec := by
  unfold syncWrite; split <;> rfl
@[simp] theorem syncWrite_fieldEnd (i : Nat) (s : Bool) (d : Decoder) : (syncWrite i s d).fieldEnd = d.fieldEnd := by
  unfold syncWrite; split <;> rfl
@[simp] theorem syncWrite_hBuf (i : Nat) (s : Bool) (d : Decoder) : (syncWrite i s d).hBuf = d.hBuf := by
  unfold syncWrite; split <;> rfl
@[simp] theorem syncWrite_hOff (i : Nat) (s : Bool) (d : Decoder) : (syncWrite i s d).hOff = d.hOff := by
  unfold syncWrite; split <;> rfl
@[simp] theorem syncWrite_fold (i : Nat) (s : Bool) (d : Decoder) : (syncWrite i s d).fold = d.fold := by
  unfold syncWrite; split <;> rfl
@[simp] theorem syncWrite_trackLen (i : Nat) (s : Bool) (d : Decoder) : (syncWrite i s d).trackLen = d.trackLen := by
  unfold syncWrite; split <;> rfl
@[simp] theorem syncWrite_bytes (i : Nat) (s : Bool) (d : Decoder) : (syncWrite i s d).bytes = d.bytes := by
  unfold syncWrite; split <;> rfl
@[simp] theorem syncWrite_catalog (i : Nat) (s : Bool) (d : Decoder) : (syncWrite i s d).catalog = d.catalog := by
  unfold syncWrite; split <;> rfl
@[simp] theorem trackRewrite_recover (i : Nat) (v : Byte) (s : Bool) (d : Decoder) :
    (trackRewrite i v s d).recover = d.recover := by simp [trackRewrite]
@[simp] theorem trackRewrite_preserve (i : Nat) (v : Byte) (s : Bool) (d : Decoder) :
    (trackRewrite i v s d).preserve = d.preserve := by simp [trackRewrite]
@[simp] theorem trackRewrite_dstate (i : Nat) (v : Byte) (s : Bool) (d : Decoder) :
    (trackRewrite i v s d).dstate = d.dstate := by simp [trackRewrite]
@[simp] theorem trackRewrite_pos (i : Nat) (v : Byte) (s : Bool) (d : Decoder) :
    (trackRewrite i v s d).pos = d.pos := by simp [trackRewrite]
@[simp] theorem trackRewrite_window (i : Nat) (v : Byte) (s : Bool) (d : Decoder) :
    (trackRewrite i v s d).window = d.window := by simp [trackRewrite]
@[simp] theorem trackRewrite_cnt (i : Nat) (v : Byte) (s : Bool) (d : Decoder) :
    (trackRewrite i v s d).cnt = d.cnt := by simp [trackRewrite]
@[simp] theorem trackRewrite_lastKind (i : Nat) (v : Byte) (s : Bool) (d : Decoder) :
    (trackRewrite i v s d).lastKind = d.lastKind := by simp [trackRewrite]
@[simp] theorem trackRewrite_a1 (i : Nat) (v : Byte) (s : Bool) (d : Decoder) :
    (trackRewrite i v s d).a1 = d.a1 := by simp [trackRewrite]
@[simp] theorem trackRewrite_crc (i : Nat) (v : Byte) (s : Bool) (d : Decoder) :
    (trackRewrite i v s d).crc = d.crc := by simp [trackRewrite]
@[simp] theorem trackRewrite_stage (i : Nat) (v : Byte) (s : Bool) (d : Decoder) :
    (trackRewrite i v s d).stage = d.stage := by simp [trackRewrite]
@[simp] theorem trackRewrite_crcHi (i : Nat) (v : Byte) (s : Bool) (d : Decoder) :
    (trackRewrite i v s d).crcHi = d.crcHi := by simp [trackRewrite]
@[simp] theorem trackRewrite_idBuf (i : Nat) (v : Byte) (s : Bool) (d : Decoder) :
    (trackRewrite i v s d).idBuf = d.idBuf := by simp [trackRewrite]
@[simp] theorem trackRewrite_curCyl (i : Nat) (v : Byte) (s : Bool) (d : Decoder) :
    (trackRewrite i v s d).curCyl = d.curCyl := by simp [trackRewrite]
@[simp] theorem trackRewrite_curSide (i : Nat) (v : Byte) (s : Bool) (d : Decoder) :
    (trackRewrite i v s d).curSide = d.curSide := by simp [trackRewrite]
@[simp] theorem trackRewrite_curSector (i : Nat) (v : Byte) (s : Bool) (d : Decoder) :
    (trackRewrite i v s d).curSector = d.curSector := by simp [trackRewrite]
@[simp] theorem trackRewrite_curSize (i : Nat) (v : Byte) (s : Bool) (d : Decoder) :
    (trackRewrite i v s d).curSize = d.curSize := by simp [trackRewrite]
@[simp] theorem trackRewrite_lenKnown (i : Nat) (v : Byte) (s : Bool) (d : Decoder) :
    (trackRewrite i v s d).lenKnown = d.lenKnown := by simp [trackRewrite]
@[simp] theorem trackRewrite_openRec (i : Nat) (v : Byte) (s : Bool) (d : Decoder) :
    (trackRewrite i v s d).openRec = d.openRec := by simp [trackRewrite]
@[simp] theorem trackRewrite_fieldEnd (i : Nat) (v : Byte) (s : Bool) (d : Decoder) :
    (trackRewrite i v s d).fieldEnd = d.fieldEnd := by simp [trackRewrite]
@[simp] theorem trackRewrite_hBuf (i : Nat) (v : Byte) (s : Bool) (d : Decoder) :
    (trackRewrite i v s d).hBuf = d.hBuf := by simp [trackRewrite]
@[simp] theorem trackRewrite_hOff (i : Nat) (v : Byte) (s : Bool) (d : Decoder) :
    (trackRewrite i v s d).hOff = d.hOff := by simp [trackRewrite]
@[simp] theorem trackRewrite_fold (i : Nat) (v : Byte) (s : Bool) (d : Decoder) :
    (trackRewrite i v s d).fold = d.fold := by simp [trackRewrite]
@[simp] theorem trackRewrite_trackLen (i : Nat) (v : Byte) (s : Bool) (d : Decoder) :
    (trackRewrite i v s d).trackLen = d.trackLen := by simp [trackRewrite]
@[simp] theorem trackRewrite_catalog (i : Nat) (v : Byte) (s : Bool) (d : Decoder) :
    (trackRewrite i v s d).catalog = d.catalog := by simp [trackRewrite]

end Sys2Proof.Machine
end

