-- ==== Sys2Proof/Laws/Operands.lean ====
section
/-! SUPPORT. The bit fields: which bit of the value each bit of a field is. -/

namespace Sys2Proof.Machine

/-- Bit i of a value built from its bits. -/
@[simp] theorem ofBits_getLsbD (n : Nat) (f : Nat → Bool) (i : Nat) :
    (ofBits n f).getLsbD i = (decide (i < n) && f i) := by
  induction n with
  | zero => simp [ofBits]
  | succ n ih =>
    rw [ofBits, BitVec.getLsbD_cons, ih]
    split
    · subst_vars; simp
    · rename_i h
      have e : (i < n + 1) ↔ (i < n) := by omega
      simp [e]

/-- rev16 reverses the 16 bits (R12). -/
theorem rev16_getLsbD (v : Half) {i : Nat} (h : i < 16) : (rev16 v).getLsbD i = v.getLsbD (15 - i) := by
  rw [rev16, ofBits_getLsbD, decide_eq_true h, Bool.true_and]

/-- Bit i of a demodulated byte is a data bit of the window (R106). -/
theorem demod_getLsbD (w : Half) {i : Nat} (h : i < 8) :
    (demod w).getLsbD i = w.getLsbD (2 * (7 - i) + 1) := by
  rw [demod, ofBits_getLsbD, decide_eq_true h, Bool.true_and]

/-- The odd bits of an info word come from the odd plane, the even bits from the even plane (R176). -/
theorem interleave_getLsbD (odd even : Half) {i : Nat} (h : i < 16) :
    (interleave odd even).getLsbD (2 * i + 1) = odd.getLsbD i ∧
      (interleave odd even).getLsbD (2 * i) = even.getLsbD i := by
  have h1 : 2 * i + 1 < 32 := by omega
  have h2 : 2 * i < 32 := by omega
  have h3 : (2 * i + 1) / 2 = i := by omega
  have h4 : (2 * i + 1) % 2 = 1 := by omega
  have h5 : ¬ 2 * i % 2 = 1 := by omega
  have h6 : 2 * i / 2 = i := by omega
  rw [interleave, ofBits_getLsbD, ofBits_getLsbD, decide_eq_true h1, decide_eq_true h2, if_pos h4,
    if_neg h5, h3, h6, Bool.true_and, Bool.true_and]
  exact ⟨rfl, rfl⟩

/-- The window that the mark placement uses demodulates to its byte (log entry 15). -/
theorem demod_dataBitsWindow (v : Byte) : demod (dataBitsWindow v) = v := by
  refine BitVec.eq_of_getLsbD_eq fun i hi => ?_
  have h1 : 2 * (7 - i) + 1 < 16 := by omega
  have h2 : (2 * (7 - i) + 1) % 2 = 1 := by omega
  have h3 : 7 - (2 * (7 - i) + 1) / 2 = i := by omega
  rw [demod_getLsbD _ hi, dataBitsWindow, ofBits_getLsbD, h2, h3]
  simp [h1]

/-- Priming a window and shifting in its newest bit gives the window (log entry 15). -/
theorem shiftIn_primeWindow (w : Half) (d : Decoder) :
    (shiftIn (w.getLsbD 15) (primeWindow w d)).window = w := by
  refine BitVec.eq_of_getLsbD_eq fun i hi => ?_
  simp only [shiftIn_window, primeWindow, BitVec.getLsbD_or, BitVec.getLsbD_ushiftRight,
    BitVec.getLsbD_shiftLeft, BitVec.getLsbD_setWidth, BitVec.getLsbD_ofBool]
  by_cases h : i = 15
  · subst h; simp
  · have h1 : 1 + i < 16 := by omega
    have h2 : ¬ (15 ≤ i) := by omega
    simp [h1, h2, hi]

end Sys2Proof.Machine
end

