-- ==== Sys2Proof/Laws/Memory.lean ====
section
/-! SUPPORT. The sparse memories: a read after a write, what a write leaves alone, and that every write keeps
the canonical form. -/

namespace Sys2Proof.Machine

variable {α : Type}

/-! ### Reads after writes -/

theorem cellsRead_insert (u v : α) (a b : Nat) (m : Cells α) :
    cellsRead u b (cellsInsert a v m) = if b = a then v else cellsRead u b m := by
  induction m with
  | nil => simp [cellsInsert, cellsRead, eq_comm]
  | cons e rest ih =>
    unfold cellsInsert
    split
    · simp [cellsRead, eq_comm]
    · split <;> simp only [cellsRead, ih] <;> split_ifs <;> first | rfl | omega

theorem cellsRead_erase (u : α) (a b : Nat) (m : Cells α) :
    cellsRead u b (cellsErase a m) = if b = a then u else cellsRead u b m := by
  induction m with
  | nil => simp [cellsErase, cellsRead]
  | cons e rest ih =>
    simp only [cellsErase] at ih
    simp only [cellsErase, List.filter_cons]
    split <;> simp only [cellsRead, ih] <;> split_ifs <;> simp_all

/-- A read after a write: the written value at the written index, the old value elsewhere. -/
theorem cellsRead_write [DecidableEq α] (u v : α) (a b : Nat) (m : Cells α) :
    cellsRead u b (cellsWrite u a v m) = if b = a then v else cellsRead u b m := by
  unfold cellsWrite
  split
  · simp_all [cellsRead_erase]
  · exact cellsRead_insert u v a b m

theorem Memory.read_write (m : Memory) (a b : Nat) (v : Byte) :
    (m.write a v).read b = if b = a then v else m.read b := cellsRead_write _ v a b m

theorem SyncMap.read_write (m : SyncMap) (a b : Nat) (s : Bool) :
    (m.write a s).read b = if b = a then s else m.read b := cellsRead_write _ s a b m

@[simp] theorem Memory.read_nil (a : Nat) : Memory.read [] a = 0 := rfl

@[simp] theorem SyncMap.read_nil (a : Nat) : SyncMap.read [] a = false := rfl

/-! ### The canonical form -/

theorem cellsWf_iff [DecidableEq α] (u : α) (m : Cells α) :
    cellsWf u m = true ↔ (m.Pairwise fun e f => e.1 < f.1) ∧ ∀ e ∈ m, e.2 ≠ u := by
  simp [cellsWf]

theorem mem_cellsInsert {a : Nat} {v : α} {m : Cells α} {e : Nat × α} (h : e ∈ cellsInsert a v m) :
    e = (a, v) ∨ e ∈ m := by
  induction m with
  | nil => simpa [cellsInsert] using h
  | cons f rest ih =>
    unfold cellsInsert at h
    split at h
    · simpa using h
    · split at h
      · rcases List.mem_cons.1 h with h | h
        · exact .inl h
        · exact .inr (List.mem_cons_of_mem _ h)
      · rcases List.mem_cons.1 h with h | h
        · exact .inr (h ▸ List.mem_cons_self)
        · exact (ih h).imp id (List.mem_cons_of_mem _)

theorem pairwise_cellsInsert (a : Nat) (v : α) (m : Cells α) (h : m.Pairwise fun e f => e.1 < f.1) :
    (cellsInsert a v m).Pairwise fun e f => e.1 < f.1 := by
  induction m with
  | nil => simp [cellsInsert]
  | cons f rest ih =>
    obtain ⟨hf, hrest⟩ := List.pairwise_cons.1 h
    unfold cellsInsert
    split
    · rename_i hlt
      refine List.pairwise_cons.2 ⟨fun e he => ?_, h⟩
      rcases List.mem_cons.1 he with rfl | he
      · exact hlt
      · exact hlt.trans (hf e he)
    · split
      · rename_i heq
        exact List.pairwise_cons.2 ⟨fun e he => heq ▸ hf e he, hrest⟩
      · refine List.pairwise_cons.2 ⟨fun e he => ?_, ih hrest⟩
        rcases mem_cellsInsert he with rfl | he
        · show f.1 < a
          omega
        · exact hf e he

/-- An entry of a written memory is the written one or an old one. -/
theorem mem_cellsWrite [DecidableEq α] {u v : α} {a : Nat} {m : Cells α} {e : Nat × α}
    (h : e ∈ cellsWrite u a v m) : e = (a, v) ∨ e ∈ m := by
  unfold cellsWrite at h
  split at h
  · exact .inr (List.mem_of_mem_filter h)
  · exact mem_cellsInsert h

/-- A write keeps the canonical form. -/
theorem cellsWf_write [DecidableEq α] (u v : α) (a : Nat) (m : Cells α) (h : cellsWf u m = true) :
    cellsWf u (cellsWrite u a v m) = true := by
  obtain ⟨hp, hd⟩ := (cellsWf_iff u m).1 h
  refine (cellsWf_iff _ _).2 ⟨?_, ?_⟩
  · unfold cellsWrite
    split
    · exact hp.filter _
    · exact pairwise_cellsInsert a v m hp
  · intro e he
    unfold cellsWrite at he
    split at he
    · exact hd e (List.mem_of_mem_filter he)
    · rcases mem_cellsInsert he with rfl | he
      · assumption
      · exact hd e he

theorem Memory.wf_write (m : Memory) (a : Nat) (v : Byte) (h : m.wf = true) : (m.write a v).wf = true :=
  cellsWf_write _ v a m h

theorem SyncMap.wf_write (m : SyncMap) (a : Nat) (s : Bool) (h : m.wf = true) : (m.write a s).wf = true :=
  cellsWf_write _ s a m h

theorem Memory.wf_nil : Memory.wf [] = true := rfl

theorem SyncMap.wf_nil : SyncMap.wf [] = true := rfl

/-- The memories of the machine at reset are canonical. -/
theorem reset_memory_wf : State.reset.dec.bytes.wf = true ∧ State.reset.dec.syncBits.wf = true := by decide

/-- Two canonical memories that read alike at every index are equal. -/
theorem cells_ext [DecidableEq α] {u : α} {m n : Cells α} (hm : cellsWf u m = true) (hn : cellsWf u n = true)
    (h : ∀ a, cellsRead u a m = cellsRead u a n) : m = n := by
  induction m generalizing n with
  | nil =>
    cases n with
    | nil => rfl
    | cons e rest =>
      have := h e.1
      simp only [cellsRead, if_true] at this
      exact absurd this.symm (((cellsWf_iff _ _).1 hn).2 e List.mem_cons_self)
  | cons e rest ih =>
    obtain ⟨hp, hd⟩ := (cellsWf_iff _ _).1 hm
    obtain ⟨he, hrest⟩ := List.pairwise_cons.1 hp
    have below : ∀ (l : Cells α) (a : Nat), (∀ x ∈ l, a < x.1) → cellsRead u a l = u := by
      intro l a hl
      induction l with
      | nil => rfl
      | cons x l ihl =>
        have := hl x List.mem_cons_self
        simp only [cellsRead]
        rw [if_neg (by omega)]
        exact ihl fun y hy => hl y (List.mem_cons_of_mem _ hy)
    cases n with
    | nil =>
      have := h e.1
      simp only [cellsRead, if_true] at this
      exact absurd this (hd e List.mem_cons_self)
    | cons f rest' =>
      obtain ⟨hp', hd'⟩ := (cellsWf_iff _ _).1 hn
      obtain ⟨hf, hrest'⟩ := List.pairwise_cons.1 hp'
      have h1 : e.1 = f.1 := by
        rcases Nat.lt_trichotomy e.1 f.1 with hlt | heq | hgt
        · have := h e.1
          rw [below (f :: rest') e.1 (by
            intro x hx
            rcases List.mem_cons.1 hx with rfl | hx
            · exact hlt
            · exact hlt.trans (hf x hx))] at this
          simp only [cellsRead, if_true] at this
          exact absurd this (hd e List.mem_cons_self)
        · exact heq
        · have := h f.1
          rw [below (e :: rest) f.1 (by
            intro x hx
            rcases List.mem_cons.1 hx with rfl | hx
            · exact hgt
            · exact hgt.trans (he x hx))] at this
          simp only [cellsRead, if_true] at this
          exact absurd this.symm (hd' f List.mem_cons_self)
      have h2 : e.2 = f.2 := by simpa [cellsRead, h1] using h e.1
      have h3 : rest = rest' := by
        refine ih ((cellsWf_iff _ _).2 ⟨hrest, fun x hx => hd x (List.mem_cons_of_mem _ hx)⟩)
          ((cellsWf_iff _ _).2 ⟨hrest', fun x hx => hd' x (List.mem_cons_of_mem _ hx)⟩) fun a => ?_
        have ha := h a
        simp only [cellsRead] at ha
        by_cases hea : e.1 = a
        · rw [below rest a (fun x hx => hea ▸ he x hx), below rest' a (fun x hx => hea ▸ h1 ▸ hf x hx)]
        · rwa [if_neg hea, if_neg (h1 ▸ hea)] at ha
      rw [Prod.ext h1 h2, h3]

end Sys2Proof.Machine
end

