-- ==== Sys2Proof/Laws/Track.lean ====
section
/-! SUPPORT. The Decoded Track primitives and the closing of a record: what each can do, said once. -/

namespace Sys2Proof.Machine

open Sys2Proof.Config

/-- A chained operation succeeds exactly when both parts do. -/
theorem bind_ok {ε α β : Type} {e : Except ε α} {f : α → Except ε β} {b : β} :
    e.bind f = .ok b ↔ ∃ a, e = .ok a ∧ f a = .ok b := by
  cases e <;> simp [Except.bind]

/-! ### Reads after the track's writes -/

theorem trackRead_append (v : Byte) (s : Bool) (d : Decoder) (i : Nat) :
    trackRead (trackAppend v s d) i = if i = d.trackLen then v else trackRead d i :=
  Memory.read_write d.bytes d.trackLen i v

theorem syncRead_append (v : Byte) (s : Bool) (d : Decoder) (i : Nat) :
    syncRead (trackAppend v s d) i = if i = d.trackLen then s else syncRead d i :=
  SyncMap.read_write d.syncBits d.trackLen i s

theorem trackRewrite_bytes (q : Nat) (v : Byte) (s : Bool) (d : Decoder) :
    (trackRewrite q v s d).bytes = if q < d.trackLen then d.bytes.write q v else d.bytes := by
  unfold trackRewrite syncWrite trackWrite
  split_ifs <;> rfl

theorem trackRewrite_syncBits (q : Nat) (v : Byte) (s : Bool) (d : Decoder) :
    (trackRewrite q v s d).syncBits = if q < d.trackLen then d.syncBits.write q s else d.syncBits := by
  unfold trackRewrite syncWrite trackWrite
  split_ifs <;> rfl

theorem trackRead_rewrite (q : Nat) (v : Byte) (s : Bool) (d : Decoder) (i : Nat) :
    trackRead (trackRewrite q v s d) i = if i = q ∧ q < d.trackLen then v else trackRead d i := by
  unfold trackRead
  rw [trackRewrite_bytes]
  split_ifs <;> simp_all [Memory.read_write]

theorem syncRead_rewrite (q : Nat) (v : Byte) (s : Bool) (d : Decoder) (i : Nat) :
    syncRead (trackRewrite q v s d) i = if i = q ∧ q < d.trackLen then s else syncRead d i := by
  unfold syncRead
  rw [trackRewrite_syncBits]
  split_ifs <;> simp_all [SyncMap.read_write]

/-- Reading depends on the byte memory alone. -/
theorem trackRead_congr {d e : Decoder} (h : d.bytes = e.bytes) (i : Nat) : trackRead d i = trackRead e i := by
  unfold trackRead; rw [h]

/-- Reading depends on the sync bits alone. -/
theorem syncRead_congr {d e : Decoder} (h : d.syncBits = e.syncBits) (i : Nat) :
    syncRead d i = syncRead e i := by
  unfold syncRead; rw [h]

/-! ### The track invariant -/

/-- An append keeps the track invariant below the capacity. -/
theorem TrackInv.append {c : Params} {d : Decoder} (h : TrackInv c d) (v : Byte) (s : Bool)
    (room : d.trackLen < c.bytesCap) : TrackInv c (trackAppend v s d) where
  bytesWf := Memory.wf_write _ _ _ h.bytesWf
  syncWf := SyncMap.wf_write _ _ _ h.syncWf
  bytesBelow e he := by
    show e.1 < d.trackLen + 1
    rcases mem_cellsWrite he with rfl | he
    · exact Nat.lt_succ_self _
    · exact Nat.lt_succ_of_lt (h.bytesBelow e he)
  syncBelow e he := by
    show e.1 < d.trackLen + 1
    rcases mem_cellsWrite he with rfl | he
    · exact Nat.lt_succ_self _
    · exact Nat.lt_succ_of_lt (h.syncBelow e he)
  lenCap := room

/-- A backward rewrite keeps the track invariant. -/
theorem TrackInv.rewrite {c : Params} {d : Decoder} (h : TrackInv c d) (q : Nat) (v : Byte) (s : Bool) :
    TrackInv c (trackRewrite q v s d) where
  bytesWf := by
    rw [trackRewrite_bytes]; split
    · exact Memory.wf_write _ _ _ h.bytesWf
    · exact h.bytesWf
  syncWf := by
    rw [trackRewrite_syncBits]; split
    · exact SyncMap.wf_write _ _ _ h.syncWf
    · exact h.syncWf
  bytesBelow e he := by
    rw [trackRewrite_trackLen]
    rw [trackRewrite_bytes] at he
    split at he
    · rcases mem_cellsWrite he with rfl | he
      · assumption
      · exact h.bytesBelow e he
    · exact h.bytesBelow e he
  syncBelow e he := by
    rw [trackRewrite_trackLen]
    rw [trackRewrite_syncBits] at he
    split at he
    · rcases mem_cellsWrite he with rfl | he
      · assumption
      · exact h.syncBelow e he
    · exact h.syncBelow e he
  lenCap := by rw [trackRewrite_trackLen]; exact h.lenCap

/-- The track invariant is about the track alone. -/
theorem TrackInv.congr {c : Params} {d e : Decoder} (h : TrackInv c d) (hb : e.bytes = d.bytes)
    (hs : e.syncBits = d.syncBits) (hl : e.trackLen = d.trackLen) : TrackInv c e where
  bytesWf := hb ▸ h.bytesWf
  syncWf := hs ▸ h.syncWf
  bytesBelow := by rw [hb, hl]; exact h.bytesBelow
  syncBelow := by rw [hs, hl]; exact h.syncBelow
  lenCap := hl ▸ h.lenCap

/-! ### Appending and closing behind the capacities -/

theorem appendByte_ok {c : Params} {v : Byte} {s : Bool} {d e : Decoder} :
    appendByte c v s d = .ok e ↔ d.trackLen ≠ c.bytesCap ∧ e = trackAppend v s d := by
  unfold appendByte
  split <;> simp_all [eq_comm]

theorem appendByte_error {c : Params} {v : Byte} {s : Bool} {d : Decoder} {f : Fault} :
    appendByte c v s d = .error f ↔ d.trackLen = c.bytesCap ∧ f = .bytesOverflow := by
  unfold appendByte
  split <;> simp_all [eq_comm]

/-- What a close that succeeds does (R154): the record is appended and none is under construction. -/
theorem close_ok {c : Params} {st : CrcStatus} {n : Nat} {d e : Decoder} :
    close c st n d = .ok e ↔ d.catalog.length ≠ c.catalogCap ∧
      e = { d with catalog := d.catalog ++ [closedRecord st n d], openRec := none } := by
  unfold close catAppend
  split <;> simp_all [eq_comm]

theorem close_error {c : Params} {st : CrcStatus} {n : Nat} {d : Decoder} {f : Fault} :
    close c st n d = .error f ↔ d.catalog.length = c.catalogCap ∧ f = .catalogOverflow := by
  unfold close
  split <;> simp_all [eq_comm]

theorem closeIdle_ok {c : Params} {st : CrcStatus} {n : Nat} {d e : Decoder} :
    closeIdle c st n d = .ok e ↔ d.catalog.length ≠ c.catalogCap ∧
      e = { d with
        catalog := d.catalog ++ [closedRecord st n d]
        openRec := none
        stage := .idle } := by
  unfold closeIdle
  simp only [bind_ok, close_ok, Except.ok.injEq]
  constructor
  · rintro ⟨_, ⟨h, rfl⟩, rfl⟩; exact ⟨h, rfl⟩
  · rintro ⟨h, rfl⟩; exact ⟨_, ⟨h, rfl⟩, rfl⟩

/-- The record a close reads is the open one, if there is one (R32). -/
theorem openRecord_some {d : Decoder} {r : OpenRec} (h : d.openRec = some r) : openRecord d = r := by
  unfold openRecord; rw [h]

end Sys2Proof.Machine
end

