-- ==== Sys2Proof/Laws/Parser.lean ====
section
/-! SUPPORT. The parser: what a truncation, a mark and a consumed byte can do, said once. -/

namespace Sys2Proof.Machine

open Sys2Proof.Config

/-! ### Truncation -/

/-- What a truncation that succeeds does (R155). -/
theorem truncate_ok {c : Params} {d e : Decoder} :
    truncate c d = .ok e ↔
      if d.stage.openField then
        d.catalog.length ≠ c.catalogCap ∧
          e = { d with
            catalog := d.catalog ++ [closedRecord .incomplete (receivedLength d) d]
            openRec := none
            stage := .idle
            a1 := 0 }
      else e = { d with stage := .idle, a1 := 0 } := by
  unfold truncate truncateClose receivedLength
  simp only [bind_ok]
  cases h : d.stage <;>
    simp only [Stage.openField, close_ok, Except.ok.injEq, if_true, if_false, Bool.false_eq_true] <;>
    constructor <;>
    first
      | (rintro ⟨_, ⟨h1, rfl⟩, rfl⟩; exact ⟨h1, rfl⟩)
      | (rintro ⟨h1, rfl⟩; exact ⟨_, ⟨h1, rfl⟩, rfl⟩)
      | (rintro ⟨_, rfl, rfl⟩; rfl)
      | (rintro rfl; exact ⟨_, rfl, rfl⟩)

/-- A truncation fails only for a full catalog (R203). -/
theorem truncate_error {c : Params} {d : Decoder} {f : Fault} :
    truncate c d = .error f ↔
      d.stage.openField = true ∧ d.catalog.length = c.catalogCap ∧ f = .catalogOverflow := by
  have key : ∀ n, (close c .incomplete n d).bind (fun d => .ok { d with stage := .idle, a1 := 0 }) = .error f ↔
      d.catalog.length = c.catalogCap ∧ f = .catalogOverflow := fun n => by
    rw [← close_error (c := c) (st := .incomplete) (n := n)]
    cases close c .incomplete n d <;> simp [Except.bind]
  unfold truncate truncateClose
  cases h : d.stage <;> simp only [key, Stage.openField, true_and] <;> simp [Except.bind]

theorem truncateOpen_idle {c : Params} {d : Decoder} (h : d.stage = .idle) : truncateOpen c d = .ok d := by
  simp [truncateOpen, h]

theorem truncateOpen_open {c : Params} {d : Decoder} (h : d.stage ≠ .idle) :
    truncateOpen c d = truncate c d := by
  simp [truncateOpen, h]

/-- What both callers' truncation leaves alone, and that no field is open after it. -/
theorem truncateOpen_frame {c : Params} {d e : Decoder} (h : truncateOpen c d = .ok e) :
    e.stage = .idle ∧ e.trackLen = d.trackLen ∧ e.bytes = d.bytes ∧ e.syncBits = d.syncBits ∧
      e.window = d.window ∧ e.pos = d.pos ∧ e.cnt = d.cnt ∧ e.lastKind = d.lastKind ∧
      e.recover = d.recover ∧ e.preserve = d.preserve ∧ e.dstate = d.dstate ∧ e.fieldEnd = d.fieldEnd ∧
      e.crc = d.crc := by
  by_cases hs : d.stage = .idle
  · rw [truncateOpen_idle hs] at h
    cases h
    simp [hs]
  · rw [truncateOpen_open hs, truncate_ok] at h
    split at h
    · obtain ⟨-, rfl⟩ := h
      simp
    · subst h
      simp

/-! ### What the parser leaves alone -/

/-- The demodulator's own registers are the same, and so is the length of the track. -/
structure SameDemod (d e : Decoder) : Prop where
  trackLen : e.trackLen = d.trackLen
  window : e.window = d.window
  pos : e.pos = d.pos
  cnt : e.cnt = d.cnt
  lastKind : e.lastKind = d.lastKind
  recover : e.recover = d.recover
  preserve : e.preserve = d.preserve
  dstate : e.dstate = d.dstate

/-- The bytes and sync bits are the same too. -/
structure SameTrack (d e : Decoder) : Prop extends SameDemod d e where
  bytes : e.bytes = d.bytes
  syncBits : e.syncBits = d.syncBits

theorem SameDemod.refl (d : Decoder) : SameDemod d d := ⟨rfl, rfl, rfl, rfl, rfl, rfl, rfl, rfl⟩

theorem SameDemod.trans {d e f : Decoder} (h : SameDemod d e) (k : SameDemod e f) : SameDemod d f :=
  ⟨k.trackLen.trans h.trackLen, k.window.trans h.window, k.pos.trans h.pos, k.cnt.trans h.cnt,
    k.lastKind.trans h.lastKind, k.recover.trans h.recover, k.preserve.trans h.preserve,
    k.dstate.trans h.dstate⟩

theorem SameTrack.trans {d e f : Decoder} (h : SameTrack d e) (k : SameTrack e f) : SameTrack d f :=
  ⟨h.toSameDemod.trans k.toSameDemod, k.bytes.trans h.bytes, k.syncBits.trans h.syncBits⟩

theorem SameTrack.after {d e f : Decoder} (k : SameTrack e f) (h : SameTrack d e) : SameTrack d f := h.trans k

theorem closeIdle_sameTrack {c : Params} {st : CrcStatus} {n : Nat} {d e : Decoder}
    (h : closeIdle c st n d = .ok e) : SameTrack d e := by
  obtain ⟨-, rfl⟩ := closeIdle_ok.1 h
  exact ⟨⟨rfl, rfl, rfl, rfl, rfl, rfl, rfl, rfl⟩, rfl, rfl⟩

/-- A mark changes only the parser's registers and the catalog (R142 to R153). -/
theorem runMark_sameTrack {c : Params} {f : MarkForm} {p : Nat} {d e : Decoder}
    (h : runMark c f p d = .ok e) : SameTrack d e := by
  cases f <;> simp only [runMark, dataMark, closeAtMark] at h
  case dam v =>
    split at h
    · cases h; exact ⟨⟨rfl, rfl, rfl, rfl, rfl, rfl, rfl, rfl⟩, rfl, rfl⟩
    · have := closeIdle_sameTrack h
      exact this.after ⟨⟨rfl, rfl, rfl, rfl, rfl, rfl, rfl, rfl⟩, rfl, rfl⟩
  case unknown v =>
    have := closeIdle_sameTrack h
    exact this.after ⟨⟨rfl, rfl, rfl, rfl, rfl, rfl, rfl, rfl⟩, rfl, rfl⟩
  all_goals cases h; exact ⟨⟨rfl, rfl, rfl, rfl, rfl, rfl, rfl, rfl⟩, rfl, rfl⟩

/-! ### The recovery rewrite -/

theorem recoverRewriteAt_sameDemod (p : Nat) (d : Decoder) (q : Nat) :
    SameDemod d (recoverRewriteAt p d q) := by
  unfold recoverRewriteAt
  split <;> constructor <;> simp

theorem recoverRewriteAt_fieldEnd (p : Nat) (d : Decoder) (q : Nat) :
    (recoverRewriteAt p d q).fieldEnd = d.fieldEnd := by
  unfold recoverRewriteAt
  split <;> simp

/-- What one index reads as after it is rewritten (R172). -/
theorem recoverRewriteAt_read (p : Nat) (d : Decoder) (q i : Nat) (hq : q < d.trackLen) :
    trackRead (recoverRewriteAt p d q) i =
        (if i = q then (if p - 3 ≤ q then a1Byte else 0x00) else trackRead d i) ∧
      syncRead (recoverRewriteAt p d q) i = (if i = q then decide (p - 3 ≤ q) else syncRead d i) := by
  unfold recoverRewriteAt
  by_cases hp : p - 3 ≤ q <;> by_cases hi : i = q <;>
    simp only [hp, hi, hq, if_true, if_false, trackRead_rewrite, syncRead_rewrite,
      and_true, decide_true, decide_false, and_self]

/-- What the rewrite of a run of indices does: it leaves the registers and every other index alone, and
rewrites each of the run (R172). -/
theorem recoverRewrite_run (p lo : Nat) (n : Nat) (d : Decoder) (hn : lo + n ≤ d.trackLen) :
    let e := (List.range' lo n).foldl (recoverRewriteAt p) d
    SameDemod d e ∧ e.fieldEnd = d.fieldEnd ∧ ∀ i,
      trackRead e i =
          (if lo ≤ i ∧ i < lo + n then (if p - 3 ≤ i then a1Byte else 0x00) else trackRead d i) ∧
        syncRead e i = (if lo ≤ i ∧ i < lo + n then decide (p - 3 ≤ i) else syncRead d i) := by
  induction n generalizing lo d with
  | zero =>
    refine ⟨SameDemod.refl _, rfl, fun i => ?_⟩
    rw [if_neg (by omega), if_neg (by omega)]
    exact ⟨rfl, rfl⟩
  | succ n ih =>
    rw [List.range'_succ, List.foldl_cons]
    have h1 := recoverRewriteAt_sameDemod p d lo
    obtain ⟨h2, h3, h4⟩ := ih (lo + 1) (recoverRewriteAt p d lo) (by rw [h1.trackLen]; omega)
    refine ⟨h1.trans h2, h3.trans (recoverRewriteAt_fieldEnd p d lo), fun i => ?_⟩
    obtain ⟨hr, hr'⟩ := recoverRewriteAt_read p d lo i (by omega)
    obtain ⟨h5, h6⟩ := h4 i
    rw [h5, h6, hr, hr']
    have e1 : (lo ≤ i ∧ i < lo + (n + 1)) ↔ (i = lo ∨ (lo + 1 ≤ i ∧ i < lo + 1 + n)) := by omega
    simp only [e1]
    by_cases hi : i = lo
    · subst hi
      simp
    · simp [hi]

/-- The run of indices keeps the track invariant. -/
theorem recoverRewrite_trackInv {c : Params} (p : Nat) (qs : List Nat) (d : Decoder) (h : TrackInv c d) :
    TrackInv c (qs.foldl (recoverRewriteAt p) d) := by
  induction qs generalizing d with
  | nil => exact h
  | cons q qs ih =>
    refine ih _ ?_
    unfold recoverRewriteAt
    split <;> exact h.rewrite _ _ _

/-! ### Consuming a byte -/

/-- The recovery rewrite is a run of rewrites at indices below TrackLen(), when the mark's index is
(R172). -/
theorem recoverRewrite_spec (p : Nat) (d : Decoder) (hp : p ≤ d.trackLen) :
    SameDemod d (recoverRewrite p d) ∧ (recoverRewrite p d).fieldEnd = d.fieldEnd ∧ ∀ i,
      trackRead (recoverRewrite p d) i =
          (if recoverFloor p d ≤ i ∧ i < p then (if p - 3 ≤ i then a1Byte else 0x00) else trackRead d i) ∧
        syncRead (recoverRewrite p d) i =
          (if recoverFloor p d ≤ i ∧ i < p then decide (p - 3 ≤ i) else syncRead d i) := by
  by_cases hlo : recoverFloor p d ≤ p
  · have := recoverRewrite_run p (recoverFloor p d) (p - recoverFloor p d) d (by omega)
    rw [Nat.add_sub_cancel' hlo] at this
    exact this
  · unfold recoverRewrite
    rw [Nat.sub_eq_zero_of_le (by omega)]
    refine ⟨SameDemod.refl _, rfl, fun i => ?_⟩
    rw [if_neg (by omega), if_neg (by omega)]
    exact ⟨rfl, rfl⟩

/-- What a byte that arrives while a field is open leaves alone (R140). -/
theorem consume_open_sameTrack {c : Params} {v : Byte} {p : Nat} {d e : Decoder} (hs : d.stage ≠ .idle)
    (h : consume c v p d = .ok e) : SameTrack d e := by
  unfold consume at h
  cases hst : d.stage with
  | idle => exact absurd hst hs
  | readId k =>
    simp only [hst, idByte] at h
    split at h <;> cases h <;> exact ⟨⟨rfl, rfl, rfl, rfl, rfl, rfl, rfl, rfl⟩, rfl, rfl⟩
  | readIdCrc j =>
    simp only [hst, idCrcByte] at h
    split at h
    · cases h; exact ⟨⟨rfl, rfl, rfl, rfl, rfl, rfl, rfl, rfl⟩, rfl, rfl⟩
    · have := closeIdle_sameTrack h
      exact this.after ⟨⟨rfl, rfl, rfl, rfl, rfl, rfl, rfl, rfl⟩, rfl, rfl⟩
  | readData k =>
    simp only [hst, dataByte] at h
    cases h; exact ⟨⟨rfl, rfl, rfl, rfl, rfl, rfl, rfl, rfl⟩, rfl, rfl⟩
  | readDataCrc j =>
    simp only [hst, dataCrcByte] at h
    split at h
    · cases h; exact ⟨⟨rfl, rfl, rfl, rfl, rfl, rfl, rfl, rfl⟩, rfl, rfl⟩
    · have := closeIdle_sameTrack h
      exact this.after ⟨⟨rfl, rfl, rfl, rfl, rfl, rfl, rfl, rfl⟩, rfl, rfl⟩
  | amigaHeader k =>
    simp only [hst, amigaHeaderByte, headerDone] at h
    split at h
    · cases h; exact ⟨⟨rfl, rfl, rfl, rfl, rfl, rfl, rfl, rfl⟩, rfl, rfl⟩
    · split at h
      · obtain ⟨_, h1, h2⟩ := bind_ok.1 h
        obtain ⟨-, rfl⟩ := close_ok.1 h1
        cases h2
        exact ⟨⟨rfl, rfl, rfl, rfl, rfl, rfl, rfl, rfl⟩, rfl, rfl⟩
      · cases h; exact ⟨⟨rfl, rfl, rfl, rfl, rfl, rfl, rfl, rfl⟩, rfl, rfl⟩
  | amigaData k =>
    simp only [hst, amigaDataByte] at h
    split at h
    · cases h; exact ⟨⟨rfl, rfl, rfl, rfl, rfl, rfl, rfl, rfl⟩, rfl, rfl⟩
    · have := closeIdle_sameTrack h
      exact this.after ⟨⟨rfl, rfl, rfl, rfl, rfl, rfl, rfl, rfl⟩, rfl, rfl⟩

/-- What a byte that arrives while no field is open leaves alone: all of the demodulator's registers, and
every byte and sync bit outside the recovery rewrite's range (R141, R172). -/
theorem consume_idle_frame {c : Params} {v : Byte} {p : Nat} {d e : Decoder} (hs : d.stage = .idle)
    (hp : p ≤ d.trackLen) (h : consume c v p d = .ok e) :
    SameDemod d e ∧ ∀ i, ¬ (recoverFloor p d ≤ i ∧ i < p) →
      trackRead e i = trackRead d i ∧ syncRead e i = syncRead d i := by
  simp only [consume, hs, consumeIdle] at h
  obtain ⟨f, h1, h2⟩ := bind_ok.1 h
  cases h2
  suffices SameDemod d f ∧ ∀ i, ¬ (recoverFloor p d ≤ i ∧ i < p) →
      trackRead f i = trackRead d i ∧ syncRead f i = syncRead d i by
    exact ⟨this.1.trans ⟨rfl, rfl, rfl, rfl, rfl, rfl, rfl, rfl⟩, this.2⟩
  unfold idleByte at h1
  split at h1
  · have := runMark_sameTrack h1
    exact ⟨this.toSameDemod, fun i _ => ⟨trackRead_congr this.bytes i, syncRead_congr this.syncBits i⟩⟩
  · split at h1
    · have := runMark_sameTrack h1
      obtain ⟨h3, -, h4⟩ := recoverRewrite_spec p d hp
      refine ⟨h3.trans ⟨this.trackLen, this.window, this.pos, this.cnt, this.lastKind, this.recover,
        this.preserve, this.dstate⟩, fun i hi => ?_⟩
      have h5 := h4 i
      rw [if_neg hi, if_neg hi] at h5
      exact ⟨(trackRead_congr this.bytes i).trans h5.1, (syncRead_congr this.syncBits i).trans h5.2⟩
    · split at h1 <;> cases h1 <;>
        exact ⟨⟨rfl, rfl, rfl, rfl, rfl, rfl, rfl, rfl⟩, fun _ _ => ⟨rfl, rfl⟩⟩

end Sys2Proof.Machine
end

