-- ==== Sys2Proof/Laws/Demodulator.lean ====
section
/-! SUPPORT. The demodulator: what an emission, the fixup, an A1 sync and one channel bit can do, said once;
and the three outcomes of a command on the decoder. -/

namespace Sys2Proof.Machine

open Sys2Proof.Config

/-! ### Emission -/

/-- The decoder as an emission hands it to the parser (R108). -/
theorem emit_ok {c : Params} {v : Byte} {s : Bool} {k : LastKind} {d e : Decoder} :
    emit c v s k d = .ok e ↔ d.trackLen ≠ c.bytesCap ∧
      consume c v d.trackLen { trackAppend v s d with lastKind := k } = .ok e := by
  unfold emit
  simp only [bind_ok, appendByte_ok]
  constructor
  · rintro ⟨_, ⟨h, rfl⟩, h2⟩
    exact ⟨h, h2⟩
  · rintro ⟨h, h2⟩
    exact ⟨_, ⟨h, rfl⟩, h2⟩

/-! ### The fixup -/

theorem fixupWalk_frame (c : Params) (p : Nat) (n : Nat) (d : Decoder) :
    SameDemod d (fixupWalk c p n d) ∧ (fixupWalk c p n d).fieldEnd = d.fieldEnd ∧
      (∀ i, i < d.fieldEnd ∨ n ≤ i →
        trackRead (fixupWalk c p n d) i = trackRead d i ∧
          syncRead (fixupWalk c p n d) i = syncRead d i) ∧
      (fixupWalk c p n d).stage = d.stage ∧ (fixupWalk c p n d).a1 = d.a1 ∧
      (fixupWalk c p n d).crc = d.crc ∧ (fixupWalk c p n d).openRec = d.openRec ∧
      (fixupWalk c p n d).catalog = d.catalog ∧ (fixupWalk c p n d).hOff = d.hOff ∧
      (TrackInv c d → TrackInv c (fixupWalk c p n d)) := by
  induction n generalizing d with
  | zero => exact ⟨SameDemod.refl d, rfl, fun _ _ => ⟨rfl, rfl⟩, rfl, rfl, rfl, rfl, rfl, rfl, id⟩
  | succ q ih =>
    unfold fixupWalk
    split
    · rename_i hc
      have hq : d.fieldEnd ≤ q := by
        unfold fixupClears at hc
        simp only [Bool.and_eq_true, decide_eq_true_eq] at hc
        exact hc.1
      obtain ⟨h1, h2, h3, h4, h5, h6, h7, h8, h9, h10⟩ := ih (trackRewrite q 0x00 false d)
      simp only [trackRewrite_fieldEnd, trackRewrite_stage, trackRewrite_a1, trackRewrite_crc,
        trackRewrite_openRec, trackRewrite_catalog, trackRewrite_hOff] at h2 h3 h4 h5 h6 h7 h8 h9
      refine ⟨SameDemod.trans (by constructor <;> simp) h1, h2, fun i hi => ?_, h4, h5, h6, h7, h8, h9,
        fun h => h10 (h.rewrite _ _ _)⟩
      have h11 := h3 i (by omega)
      rw [h11.1, h11.2, trackRead_rewrite, syncRead_rewrite, if_neg (by omega), if_neg (by omega)]
      exact ⟨rfl, rfl⟩
    · exact ⟨SameDemod.refl d, rfl, fun _ _ => ⟨rfl, rfl⟩, rfl, rfl, rfl, rfl, rfl, rfl, id⟩

/-- The gated fixup is the fixup in normal mode and nothing in the others (R119). -/
theorem fixupGated_eq (c : Params) (p : Nat) (d : Decoder) :
    fixupGated c p d = fixupWalk c p (if d.recover = false ∧ d.preserve = false then p else 0) d := by
  unfold fixupGated fixup
  cases hr : d.recover <;> cases hp : d.preserve <;> simp [fixupWalk]

/-! ### One channel bit -/

/-- What one channel bit that succeeds does (R105): no form, and the countdown goes on; or the form that is
recognized runs. -/
theorem stepBit_ok {c : Params} {b : Bool} {d e : Decoder} :
    stepBit c b d = .ok e ↔
      (recognize c (shiftIn b d) = none ∧ e = { shiftIn b d with cnt := d.cnt - 1 }) ∨
        ∃ f, recognize c (shiftIn b d) = some f ∧ runWindow c f (shiftIn b d) = .ok e := by
  unfold stepBit
  cases h : recognize c (shiftIn b d) <;> simp [h, eq_comm]

/-- The window form that is recognized, and why (R71, R104). -/
theorem recognize_some {c : Params} {d : Decoder} {f : WindowForm} (h : recognize c d = some f) :
    (f = .syncA1 ∧ d.window = syncA1Win ∧ full d = true) ∨
      (f = .markC2 ∧ d.window = markC2Win ∧ gapCheck c d = true) ∨
      (f = .gap4E ∧ d.window = gap4EWin ∧ gapCheck c d = true) ∨
      (f = .dataWindow d.window ∧ due d = true) := by
  unfold recognize isA1 isC2 is4E at h
  split_ifs at h <;> simp_all

/-- What an A1 sync that succeeds does (R113): the open field is truncated, the A1 is placed, the fixup
runs behind its gate, and the run is counted. -/
theorem syncRun_ok {c : Params} {b : Bool} {d g : Decoder} :
    syncRun c b d = .ok g ↔ ∃ e f, truncateOpen c d = .ok e ∧ placeA1 c (replacesC2 b d) e = .ok f ∧
      g = countA1 (fixupGated c (f.trackLen - 1) { f with lastKind := .a1 }) := by
  unfold syncRun
  simp only [bind_ok, Except.ok.injEq]
  constructor
  · rintro ⟨e, h1, f, h2, rfl⟩; exact ⟨e, f, h1, h2, rfl⟩
  · rintro ⟨e, f, h1, h2, rfl⟩; exact ⟨e, h1, f, h2, rfl⟩

/-- Where the A1 byte goes (R113, R114). -/
theorem placeA1_ok {c : Params} {r : Bool} {d e : Decoder} :
    placeA1 c r d = .ok e ↔
      (r = true ∧ e = trackRewrite (d.trackLen - 1) a1Byte true d) ∨
        (r = false ∧ d.trackLen ≠ c.bytesCap ∧ e = trackAppend a1Byte true d) := by
  cases r
  · simpa [placeA1] using appendByte_ok
  · simp [placeA1, eq_comm]

/-- What a window form that succeeds does: its own effect, then the countdown restarts (R105, R112). -/
theorem runWindow_ok {c : Params} {f : WindowForm} {d e : Decoder} :
    runWindow c f d = .ok e ↔ ∃ g, e = restart g ∧
      match f with
      | .syncA1 => syncRun c (due d) d = .ok g
      | .markC2 => emit c (demod markC2Win) true (if due d then .c2on else .c2off) d = .ok g
      | .gap4E => emit c (demod gap4EWin) false .data d = .ok g
      | .dataWindow w => emit c (demod w) false .data d = .ok g := by
  unfold runWindow
  cases f <;> simp only [bind_ok, Except.ok.injEq] <;> constructor <;>
    first
      | (rintro ⟨g, h1, rfl⟩; exact ⟨g, rfl, h1⟩)
      | (rintro ⟨g, rfl, h1⟩; exact ⟨g, h1, rfl⟩)

/-- The steps of a first bit and of the rest (R107). -/
theorem stepBits_cons_ok {c : Params} {b : Bool} {bs : List Bool} {d e : Decoder} :
    stepBits c (b :: bs) d = .ok e ↔ ∃ g, stepBit c b d = .ok g ∧ stepBits c bs g = .ok e := bind_ok

/-! ### A command on the decoder -/

/-- While Done a command on the decoder is refused (R204). -/
theorem decoderCommand_done {op : Params → Decoder → Except Fault Decoder} {s : State}
    (h : s.dec.dstate = .done) : decoderCommand op s = .next (refuse .decoderDone s) := by
  simp [decoderCommand, h]

/-- While Active it takes effect whole (R61). -/
theorem decoderCommand_ok {op : Params → Decoder → Except Fault Decoder} {s : State} {d : Decoder}
    (h : s.dec.dstate = .active) (hop : op s.cfg s.dec = .ok d) :
    decoderCommand op s = .next (accept { s with dec := d }) := by
  simp [decoderCommand, h, hop]

/-- Or, on a fault, not at all (R203). -/
theorem decoderCommand_error {op : Params → Decoder → Except Fault Decoder} {s : State} {f : Fault}
    (h : s.dec.dstate = .active) (hop : op s.cfg s.dec = .error f) :
    decoderCommand op s = .next (raiseFault f s) := by
  simp [decoderCommand, h, hop]

/-- Everything a command on the decoder can do. -/
theorem decoderCommand_cases {op : Params → Decoder → Except Fault Decoder} {s t : State}
    (h : decoderCommand op s = .next t) :
    (s.dec.dstate = .done ∧ t = refuse .decoderDone s) ∨
      (s.dec.dstate = .active ∧ ∃ d, op s.cfg s.dec = .ok d ∧ t = accept { s with dec := d }) ∨
      (s.dec.dstate = .active ∧ ∃ f, op s.cfg s.dec = .error f ∧ t = raiseFault f s) := by
  unfold decoderCommand at h
  split at h
  · cases h; exact .inl ⟨by assumption, rfl⟩
  · split at h
    · cases h; exact .inr (.inl ⟨by assumption, _, by assumption, rfl⟩)
    · cases h; exact .inr (.inr ⟨by assumption, _, by assumption, rfl⟩)

end Sys2Proof.Machine
end

