-- ==== Sys2Proof/Laws/PerInstr.lean ====
section
/-! SUPPORT. A statement made per instruction: the encoder writes every well-formed instruction in its own
row of the opcode table, in the row's format and with the row's match bits under the row's mask. -/

namespace Sys2Proof.Laws.EncodesInRow

/-- An instruction's row: its word, masked, gives the row's match bits, in the row's format (30_encoding.md
R92). -/
def Statement (i : Instr) : Prop :=
  i.wf = true →
  match i with
  | .decStart _ _ => ∃ w, encode i = .command32 w ∧ w &&& 0xFFFFFFFC = 0x01000000
  | .decBit _ => ∃ w, encode i = .command32 w ∧ w &&& 0xFFFFFFFE = 0x02000000
  | .decByte _ => ∃ w, encode i = .command32 w ∧ w &&& 0xFFFFFF00 = 0x03000000
  | .decEnd => encode i = .command32 0x04000000
  | .encStart _ => ∃ w, encode i = .command32 w ∧ w &&& 0xFFFFFFFE = 0x10000000
  | .encByte _ _ => ∃ w, encode i = .command32 w ∧ w &&& 0xFFFFFE00 = 0x11000000
  | .crcLoad _ => ∃ w, encode i = .command32 w ∧ w &&& 0xFFFF0000 = 0x20000000
  | .crcByte _ => ∃ w, encode i = .command32 w ∧ w &&& 0xFFFFFF00 = 0x21000000
  | .syncA1 => encode i = .window16 0x9122
  | .markC2 => encode i = .window16 0x244A
  | .gap4E => encode i = .window16 0x2A49
  | .dataWindow _ => ∃ w, encode i = .window16 w ∧ w ≠ 0x9122 ∧ w ≠ 0x244A ∧ w ≠ 0x2A49
  | .idamFc => encode i = .mark8 0xFC
  | .idamFd => encode i = .mark8 0xFD
  | .idamFe => encode i = .mark8 0xFE
  | .dam _ => ∃ v, encode i = .mark8 v ∧ v &&& 0xFC = 0xF8
  | .markUnknown _ => ∃ v, encode i = .mark8 v ∧ (v.toNat < 0xF8 ∨ v = 0xFF)
  | .encSyncA1 => encode i = .encsel9 0x1A1
  | .encSyncC2 => encode i = .encsel9 0x1C2
  | .encData _ _ => ∃ sel, encode i = .encsel9 sel ∧ sel ≠ 0x1A1 ∧ sel ≠ 0x1C2

theorem decStart (r p : Bool) : Statement (.decStart r p) := fun _ =>
  ⟨_, rfl, by revert r p; decide⟩

theorem decBit (b : Bool) : Statement (.decBit b) := fun _ => ⟨_, rfl, by revert b; decide⟩

theorem decByte (x : Byte) : Statement (.decByte x) := fun _ => ⟨_, rfl, by revert x; decide⟩

theorem decEnd : Statement .decEnd := fun _ => rfl

theorem encStart (q : Bool) : Statement (.encStart q) := fun _ => ⟨_, rfl, by revert q; decide⟩

theorem encByte (v : Byte) (s : Bool) : Statement (.encByte v s) := fun _ =>
  ⟨_, rfl, by revert v s; decide⟩

theorem crcLoad (h : Half) : Statement (.crcLoad h) := fun _ => ⟨_, rfl, by
  refine BitVec.eq_of_getLsbD_eq fun i hi => ?_
  rw [BitVec.getLsbD_and, commandWord, BitVec.getLsbD_append]
  interval_cases i <;> simp⟩

theorem crcByte (b : Byte) : Statement (.crcByte b) := fun _ => ⟨_, rfl, by revert b; decide⟩

theorem syncA1 : Statement .syncA1 := fun _ => rfl

theorem markC2 : Statement .markC2 := fun _ => rfl

theorem gap4E : Statement .gap4E := fun _ => rfl

theorem dataWindow (w : Half) : Statement (.dataWindow w) := fun h => ⟨w, rfl, by
  simpa [Instr.wf, isDataWindow, Config.syncA1Win, Config.markC2Win, Config.gap4EWin, and_assoc] using h⟩

theorem idamFc : Statement .idamFc := fun _ => rfl

theorem idamFd : Statement .idamFd := fun _ => rfl

theorem idamFe : Statement .idamFe := fun _ => rfl

theorem dam (v : Byte) : Statement (.dam v) := fun h => ⟨v, rfl, by revert v; decide⟩

theorem markUnknown (v : Byte) : Statement (.markUnknown v) := fun h => ⟨v, rfl, by revert v; decide⟩

theorem encSyncA1 : Statement .encSyncA1 := fun _ => rfl

theorem encSyncC2 : Statement .encSyncC2 := fun _ => rfl

theorem encData (v : Byte) (s : Bool) : Statement (.encData v s) := fun h =>
  ⟨selectorWord v s, rfl, by revert v s; decide⟩

end Sys2Proof.Laws.EncodesInRow
end

