-- ==== Sys2Proof/Laws/Windows.lean ====
section
/-! SUPPORT. The window forms: how they fault on a full byte memory, and what they do with room for a byte,
in terms of what the parser does with it; and the simplest things the parser does with a byte while Idle. -/

namespace Sys2Proof.Machine

open Sys2Proof.Config

/-- With room for a byte, an emission is the parser's consumption of the appended byte (R108). -/
theorem emit_of_room {c : Params} {v : Byte} {s : Bool} {k : LastKind} {d : Decoder}
    (h : d.trackLen < c.bytesCap) :
    emit c v s k d = consume c v d.trackLen { trackAppend v s d with lastKind := k } := by
  unfold emit appendByte
  rw [if_neg (by omega)]
  rfl

/-- With the byte memory full, a window form faults with BYTES_OVERFLOW (R108, R113), unless it is an A1 that
replaces a C2 (R114) or whose truncation cannot close the open field's record (R154). -/
theorem runWindow_of_full {c : Params} {f : WindowForm} {d : Decoder} (h : d.trackLen = c.bytesCap)
    (ha : f = .syncA1 → replacesC2 (due d) d = false ∧
      (d.stage.openField = true → d.catalog.length ≠ c.catalogCap)) :
    runWindow c f d = .error .bytesOverflow := by
  have emits : ∀ v s k, emit c v s k d = .error .bytesOverflow := fun v s k => by
    simp [emit, appendByte, h, Except.bind]
  cases f with
  | syncA1 =>
    obtain ⟨hr, hc⟩ := ha rfl
    have hok : ∃ e, truncateOpen c d = .ok e := by
      by_cases hs : d.stage = .idle
      · exact ⟨d, truncateOpen_idle hs⟩
      · rw [truncateOpen_open hs]
        cases ht : truncate c d with
        | ok e => exact ⟨e, rfl⟩
        | error g =>
          obtain ⟨h1, h2, -⟩ := truncate_error.mp ht
          exact absurd h2 (hc h1)
    obtain ⟨e, he⟩ := hok
    have hp : placeA1 c (replacesC2 (due d) d) e = .error .bytesOverflow := by
      rw [hr]
      exact appendByte_error.mpr ⟨(truncateOpen_frame he).2.1.trans h, rfl⟩
    simp [runWindow, syncRun, he, hp, Except.bind]
  | _ => simp [runWindow, emits, Except.bind]

/-- With the byte memory full and no replacement to come, a channel bit faults with BYTES_OVERFLOW, or it
completes no form, is not on the boundary, and only counts down (R105, R108). -/
theorem stepBit_of_full {c : Params} {b : Bool} {d : Decoder} (h : d.trackLen = c.bytesCap)
    (hl : d.lastKind ≠ .c2off) (hc : d.stage.openField = true → d.catalog.length ≠ c.catalogCap) :
    stepBit c b d = .error .bytesOverflow ∨
      (d.cnt ≠ 1 ∧ stepBit c b d = .ok { shiftIn b d with cnt := d.cnt - 1 }) := by
  unfold stepBit
  cases hf : recognize c (shiftIn b d) with
  | some f =>
    simp only [hf]
    exact .inl (runWindow_of_full (d := shiftIn b d) h fun _ => ⟨by simp [replacesC2, shiftIn, hl], hc⟩)
  | none =>
    simp only [hf]
    refine .inr ⟨fun h1 => ?_, rfl⟩
    unfold recognize at hf
    split_ifs at hf with _ _ _ hd
    exact hd (by simp [due, shiftIn, h1])

/-- A byte that arrives while no field is open (R140). -/
theorem consume_of_idle {c : Params} {v : Byte} {p : Nat} {d : Decoder} (h : d.stage = .idle) :
    consume c v p d = consumeIdle c v p d := by
  unfold consume
  split <;> simp_all

/-- After three A1s an Idle byte is a mark (R141). -/
theorem consumeIdle_of_mark {c : Params} {v : Byte} {p : Nat} {d e : Decoder} (h : d.a1 = 3)
    (hm : markByte c v p d = .ok e) : consumeIdle c v p d = .ok { e with a1 := 0 } := by
  unfold consumeIdle idleByte
  rw [if_pos (by rw [h]; rfl), hm]
  rfl

/-- The class 0xF8..0xFE as a proposition. -/
theorem inMarkRange_iff (v : Byte) : inMarkRange v = true ↔ plausibleMark v := by
  simp [inMarkRange, plausibleMark]

/-- A gap byte only resets the sync-run counter (R141). -/
theorem consume_of_gap {c : Params} {v : Byte} {p : Nat} {d : Decoder} (h : gapByte c v d) :
    consume c v p d = .ok { d with a1 := 0 } := by
  obtain ⟨h1, h2, h3, h4⟩ := h
  have e1 : ¬ d.a1 = a1Run := h2
  rw [consume_of_idle h1]
  unfold consumeIdle idleByte
  rw [if_neg e1, if_neg, if_neg]
  · rfl
  · simp only [Bool.and_eq_true, Bool.not_eq_true', decide_eq_true_eq, inAmigaTriggerClass,
      Bool.or_eq_true]
    rintro ⟨⟨h5, h6⟩, h7⟩
    refine h4 ⟨h5, h6, h7.imp id ?_⟩
    rw [← inMarkRange_iff]
    simp
  · simp only [Bool.and_eq_true, inMarkRange_iff]
    exact h3

/-- A window form's run on a decoder with room, for the forms that emit (R109 to R111). -/
theorem runWindow_of_consume {c : Params} {w : Half} {d e : Decoder} (h : d.trackLen < c.bytesCap)
    (hc : consume c (demod w) d.trackLen { trackAppend (demod w) false d with lastKind := .data } = .ok e) :
    runWindow c (.dataWindow w) d = .ok (restart e) := by
  simp only [runWindow, emit_of_room h, hc]
  rfl

/-- DATA_WINDOW, when the parser consumes its byte (R109). -/
theorem execDataWindow_of_consume {w : Half} {s : State} {d : Decoder} (ha : s.dec.dstate = .active)
    (h : s.dec.trackLen < s.cfg.bytesCap)
    (hc : consume s.cfg (demod w) s.dec.trackLen
      { trackAppend (demod w) false s.dec with lastKind := .data } = .ok d) :
    exec (.dataWindow w) s = .next { s with dec := restart d, result := 0x00 } :=
  decoderCommand_ok (op := fun c => runWindow c (.dataWindow w)) ha (runWindow_of_consume h hc)

/-- MARK_C2, when the parser consumes its byte (R110). -/
theorem execMarkC2_of_consume {s : State} {d : Decoder} (ha : s.dec.dstate = .active)
    (h : s.dec.trackLen < s.cfg.bytesCap)
    (hc : consume s.cfg 0xC2 s.dec.trackLen
      { trackAppend 0xC2 true s.dec with lastKind := if s.dec.cnt = 1 then .c2on else .c2off } = .ok d) :
    exec .markC2 s = .next { s with dec := restart d, result := 0x00 } := by
  have hv : demod markC2Win = 0xC2 := by decide
  have hr : runWindow s.cfg .markC2 s.dec = .ok (restart d) := by
    simp only [runWindow, hv, due, decide_eq_true_eq, emit_of_room h, hc]
    rfl
  exact decoderCommand_ok (op := fun c => runWindow c .markC2) ha hr

end Sys2Proof.Machine
end

