-- ==== Sys2Proof/Machine/Assembler.lean ====
section
/-! DEFINITION. The assembler syntax (30_encoding.md R89) as a total parser, and the pseudo-instructions
(R90) as lists of commands. Log entry 13. -/

namespace Sys2Proof.Machine

/-- The text before the first `sep`, and the text after it if there is one. -/
def splitFirst (sep : Char) : List Char → List Char × Option (List Char)
  | [] => ([], none)
  | c :: rest =>
    if c = sep then ([], some rest)
    else (c :: (splitFirst sep rest).1, (splitFirst sep rest).2)

/-- The parts of a text between commas. -/
def splitCommas : List Char → List (List Char)
  | [] => [[]]
  | c :: rest =>
    match splitCommas rest with
    | [] => [[c]]
    | p :: ps => if c = ',' then [] :: p :: ps else (c :: p) :: ps

/-- The value of a digit in bases up to 16. -/
def digitValue (c : Char) : Option Nat :=
  if '0'.toNat ≤ c.toNat ∧ c.toNat ≤ '9'.toNat then some (c.toNat - '0'.toNat)
  else if 'A'.toNat ≤ c.toNat ∧ c.toNat ≤ 'F'.toNat then some (c.toNat - 'A'.toNat + 10)
  else if 'a'.toNat ≤ c.toNat ∧ c.toNat ≤ 'f'.toNat then some (c.toNat - 'a'.toNat + 10)
  else none

/-- The number written by digits of a base, most significant first, above `acc`. -/
def parseDigits (base acc : Nat) : List Char → Option Nat
  | [] => some acc
  | c :: rest =>
    match digitValue c with
    | some v => if v < base then parseDigits base (acc * base + v) rest else none
    | none => none

/-- An operand: decimal, or 0x and hexadecimal (R89). -/
def parseNumber : List Char → Option Nat
  | [] => none
  | ['0', 'x'] => none
  | '0' :: 'x' :: digits => parseDigits 16 0 digits
  | digits => parseDigits 10 0 digits

/-- An operand that is 0 or 1 (R89). -/
def parseBit (cs : List Char) : Option Bool :=
  match parseNumber cs with
  | some 0 => some false
  | some 1 => some true
  | _ => none

/-- An operand of n bits. -/
def parseBits (n : Nat) (cs : List Char) : Option (BitVec n) :=
  match parseNumber cs with
  | some v => if v < 2 ^ n then some (BitVec.ofNat n v) else none
  | none => none

/-- A command with its operands' texts (R89). -/
def assembleParts (mnemonic : List Char) (operands : List (List Char)) : Option Instr :=
  match operands with
  | [] => if mnemonic = "DEC_END".toList then some .decEnd else none
  | [a] =>
    if mnemonic = "DEC_BIT".toList then (parseBit a).map .decBit
    else if mnemonic = "DEC_BYTE".toList then (parseBits 8 a).map .decByte
    else if mnemonic = "ENC_START".toList then (parseBit a).map .encStart
    else if mnemonic = "CRC_LOAD".toList then (parseBits 16 a).map .crcLoad
    else if mnemonic = "CRC_BYTE".toList then (parseBits 8 a).map .crcByte
    else none
  | [a, b] =>
    if mnemonic = "DEC_START".toList then
      (parseBit a).bind fun r => (parseBit b).map fun p => .decStart r p
    else if mnemonic = "ENC_BYTE".toList then
      (parseBits 8 a).bind fun v => (parseBit b).map fun s => .encByte v s
    else none
  | _ => none

/-- The command a line of assembler text stands for (R89); none for a text that is none of its forms. -/
def assemble (line : String) : Option Instr :=
  match splitFirst ' ' line.toList with
  | (m, none) => assembleParts m []
  | (m, some ops) => assembleParts m (splitCommas ops)

/-- The pseudo-instructions (R90). -/
inductive Pseudo where
  /-- DEC_BYTES x1,…,xn. -/
  | decBytes (xs : List Byte)
  /-- DEC_BITS b1,…,bn (b1 consumed first). -/
  | decBits (bs : List Bool)
  /-- DEC_TRACK r,p, x1,…,xn. -/
  | decTrack (recover preserve : Bool) (xs : List Byte)
  /-- ENC_TRACK p, (v1,s1),…,(vn,sn). -/
  | encTrack (prev : Bool) (vs : List (Byte × Bool))
  /-- CRC_BYTES seed, b1,…,bn. -/
  | crcBytes (seed : Half) (bs : List Byte)
deriving DecidableEq, Repr

/-- The commands a pseudo-instruction expands to, in order (R90). -/
def expandPseudo : Pseudo → List Instr
  | .decBytes xs => xs.map .decByte
  | .decBits bs => bs.map .decBit
  | .decTrack r p xs => .decStart r p :: (xs.map .decByte ++ [.decEnd])
  | .encTrack p vs => .encStart p :: vs.map fun e => .encByte e.1 e.2
  | .crcBytes seed bs => .crcLoad seed :: bs.map .crcByte

/-- The 32-bit word of a command (R80), none for a decoded form. -/
def commandWordOf (i : Instr) : Option Word :=
  match encode i with
  | .command32 w => some w
  | _ => none

/-- The words a pseudo-instruction expands to (R90). -/
def pseudoWords (p : Pseudo) : List Word := (expandPseudo p).filterMap commandWordOf

end Sys2Proof.Machine
end

