-- ==== Sys2Proof/Tests/Slice0.lean ====
section
/-! SUPPORT. The model's own tests: the well-formedness checks, the decoding of words written out from the
tables of spec/30_encoding.md, single steps whose expected results are the vectors of
spec/95_test_vectors.md, and for every statement with hypotheses a state that meets them. -/

namespace Sys2Proof.Tests

open Sys2Proof.Machine

/-! ### Helpers -/

/-- A block with a track of at most 24 bytes and at most two records. -/
def box : State := State.powerOn { Config.defaultParams with bytesCap := 24, catalogCap := 2 }

/-- `box` with its decoder changed. -/
def boxed (f : Decoder → Decoder) : State := { box with dec := f box.dec }

/-- A track of these bytes, with no sync bit set. -/
def track (bs : List Byte) (d : Decoder) : Decoder :=
  { bs.foldl (fun d v => trackAppend v false d) d with lastKind := .data }

/-- The next state, if there is one. -/
def after (o : Host.Outcome State Fault Refusal) : Option State :=
  match o with
  | .next t => some t
  | _ => none

/-- The decoder of the next state. -/
def decAfter (o : Host.Outcome State Fault Refusal) : Option Decoder := (after o).map (·.dec)

/-- The RESULT code of the next state. -/
def codeAfter (o : Host.Outcome State Fault Refusal) : Option Byte := (after o).map (·.result)

/-- A record under construction, its offset at the end of a track of n bytes. -/
def opened (kind : RecordKind) (v : Byte) (n : Nat) : OpenRec := ⟨kind, v, n⟩

/-! ### Well-formedness: each check refuses an ill-formed term (R70, R73, R76, R8) -/

theorem test_wf_refuses_pattern_as_data_window :
    (Instr.dataWindow 0x9122).wf = false ∧ (Instr.dataWindow 0x244A).wf = false ∧
      (Instr.dataWindow 0x2A49).wf = false := by decide

theorem test_wf_refuses_dam_outside_row :
    (Instr.dam 0xF7).wf = false ∧ (Instr.dam 0xFC).wf = false := by decide

theorem test_wf_refuses_known_mark_as_unknown :
    (Instr.markUnknown 0xF8).wf = false ∧ (Instr.markUnknown 0xFE).wf = false := by decide

theorem test_wf_refuses_sync_as_data :
    (Instr.encData 0xA1 true).wf = false ∧ (Instr.encData 0xC2 true).wf = false := by decide

theorem test_wf_refuses_too_large_capacity :
    Config.Params.wf { Config.defaultParams with bytesCap := 2 ^ 32 } = false ∧
      Config.defaultParams.wf = true := by decide

/-! ### Decoding, from words written out bit by bit (R80 to R85, R70, R73, R76) -/

theorem test_decode_DEC_START :
    decodeTableWord 32 0b00000001_0000000000000000000000_1_0 = some (.decStart false true) := by decide

theorem test_decode_DEC_BIT :
    decodeTableWord 32 0b00000010_00000000000000000000000_1 = some (.decBit true) := by decide

theorem test_decode_DEC_BYTE :
    decodeTableWord 32 0b00000011_0000000000000000_10010011 = some (.decByte 0x93) := by decide

theorem test_decode_DEC_END :
    decodeTableWord 32 0b00000100_000000000000000000000000 = some .decEnd := by decide

theorem test_decode_ENC_START :
    decodeTableWord 32 0b00010000_00000000000000000000000_1 = some (.encStart true) := by decide

theorem test_decode_ENC_BYTE :
    decodeTableWord 32 0b00010001_000000000000000_1_10100001 = some (.encByte 0xA1 true) := by decide

theorem test_decode_CRC_LOAD :
    decodeTableWord 32 0b00100000_00000000_1100110110110100 = some (.crcLoad 0xCDB4) := by decide

theorem test_decode_CRC_BYTE :
    decodeTableWord 32 0b00100001_0000000000000000_11111110 = some (.crcByte 0xFE) := by decide

theorem test_decode_SYNC_A1 : decodeTableWord 16 0b1001000100100010 = some .syncA1 := by decide

theorem test_decode_MARK_C2 : decodeTableWord 16 0b0010010001001010 = some .markC2 := by decide

theorem test_decode_GAP_4E : decodeTableWord 16 0b0010101001001001 = some .gap4E := by decide

theorem test_decode_DATA_WINDOW :
    decodeTableWord 16 0b0010101001001000 = some (.dataWindow 0x2A48) := by decide

theorem test_decode_IDAM :
    decodeTableWord 8 0b11111100 = some .idamFc ∧ decodeTableWord 8 0b11111101 = some .idamFd ∧
      decodeTableWord 8 0b11111110 = some .idamFe := by decide

theorem test_decode_DAM :
    decodeTableWord 8 0b11111000 = some (.dam 0xF8) ∧
      decodeTableWord 8 0b11111011 = some (.dam 0xFB) := by decide

theorem test_decode_MARK_UNKNOWN :
    decodeTableWord 8 0b11110111 = some (.markUnknown 0xF7) ∧
      decodeTableWord 8 0b11111111 = some (.markUnknown 0xFF) := by decide

theorem test_decode_ENC_SYNC :
    decodeTableWord 9 0b1_10100001 = some .encSyncA1 ∧
      decodeTableWord 9 0b1_11000010 = some .encSyncC2 := by decide

theorem test_decode_ENC_DATA :
    decodeTableWord 9 0b1_01010101 = some (.encData 0x55 true) ∧
      decodeTableWord 9 0b0_10100001 = some (.encData 0xA1 false) := by decide

theorem test_decode_refuses :
    decodeCommand 0x05000000 = .error .reservedOpcode ∧
      decodeCommand 0x22000000 = .error .reservedOpcode ∧
      decodeCommand 0x01000004 = .error .reservedOperand ∧
      decodeCommand 0x04000001 = .error .reservedOperand ∧
      decodeCommand 0x11000200 = .error .reservedOperand := by decide

/-! ### The assembler and the pseudo-instructions (R89, R90) -/

theorem test_assemble :
    assemble "DEC_START 1,0" = some (.decStart true false) ∧
      assemble "ENC_BYTE 0xA1,1" = some (.encByte 0xA1 true) ∧
      assemble "DEC_BYTE 85" = some (.decByte 0x55) ∧ assemble "DEC_BIT 2" = none := by decide

theorem test_pseudo_words :
    pseudoWords (.decTrack true false [0x55]) = [0x01000001, 0x03000055, 0x04000000] ∧
      pseudoWords (.crcBytes 0xFFFF [0xA1]) = [0x2000FFFF, 0x210000A1] ∧
      pseudoWords (.encTrack true [(0xA1, true)]) = [0x10000001, 0x110001A1] := by decide

/-! ### Single steps, with the vectors of spec/95_test_vectors.md -/

/-- D1. -/
theorem test_DEC_START :
    (decAfter (exec (.decStart false true) (boxed (track [0x00])))).map
      (fun d => (d.trackLen, d.cnt, d.preserve)) = some (0, 16, true) := by decide

/-- D5. -/
theorem test_DEC_BIT :
    (decAfter (exec (.decBit false)
        (boxed fun d => { d with window := 0x9122, pos := 15, cnt := 1 }))).map
      (fun d => (d.window, d.cnt, trackRead d 0, syncRead d 0, d.trackLen)) =
      some (0x4891, 16, 0x14, false, 1) := by decide

/-- D4: no A1 before the window is full. -/
theorem test_DEC_BIT_window_not_full :
    (decAfter (exec (.decBit true)
        (boxed fun d => { d with window := 0x2244, pos := 14, cnt := 2 }))).map
      (fun d => (d.window, d.cnt, d.trackLen)) = some (0x9122, 1, 0) := by decide

/-- D3. -/
theorem test_DEC_BYTE :
    (decAfter (exec (.decByte 0x55)
        (boxed fun d => { d with window := 0x5500, pos := 8, cnt := 8 }))).map
      (fun d => (d.window, d.cnt, d.pos, trackRead d 0, d.trackLen)) =
      some (0x5555, 16, 16, 0x00, 1) := by decide

/-- R156: the field mark only, then DEC_END. -/
theorem test_DEC_END :
    (decAfter (exec .decEnd (boxed fun d =>
        { track [0x00, 0xFB] d with
          stage := .readData 0, openRec := some (opened .dataField 0xFB 2), curSector := 1 }))).map
      (fun d => (d.dstate, d.stage, d.catalog)) =
      some (.done, .idle, [⟨.dataField, 0xFB, 2, 0, .incomplete, 0, 0, 1⟩]) := by decide

/-- F12. -/
theorem test_DEC_END_empty :
    (decAfter (exec .decEnd box)).map (fun d => (d.dstate, d.trackLen, d.catalog)) =
      some (.done, 0, []) := by decide

/-- R191. -/
theorem test_ENC_START :
    (after (exec (.encStart true) { box with cw := 0x1234 })).map (fun t => (t.prev, t.cw)) =
      some (true, 0x0000) := by decide

/-- E2: (00, 0) after prev 1. -/
theorem test_ENC_BYTE :
    (after (exec (.encByte 0x00 false) { box with prev := true })).map (fun t => (t.prev, t.cw)) =
      some (false, 0x5554) := by decide

/-- E2: (55, 1): a sync bit on another byte is ignored. -/
theorem test_ENC_BYTE_sync_ignored :
    (after (exec (.encByte 0x55 true) box)).map (fun t => (t.prev, t.cw)) = some (true, 0x8889) := by
  decide

/-- R134. -/
theorem test_CRC_LOAD :
    (after (exec (.crcLoad 0xCDB4) box)).map (fun t => (t.crcPort, t.dec.crc)) =
      some (0xCDB4, 0xFFFF) := by decide

/-- R135. -/
theorem test_CRC_BYTE :
    (after (exec (.crcByte 0xA1) box)).map (fun t => (t.crcPort, t.dec.crc)) =
      some (0x443B, 0xFFFF) := by decide

/-- K5. -/
theorem test_crc_of_marks :
    crcUpd 0xCDB4 0xFE = 0xB230 ∧ crcUpd 0xCDB4 0xFB = 0xE295 ∧ crcUpd 0xCDB4 0xF8 = 0xD2F6 := by decide

/-- D8: the adjacent byte of PARTIAL_SET and the misphased zero run become 00; the gap byte stays. -/
theorem test_SYNC_A1_fixup :
    (decAfter (exec .syncA1 (boxed (track [0x90, 0xFF, 0xFF, 0x0A])))).map
      (fun d => (d.trackLen, (List.range 5).map (trackRead d), syncRead d 4, d.a1, d.crc)) =
      some (5, [0x90, 0x00, 0x00, 0x00, 0xA1], true, 1, 0x443B) := by decide

/-- M1: in preserve mode the A1 replaces the off-boundary C2. -/
theorem test_SYNC_A1_replaces :
    (decAfter (exec .syncA1 (boxed fun d =>
        { track [0x00, 0xC2] d with preserve := true, lastKind := .c2off, cnt := 12 }))).map
      (fun d => (d.trackLen, trackRead d 0, trackRead d 1, syncRead d 1)) =
      some (2, 0x00, 0xA1, true) := by decide

/-- D9. -/
theorem test_MARK_C2 :
    (decAfter (exec .markC2 (boxed fun d => { track [0x00] d with cnt := 1 }))).map
      (fun d => (trackRead d 1, syncRead d 1, d.lastKind, d.catalog)) =
      some (0xC2, true, .c2on, []) := by decide

/-- R153: a C2 after three A1s is an Unknown record. -/
theorem test_MARK_C2_as_mark :
    (decAfter (exec .markC2 (boxed fun d => { track [0x00] d with a1 := 3 }))).map (·.catalog) =
      some [⟨.unknown, 0xC2, 2, 0, .incomplete, 0, 0, 0⟩] := by decide

/-- R111. -/
theorem test_GAP_4E :
    (decAfter (exec .gap4E box)).map (fun d => (trackRead d 0, syncRead d 0, d.lastKind, d.cnt)) =
      some (0x4E, false, .data, 16) := by decide

/-- D6: demod(0x9522) = A1, without a sync bit and without a count. -/
theorem test_DATA_WINDOW :
    (decAfter (exec (.dataWindow 0x9522) box)).map (fun d => (trackRead d 0, syncRead d 0, d.a1)) =
      some (0xA1, false, 0) := by decide

/-- F10: an unknown mark after three A1s. -/
theorem test_DATA_WINDOW_as_mark :
    (decAfter (exec (.dataWindow 0x5555) (boxed fun d => { track [0xA1] d with a1 := 3 }))).map
      (·.catalog) = some [⟨.unknown, 0x00, 2, 0, .incomplete, 0, 0, 0⟩] := by decide

/-- R143 and K5. -/
theorem test_IDAM :
    [Instr.idamFc, .idamFd, .idamFe].map (fun i =>
      (decAfter (exec i (boxed fun d => { track [0xFE] d with crc := 0xCDB4 }))).map
        (fun d => (d.stage, d.openRec))) =
      [some (.readId 0, some ⟨.idField, 0xFC, 1⟩), some (.readId 0, some ⟨.idField, 0xFD, 1⟩),
        some (.readId 0, some ⟨.idField, 0xFE, 1⟩)] := by decide

/-- R148. -/
theorem test_DAM :
    (decAfter (exec (.dam 0xFB) (boxed fun d =>
        { track [0xFB] d with crc := 0xCDB4, lenKnown := true }))).map
      (fun d => (d.stage, d.crc, d.fieldEnd)) = some (.readData 0, 0xE295, 1) := by decide

/-- F8: a Data mark with no ID before it. -/
theorem test_DAM_displaced :
    (decAfter (exec (.dam 0xFB) (boxed (track [0xFB])))).map (fun d => (d.stage, d.catalog)) =
      some (.idle, [⟨.dataField, 0xFB, 1, 0, .incomplete, 0, 0, 0⟩]) := by decide

/-- F9. -/
theorem test_MARK_UNKNOWN :
    (decAfter (exec (.markUnknown 0xFF) (boxed (track [0xFF])))).map (fun d => (d.stage, d.catalog)) =
      some (.idle, [⟨.unknown, 0xFF, 1, 0, .incomplete, 0, 0, 0⟩]) := by decide

/-- E2: the sync codewords after prev 1. -/
theorem test_ENC_SYNC :
    (after (exec .encSyncA1 { box with prev := true })).map (fun t => (t.cw, t.prev)) =
        some (0x9122, true) ∧
      (after (exec .encSyncC2 { box with prev := true })).map (fun t => (t.cw, t.prev)) =
        some (0x244A, false) := by decide

/-- E2: (4E, 0) after prev 1, and (A1, 0). -/
theorem test_ENC_DATA :
    (after (exec (.encData 0x4E false) { box with prev := true })).map (·.cw) = some 0x2A48 ∧
      (after (exec (.encData 0xA1 false) box)).map (·.cw) = some 0x9522 := by decide

/-- R172 and R2: recovery rebuilds the sync run below the mark. -/
theorem test_recovery :
    (decAfter (exec (.dataWindow 0x2AAA) (boxed fun d =>
        { track [0x4E, 0x4E, 0x11, 0x22, 0x33] d with recover := true, fieldEnd := 1 }))).map
      (fun d => ((List.range 6).map (trackRead d), d.stage, d.crc)) =
      some ([0x4E, 0x00, 0xA1, 0xA1, 0xA1, 0xFE], .readId 0, 0xB230) := by decide

/-- A1: the example header is kept, Ok, with cylinder 1, side 1, sector 5. -/
theorem test_amiga_header :
    (decAfter (exec (.dataWindow 0xA5A5) (boxed fun d =>
        { d with
          stage := .amigaHeader 21
          hBuf := (#v[0xF1, 0x01, 0xF1, 0x32] : Vector Byte 4) ++ Vector.replicate 18 (0x00 : Byte) }))).map
      (fun d => d.catalog.map fun r => (r.kind, r.markByte, r.cylinder, r.side, r.sector)) =
      some [(.idField, 0xFF, 1, 1, 5)] := by decide

/-! ### Placing a word so that the very next step runs it (log entry 15) -/

theorem test_withFetchWord_command :
    (after (step (State.reset.withFetchWord 32 0x110001A1))).map (fun t => (t.cw, t.result, t.port)) =
      some (0x9122, 0x00, []) := by decide

theorem test_withFetchWord_window :
    (decAfter (step (State.reset.withFetchWord 16 0x9122))).map
        (fun d => (trackRead d 0, syncRead d 0, d.a1)) = some (0xA1, true, 1) ∧
      (decAfter (step (State.reset.withFetchWord 16 0x244A))).map
        (fun d => (trackRead d 0, syncRead d 0)) = some (0xC2, true) := by decide

theorem test_withFetchWord_mark :
    (decAfter (step (State.reset.withFetchWord 8 0xFD))).map (·.openRec) =
        some (some ⟨.idField, 0xFD, 1⟩) ∧
      (decAfter (step (State.reset.withFetchWord 8 0x00))).map (·.catalog) =
        some [⟨.unknown, 0x00, 1, 0, .incomplete, 0, 0, 0⟩] := by decide

theorem test_withFetchWord_selector :
    (after (step (State.reset.withFetchWord 9 0x1C2))).map (·.cw) = some 0x244A := by decide

/-! ### The two capacity faults and the refusals, as outcomes of a step (R202 to R205) -/

theorem test_witness_ThreeOutcomes :
    codeAfter (step { box with port := [0x04000000] }) = some 0x00 ∧
      codeAfter (step { box with port := [0x00000000] }) = some 0x01 ∧
      codeAfter (step { box with port := [0x02000002] }) = some 0x02 ∧
      codeAfter (step { boxed (fun d => { d with dstate := .done }) with port := [0x04000000] }) =
        some 0x03 ∧
      codeAfter (step { boxed (fun d => { d with cnt := 1, trackLen := 24 }) with port := [0x02000000] }) =
        some 0x10 ∧
      (let r : SectorRecord := ⟨.unknown, 0, 0, 0, .incomplete, 0, 0, 0⟩
       codeAfter (step { boxed (fun d =>
         { d with stage := .readId 1, openRec := some (opened .idField 0xFE 0), catalog := [r, r] })
           with port := [0x04000000] }) = some 0x11) := by decide

/-! ### Witnesses: states that meet the hypotheses of the statements -/

theorem test_witness_DecodeInvertsEncode :
    (Instr.dataWindow 0x9123).wf = true ∧ (Instr.dam 0xF8).wf = true ∧ (Instr.dam 0xFB).wf = true ∧
      (Instr.markUnknown 0xF7).wf = true ∧ (Instr.markUnknown 0xFF).wf = true ∧
      (Instr.encData 0xA1 false).wf = true ∧ (Instr.encData 0xFF true).wf = true := by decide

theorem test_witness_EncodeInvertsDecode :
    decode (.command32 0x11000155) = .ok (.encByte 0x55 true) ∧
      decode (.window16 0x0000) = .ok (.dataWindow 0x0000) ∧
      decode (.mark8 0xF7) = .ok (.markUnknown 0xF7) ∧
      decode (.encsel9 0x1FF) = .ok (.encData 0xFF true) := by decide

theorem test_witness_ReservedWordsRefused :
    (([0x00000000, 0x05FFFFFF, 0x22000000, 0xFF000000] : List Word).all fun w =>
        decide ((w.extractLsb' 24 8 : Byte) ∉ [0x01, 0x02, 0x03, 0x04, 0x10, 0x11, 0x20, 0x21])) = true ∧
      (([0x01000004, 0x02000002, 0x03000100, 0x04000001, 0x10000002, 0x11000200, 0x20010000,
          0x21000100] : List Word).all fun w =>
        decide ((w.extractLsb' 24 8 : Byte) ∈ [0x01, 0x02, 0x03, 0x04, 0x10, 0x11, 0x20, 0x21]) &&
          commandRows.all fun r => decide (w &&& r.maskBits ≠ r.matchBits)) = true := by decide

theorem test_witness_RefusalAndFaultPriority :
    (let w : Word := 0x03000155
     let s := { boxed (fun d => { d with dstate := .done }) with port := [w] }
     s.port = [w] ∧ s.dec.dstate = .done ∧ w.extractLsb' 24 8 = (0x03 : Byte) ∧
       w.extractLsb' 8 16 ≠ (0 : Half)) ∧
    (let r : SectorRecord := ⟨.unknown, 0, 0, 0, .incomplete, 0, 0, 0⟩
     let s := boxed fun d =>
       { d with stage := .readId 2, openRec := some (opened .idField 0xFE 0), trackLen := 24, catalog := [r, r] }
     s.dec.dstate = .active ∧ s.dec.stage.openField = true ∧
       s.dec.catalog.length = s.cfg.catalogCap ∧ s.dec.trackLen = s.cfg.bytesCap) ∧
    (let s := boxed fun d => { d with trackLen := 24, lastKind := .data }
     s.dec.dstate = .active ∧ s.dec.stage = .idle ∧ s.dec.trackLen = s.cfg.bytesCap ∧
       ¬ (s.dec.lastKind = .c2off ∧ s.dec.cnt ≠ 1)) := by decide

theorem test_witness_StepRunsDecodedCommand :
    box.port = [] ∧
      ({ box with port := [0x04000000] } : State).port = [0x04000000] ∧
      decodeCommand 0x04000000 = .ok .decEnd ∧ decodeCommand 0x04000001 = .error .reservedOperand := by
  decide

theorem test_witness_ResultCodesOnly :
    (after (exec (.decBit true) box)).isSome ∧ ({ box with port := [0x00000000] } : State).port ≠ [] ∧
      (after (step { box with port := [0x00000000] })).isSome := by decide

theorem test_witness_DecoderDoneRefused :
    isDecoderInstr .decEnd = true ∧ isDecStart .decEnd = false ∧ isDecoderInstr .syncA1 = true ∧
      (boxed fun d => { d with dstate := .done }).dec.dstate = .done := by decide

theorem test_witness_FaultDiscardsCommand :
    (let s := boxed fun d => { d with cnt := 8, pos := 40, lastKind := .data, trackLen := 24 }
     s.dec.dstate = .active ∧ 1 ≤ s.dec.cnt ∧ s.dec.cnt ≤ 8 ∧ s.dec.lastKind ≠ .c2off ∧
       s.dec.stage.openField = false ∧ s.dec.trackLen = s.cfg.bytesCap) ∧
    (let s := boxed fun d =>
       { d with cnt := 1, pos := 400, lastKind := .a1, trackLen := 24, stage := .readId 0 }
     s.dec.dstate = .active ∧ 1 ≤ s.dec.cnt ∧ s.dec.cnt ≤ 8 ∧ s.dec.lastKind ≠ .c2off ∧
       s.dec.stage.openField = true ∧ s.dec.catalog.length < s.cfg.catalogCap ∧
       s.dec.trackLen = s.cfg.bytesCap) ∧
    (let r : SectorRecord := ⟨.unknown, 0, 0, 0, .incomplete, 0, 0, 0⟩
     let s := boxed fun d =>
       { d with stage := .amigaData 3, openRec := some (opened .dataField 0xFF 0), catalog := [r, r] }
     s.dec.dstate = .active ∧ s.dec.stage.openField = true ∧
       s.dec.catalog.length = s.cfg.catalogCap) := by decide

/-- With the byte memory full: an ordinary window, which is on the boundary. -/
theorem test_witness_FaultDiscardsCommand_data :
    let s := boxed fun d => { d with cnt := 1, pos := 100, window := 0xAAAA, trackLen := 24 }
    s.dec.dstate = .active ∧ s.dec.trackLen = s.cfg.bytesCap ∧
      completesForm s.cfg false s.dec (.dataWindow 0x5555) :=
  ⟨rfl, rfl, .inr (.inr (.inr (by decide)))⟩

/-- With the byte memory full: a C2 off the boundary, in preserve mode. -/
theorem test_witness_FaultDiscardsCommand_C2 :
    let s := boxed fun d =>
      { d with cnt := 5, pos := 40, window := 0x4894, preserve := true, trackLen := 24 }
    s.dec.dstate = .active ∧ s.dec.trackLen = s.cfg.bytesCap ∧
      completesForm s.cfg false s.dec .markC2 :=
  ⟨rfl, rfl, .inr (.inl ⟨rfl, by decide, by decide⟩)⟩

theorem test_witness_DecStartResult :
    let w : Word := 0x01000004
    w.extractLsb' 24 8 = (0x01 : Byte) ∧ w.extractLsb' 2 22 ≠ (0 : BitVec 22) := by decide

theorem test_witness_EncStartResult :
    let w : Word := 0x10000002
    w.extractLsb' 24 8 = (0x10 : Byte) ∧ w.extractLsb' 1 23 ≠ (0 : BitVec 23) := by decide

theorem test_witness_EncByteResult :
    let w : Word := 0x11000200
    w.extractLsb' 24 8 = (0x11 : Byte) ∧ w.extractLsb' 9 15 ≠ (0 : BitVec 15) := by decide

theorem test_witness_EncSelectionResults :
    decode (.encsel9 (BitVec.ofBool true ++ (0xC2 : Byte))) = .ok .encSyncC2 ∧
      decode (.encsel9 (BitVec.ofBool false ++ (0xC2 : Byte))) = .ok (.encData 0xC2 false) := by decide

theorem test_witness_EncodedTrackHasNoAdjacentOnes :
    ({ box with prev := true } : State).prev = true ∧
      (channelStream (encodeRun [(0x00, false), (0xA1, true)] { box with prev := true })).length = 32 := by
  decide

theorem test_witness_SyncWindowsAbsentFromData :
    (∀ x ∈ ([(0x14, false), (0x29, true)] : List (Byte × Bool)), isEncData x.1 x.2 = true) ∧
      16 + 16 ≤ (channelStream (encodeRun [(0x14, false), (0x29, true)] box)).length := by decide +kernel

theorem test_witness_LegalTrackRoundTrip :
    (∀ x ∈ ([(0x4E, false), (0xA1, false)] : List (Byte × Bool)), isEncData x.1 x.2 = true) ∧
      ([(0x4E, false), (0xA1, false)] : List (Byte × Bool)).length ≤ box.cfg.bytesCap := by decide +kernel

theorem test_witness_CodewordReachesWindow :
    let s := { boxed (track [0x00]) with cfg := { box.cfg with bytesCap := 17, catalogCap := 16 } }
    s.dec.dstate = .active ∧ s.dec.trackLen + 16 ≤ s.cfg.bytesCap ∧
      s.dec.catalog.length + 16 ≤ s.cfg.catalogCap := by decide

theorem test_witness_CrcLoadResult :
    let w : Word := 0x20010000
    w.extractLsb' 24 8 = (0x20 : Byte) ∧ w.extractLsb' 16 8 ≠ (0 : Byte) := by decide

theorem test_witness_CrcByteResult :
    let w : Word := 0x21000100
    w.extractLsb' 24 8 = (0x21 : Byte) ∧ w.extractLsb' 8 16 ≠ (0 : Half) := by decide

/-- No form: the second bit of a track. -/
theorem test_witness_no_form_completed : ∀ i, ¬ completesForm box.cfg true box.dec i := by
  rintro i (⟨-, h, -⟩ | ⟨-, h, -⟩ | ⟨-, h, -⟩ | ⟨-, h, -⟩)
  · exact absurd h (by decide)
  · exact absurd h.1 (by decide)
  · exact absurd h.1 (by decide)
  · exact absurd h (by decide)

/-- An A1 off the boundary, on the first bit at which the window is full. -/
theorem test_witness_A1_completed :
    let s := boxed fun d => { d with window := 0x2244, pos := 15, cnt := 9 }
    s.dec.dstate = .active ∧ completesForm s.cfg true s.dec .syncA1 :=
  ⟨rfl, .inl (by decide)⟩

/-- A C2 off the boundary in preserve mode. -/
theorem test_witness_C2_completed :
    let s := boxed fun d => { d with window := 0x4894, pos := 15, cnt := 9, preserve := true }
    s.dec.dstate = .active ∧ completesForm s.cfg false s.dec .markC2 :=
  ⟨rfl, .inr (.inl ⟨rfl, by decide, by decide⟩)⟩

/-- A 4E on the boundary. -/
theorem test_witness_4E_completed :
    let s := boxed fun d => { d with window := 0x5492, pos := 15, cnt := 1 }
    s.dec.dstate = .active ∧ completesForm s.cfg false s.dec .gap4E :=
  ⟨rfl, .inr (.inr (.inl ⟨rfl, by decide, by decide⟩))⟩

/-- An ordinary window on the boundary. -/
theorem test_witness_data_completed :
    let s := boxed fun d => { d with window := 0xAAAA, pos := 15, cnt := 1 }
    s.dec.dstate = .active ∧ completesForm s.cfg false s.dec (.dataWindow 0x5555) :=
  ⟨rfl, .inr (.inr (.inr (by decide)))⟩

theorem test_witness_DecBitCompletes :
    let s := boxed fun d => { track (List.replicate 23 0x00) d with cnt := 1 }
    s.dec.dstate = .active ∧ s.dec.trackLen < s.cfg.bytesCap ∧
      s.dec.catalog.length < s.cfg.catalogCap := by decide

theorem test_witness_DecByteIsEightDecBits :
    (let s := { box with cfg := { box.cfg with bytesCap := 8, catalogCap := 8 } }
     s.dec.dstate = .active ∧ s.dec.trackLen + 8 ≤ s.cfg.bytesCap ∧
       s.dec.catalog.length + 8 ≤ s.cfg.catalogCap) ∧
    codeAfter (runInstrs ((channelBits 0x55).map .decBit) box) = some 0x00 := by decide

/-- Two bytes in one DEC_BYTE: a due boundary and an A1 (R107). -/
theorem test_witness_DecByteEmitsAtMostTwoBytes :
    (decAfter (exec (.decByte 0x48)
        (boxed fun d => { d with window := 0x8800, pos := 100, cnt := 1 }))).map (·.trackLen) = some 1 ∧
      (decAfter (exec (.decByte 0x91)
        (boxed fun d => { d with window := 0x2200, pos := 100, cnt := 1 }))).map
        (fun d => (d.trackLen, d.a1)) = some (2, 1) := by decide

/-- Idle, after another A1, with a byte of room. -/
theorem test_witness_SyncA1Result_append :
    let s := boxed fun d => { track (List.replicate 23 0x00) d with a1 := 3, lastKind := .a1 }
    s.dec.dstate = .active ∧ s.dec.stage.openField = false ∧
      ¬ (s.dec.lastKind = .c2off ∧ s.dec.cnt ≠ 1) ∧ 23 = s.dec.trackLen ∧ 23 < s.cfg.bytesCap := by decide

/-- An open field, with a record of room, and an off-boundary C2 to replace. -/
theorem test_witness_SyncA1Result_replace :
    let s := boxed fun d =>
      { track [0x00, 0xFE, 0xC2] d with
        stage := .readId 1, openRec := some (opened .idField 0xFE 2), lastKind := .c2off, cnt := 12,
        preserve := true, fieldEnd := 3 }
    s.dec.dstate = .active ∧ s.dec.stage.openField = true ∧
      s.dec.openRec = some (opened .idField 0xFE 2) ∧ s.dec.catalog.length < s.cfg.catalogCap ∧
      s.dec.lastKind = .c2off ∧ s.dec.cnt ≠ 1 ∧ 2 + 1 = s.dec.trackLen := by decide

/-- The zero run and a byte outside it. -/
theorem test_witness_zero_run :
    let d := track [0x4E, 0x00, 0xFF, 0x0A] box.dec
    inZeroRun box.cfg 4 1 d ∧ ¬ inZeroRun box.cfg 4 0 d := by
  refine ⟨⟨rfl, rfl, by decide, by decide, fun q h1 h2 => ?_⟩, fun h => ?_⟩
  · interval_cases q <;> decide
  · have := h.2.2.2.2 0 (by decide) (by decide)
    revert this
    decide

theorem test_witness_GapBytesAppended :
    let s := boxed fun d => { track (List.replicate 23 0x00) d with a1 := 1 }
    s.dec.dstate = .active ∧ s.dec.trackLen < s.cfg.bytesCap ∧
      ∀ v ∈ ([0xC2, 0x4E, 0xF7, 0xFE] : List Byte), gapByte s.cfg v s.dec := by decide

theorem test_witness_GapBytesAppended_recover :
    let s := boxed fun d => { d with recover := true, a1 := 2 }
    ∀ v ∈ ([0xC2, 0x4E, 0xF7, 0xFF] : List Byte), gapByte s.cfg v s.dec := by decide

theorem test_witness_GapBytesAppended_two_syncs :
    let s := boxed fun d => { d with a1 := 2 }
    ∀ v ∈ ([0xF8, 0xFE] : List Byte), gapByte s.cfg v s.dec := by decide

theorem test_witness_GapWindowsAgainstOrdinary :
    (box.dec.syncBits.wf = true ∧ box.dec.dstate = .active ∧
      codeAfter (exec (.dataWindow 0x244A) box) = some 0x00) ∧
    (box.dec.preserve = false ∧ box.dec.lastKind ≠ .c2off ∧
      (after (step { box with port := [0x02000001] })).isSome) := by decide

theorem test_witness_mark_forms :
    (let s := boxed (track [0xFB])
     s.dec.dstate = .active ∧ s.dec.lenKnown = false ∧ s.dec.catalog.length < s.cfg.catalogCap ∧
       isDataMark 0xF8 = true ∧ isDataMark 0xFB = true ∧ isUnknownMark 0xF7 = true ∧
       isUnknownMark 0xFF = true) ∧
    (let s := boxed fun d => { track [0xFB] d with lenKnown := true }
     s.dec.dstate = .active ∧ s.dec.lenKnown = true) := by decide

theorem test_witness_MarkAfterThreeSyncs :
    let s := boxed fun d => { track (List.replicate 23 0xA1) d with a1 := 3 }
    s.dec.dstate = .active ∧ s.dec.stage = .idle ∧ s.dec.a1 = 3 ∧ s.dec.trackLen < s.cfg.bytesCap ∧
      s.dec.catalog.length < s.cfg.catalogCap ∧ decode (.mark8 (demod 0x2AAA)) = .ok .idamFe := by decide

theorem test_witness_RecoveryRebuildsSync :
    let s := boxed fun d => { track (List.replicate 20 0x4E) d with recover := true, a1 := 2, fieldEnd := 5 }
    s.dec.dstate = .active ∧ s.dec.recover = true ∧ s.dec.stage = .idle ∧ s.dec.a1 ≠ 3 ∧
      (0xF8 ≤ (demod 0x52AA).toNat ∧ (demod 0x52AA).toNat ≤ 0xFE) ∧
      decode (.mark8 (demod 0x52AA)) = .ok (.dam 0xF8) ∧ decode (.mark8 (demod 0x2AAA)) = .ok .idamFe ∧
      s.dec.trackLen < s.cfg.bytesCap ∧ s.dec.catalog.length < s.cfg.catalogCap := by decide

/-- A block in the given stage, with room for one more byte. -/
def inStage (st : Stage) : State :=
  boxed fun d =>
    { track (List.replicate 23 0x00) d with stage := st, openRec := some (opened .idField 0xFE 20) }

theorem test_witness_field_bytes :
    (inStage (.readId 0)).dec.dstate = .active ∧
      (inStage (.readId 0)).dec.trackLen < (inStage (.readId 0)).cfg.bytesCap ∧
      (inStage (.readId 0)).dec.stage = .readId (Fin.castSucc (0 : Fin 3)) ∧
      (inStage (.readId 2)).dec.stage = .readId (Fin.castSucc (2 : Fin 3)) ∧
      (inStage (.readId 3)).dec.stage = .readId 3 ∧
      (inStage (.readIdCrc 0)).dec.stage = .readIdCrc 0 ∧
      (inStage (.readIdCrc 1)).dec.stage = .readIdCrc 1 ∧
      (inStage (.readIdCrc 1)).dec.openRec = some (opened .idField 0xFE 20) ∧
      (inStage (.readIdCrc 1)).dec.catalog.length < (inStage (.readIdCrc 1)).cfg.catalogCap ∧
      (inStage (.readData 126)).dec.stage = .readData 126 ∧
      (inStage (.readData 127)).dec.stage = .readData 127 ∧
      (inStage (.readDataCrc 0)).dec.stage = .readDataCrc 0 ∧
      (inStage (.readDataCrc 1)).dec.stage = .readDataCrc 1 := by decide

theorem test_witness_WholeIdFieldRecorded :
    let s := boxed fun d =>
      { track (List.replicate 18 0x00) d with stage := .readId 0, openRec := some (opened .idField 0xFE 18) }
    s.dec.dstate = .active ∧ s.dec.stage = .readId 0 ∧ s.dec.openRec = some (opened .idField 0xFE 18) ∧
      s.dec.trackLen + 6 ≤ s.cfg.bytesCap ∧ s.dec.catalog.length < s.cfg.catalogCap := by decide

theorem test_witness_WholeDataFieldRecorded :
    let s := { boxed (fun d =>
        { d with stage := .readData 0, openRec := some (opened .dataField 0xFB 0), lenKnown := true }) with
      cfg := { box.cfg with bytesCap := 130 } }
    let data : List Half := List.replicate 128 0x5555
    s.dec.dstate = .active ∧ s.dec.stage = .readData 0 ∧
      s.dec.openRec = some (opened .dataField 0xFB 0) ∧
      data.length = 128 <<< (s.dec.curSize &&& 7).toNat ∧
      s.dec.trackLen + data.length + 2 ≤ s.cfg.bytesCap ∧
      s.dec.catalog.length < s.cfg.catalogCap := by decide +kernel

theorem test_witness_AmigaHeaderBytes :
    (let s := boxed fun d => { track (List.replicate 23 0x00) d with a1 := 2 }
     s.dec.dstate = .active ∧ s.dec.trackLen < s.cfg.bytesCap ∧ s.dec.recover = false ∧
       s.dec.stage = .idle ∧ s.dec.a1 = 2 ∧
       ¬ (0xF8 ≤ (demod 0xA2AA).toNat ∧ (demod 0xA2AA).toNat ≤ 0xFE ∧ demod 0xA2AA ≠ 0xFB) ∧
       ¬ (0xF8 ≤ (demod 0xAAAA).toNat ∧ (demod 0xAAAA).toNat ≤ 0xFE)) ∧
    (let s := { boxed (fun d => { d with a1 := 2 }) with cfg := { box.cfg with amigaTriggerAny := true } }
     s.cfg.amigaTriggerAny = true ∧ s.dec.a1 = 2) ∧
    (inStage (.amigaHeader 1)).dec.stage = .amigaHeader (Fin.castSucc (1 : Fin 21)) ∧
    (inStage (.amigaHeader 20)).dec.stage = .amigaHeader (Fin.castSucc (20 : Fin 21)) := by decide

/-- The example header of R179, kept, and with another format byte (A2), abandoned. -/
theorem test_witness_AmigaHeaderDone :
    (let s := inStage (.amigaHeader 21)
     s.dec.dstate = .active ∧ s.dec.trackLen < s.cfg.bytesCap ∧ s.dec.stage = .amigaHeader 21 ∧
       s.dec.catalog.length < s.cfg.catalogCap) ∧
    (let i := amigaInfo (infoWord ((#v[0xF1, 0x01, 0xF1, 0x32] : Vector Byte 4) ++ Vector.replicate 18 (0x00 : Byte)))
     i.fmt = box.cfg.amigaFormatMark ∧ i.cyl.toNat ≤ box.cfg.amigaMaxCyl ∧
       i.sec.toNat ≤ box.cfg.amigaMaxSector) ∧
    (let i := amigaInfo (infoWord ((#v[0xF1, 0x01, 0xE1, 0x32] : Vector Byte 4) ++ Vector.replicate 18 (0x00 : Byte)))
     i.fmt ≠ box.cfg.amigaFormatMark) := by decide

theorem test_witness_AmigaDataBytes :
    (inStage (.amigaData 0)).dec.stage = .amigaData 0 ∧
      (inStage (.amigaData 510)).dec.stage = .amigaData 510 ∧
      (inStage (.amigaData 511)).dec.stage = .amigaData 511 ∧
      (inStage (.amigaData 511)).dec.openRec = some (opened .idField 0xFE 20) ∧
      (inStage (.amigaData 511)).dec.dstate = .active ∧
      (inStage (.amigaData 511)).dec.trackLen < (inStage (.amigaData 511)).cfg.bytesCap ∧
      (inStage (.amigaData 511)).dec.catalog.length < (inStage (.amigaData 511)).cfg.catalogCap := by decide

theorem test_witness_DecEndResult :
    box.dec.dstate = .active ∧ box.dec.stage = .idle ∧
      (inStage (.readId 3)).dec.stage ≠ .idle ∧ (inStage (.readId 3)).dec.stage.openField = true ∧
      (inStage (.readId 3)).dec.openRec = some (opened .idField 0xFE 20) ∧
      (inStage (.amigaHeader 1)).dec.stage ≠ .idle ∧
      (inStage (.amigaHeader 1)).dec.stage.openField = false := by decide

/-- A good state in the middle of an ID field, with a command on the port. -/
def midField : State :=
  { boxed (fun d =>
      { track [0xFE, 0x05] d with
        stage := .readId 1, openRec := some (opened .idField 0xFE 1), fieldEnd := 2, cnt := 1 }) with
    port := [0x02000001] }

theorem test_witness_StepKeepsInvariant :
    StateInv midField ∧ (decAfter (step midField)).map (·.stage) = some (.readId 2) := by
  refine ⟨⟨⟨⟨by decide, by decide, by decide, by decide, by decide⟩, by decide, by decide, by decide,
    by decide, ?_, ?_, ?_, ?_, by decide, by decide⟩, by decide⟩, by decide⟩
  · intro k h; exact absurd h (by simp [midField, boxed])
  · intro k h; exact absurd h (by simp [midField, boxed])
  · intro k h; exact absurd h (by simp [midField, boxed])
  · intro n h
    have h2 : fieldReach midField.dec = some 2 := by decide
    rw [h2] at h
    cases h
    decide

theorem test_witness_DoneTrackIsFinal :
    (boxed fun d => { d with dstate := .done }).dec.dstate = .done ∧ isDecStart .decEnd = false ∧
      (after (exec .decEnd (boxed fun d => { d with dstate := .done }))).isSome ∧
      codeAfter (exec (.decBit true) (boxed fun d => { d with cnt := 1, trackLen := 24 })) = some 0x10 := by
  decide

theorem test_witness_DatapathsShareNoRegister :
    (after (exec .syncA1 box)).isSome ∧ isEncoderInstr .syncA1 = false ∧ isCrcInstr .syncA1 = false ∧
      (after (exec .encSyncC2 box)).isSome ∧ isDecoderInstr .encSyncC2 = false := by decide

theorem test_witness_DatapathInstrsCommute :
    isDecoderInstr .syncA1 ≠ isDecoderInstr .encSyncA1 ∧ isDecoderInstr .decEnd ≠ isDecoderInstr (.crcByte 0) ∧
      isEncoderInstr (.encStart true) ≠ isEncoderInstr (.crcLoad 0) ∧ isDecoderInstr .decEnd = true ∧
      isEncoderInstr (.encStart true) = true ∧ isCrcInstr (.crcLoad 0) = true := by decide

theorem test_witness_TrackOnlyGrows :
    isDecStart .markC2 = false ∧ (decAfter (exec .markC2 box)).map (·.trackLen) = some 1 := by decide

/-- The last byte below fieldEnd; and below an off-boundary C2. -/
theorem test_witness_FieldBytesStable :
    (let s := boxed fun d => { track [0xFE, 0x05] d with fieldEnd := 2 }
     isDecStart .syncA1 = false ∧ s.dec.fieldEnd ≤ s.dec.trackLen ∧ (after (exec .syncA1 s)).isSome ∧
       1 < s.dec.fieldEnd ∧ s.dec.lastKind ≠ .c2off) ∧
    (let s := boxed fun d => { track [0xFE, 0x05, 0xC2] d with fieldEnd := 3, lastKind := .c2off }
     s.dec.fieldEnd ≤ s.dec.trackLen ∧ 1 < s.dec.fieldEnd ∧ 1 + 1 < s.dec.trackLen ∧
       (after (exec .syncA1 s)).isSome) := by decide

theorem test_witness_PosCountsAndFlagsHold :
    codeAfter (exec (.decBit true) box) = some 0x00 ∧ codeAfter (exec (.decByte 0xFF) box) = some 0x00 ∧
      codeAfter (exec (.decByte 0xFF) (boxed fun d => { d with dstate := .done })) = some 0x03 ∧
      isDecStart .decEnd = false := by decide

theorem test_witness_PackedSyncBitmap :
    (syncBitmap (trackAppend 0xA1 true (track (List.replicate 8 0x00) box.dec))) = [0x00, 0x01] := by decide

theorem test_witness_ReadPorts_RecordReadout :
    let r : SectorRecord := ⟨.dataField, 0xFB, 64, 512, .ok, 0, 0, 1⟩
    let s := boxed fun d => { track [0x77] d with catalog := [r] }
    0 < s.dec.catalog.length ∧ readCatRec 0 s = ⟨0x0000FB01, 1, 64, 512⟩ ∧ readCatRec 1 s = ⟨0, 0, 0, 0⟩ ∧
      readTrackByte 0 s = 0x77 ∧ readTrackByte 1 s = 0 ∧ r.offset < 2 ^ 32 ∧ r.length < 2 ^ 32 := by decide

theorem test_witness_InstancesIndependent :
    let bs := [box, { box with port := [0x04000000] }]
    bs[1]? = some { box with port := [0x04000000] } ∧ (0 : Nat) ≠ 1 ∧
      (match stepInstance 1 bs with | .next cs => cs.length == 2 | _ => false) = true := by decide

end Sys2Proof.Tests
end

/-! # Scope: the datapaths, and the ID field that is recorded whole -/

namespace Sys2Proof.Machine

open Sys2Proof.Config

/-! ### The datapaths

What an instruction of each datapath does to the state, as a function of that datapath's registers alone
(00_scope.md R3, 60_exceptions.md R211). -/

/-- The decoder and the RESULT code that a decoder command leaves: refused while Done, else its operation
taken whole or discarded (R202 to R204). -/
def decoderOutcome (op : Params → Decoder → Except Fault Decoder) (c : Params) (d : Decoder) :
    Decoder × Byte :=
  match d.dstate with
  | .done => (d, refuseCode .decoderDone)
  | .active =>
    match op c d with
    | .ok e => (e, okCode)
    | .error f => ({ d with dstate := .done }, faultCode f)

/-- A decoder command reads the parameters and the decoder, and writes the decoder and RESULT. -/
theorem decoderCommand_eq (op : Params → Decoder → Except Fault Decoder) (s : State) :
    decoderCommand op s = .next { s with
      dec := (decoderOutcome op s.cfg s.dec).1
      result := (decoderOutcome op s.cfg s.dec).2 } := by
  unfold decoderOutcome
  cases hd : s.dec.dstate with
  | done => rw [decoderCommand_done hd]; rfl
  | active =>
    cases hop : op s.cfg s.dec with
    | ok e => rw [decoderCommand_ok hd hop]; rfl
    | error f => rw [decoderCommand_error hd hop]; rfl

/-- An instruction of the decoder's datapath reads the parameters and the decoder, and writes the decoder and
RESULT. -/
theorem exec_decoderInstr {i : Instr} (h : isDecoderInstr i = true) :
    ∃ f : Params → Decoder → Decoder × Byte, ∀ s,
      exec i s = .next { s with dec := (f s.cfg s.dec).1, result := (f s.cfg s.dec).2 } := by
  have command (op : Params → Decoder → Except Fault Decoder) :
      ∃ f : Params → Decoder → Decoder × Byte, ∀ s,
      decoderCommand op s = .next { s with dec := (f s.cfg s.dec).1, result := (f s.cfg s.dec).2 } :=
    ⟨decoderOutcome op, decoderCommand_eq op⟩
  cases i with
  | decStart recover preserve => exact ⟨fun _ _ => (Decoder.start recover preserve, okCode), fun _ => rfl⟩
  | decBit b => exact command fun c => stepBit c b
  | decByte x => exact command fun c => stepBits c (channelBits x)
  | decEnd => exact command endTrack
  | syncA1 => exact command fun c => runWindow c .syncA1
  | markC2 => exact command fun c => runWindow c .markC2
  | gap4E => exact command fun c => runWindow c .gap4E
  | dataWindow w => exact command fun c => runWindow c (.dataWindow w)
  | idamFc => exact command (markForm .idamFc)
  | idamFd => exact command (markForm .idamFd)
  | idamFe => exact command (markForm .idamFe)
  | dam v => exact command (markForm (.dam v))
  | markUnknown v => exact command (markForm (.unknown v))
  | encStart | encByte | crcLoad | crcByte | encSyncA1 | encSyncC2 | encData => cases h

/-- An instruction of the encoder's datapath reads prev, and writes prev, cw and RESULT (R191, R193). -/
theorem exec_encoderInstr {i : Instr} (h : isEncoderInstr i = true) :
    ∃ f : Bool → Bool × Half, ∀ s,
      exec i s = .next (accept { s with prev := (f s.prev).1, cw := (f s.prev).2 }) := by
  have selection (form : EncForm) : ∃ f : Bool → Bool × Half, ∀ s,
      runEnc form s = .next (accept { s with prev := (f s.prev).1, cw := (f s.prev).2 }) :=
    ⟨fun q => ((codeword form q).getLsbD 15, codeword form q), fun _ => rfl⟩
  cases i with
  | encStart q => exact ⟨fun _ => (q, 0), fun _ => rfl⟩
  | encByte v y => exact selection (classifyEnc v y)
  | encSyncA1 => exact selection .syncA1
  | encSyncC2 => exact selection .syncC2
  | encData v y => exact selection (.data v y)
  | decStart | decBit | decByte | decEnd | crcLoad | crcByte | syncA1 | markC2 | gap4E | dataWindow | idamFc
  | idamFd | idamFe | dam | markUnknown => cases h

/-- A command of the CRC test port reads crcPort, and writes crcPort and RESULT (R134, R135). -/
theorem exec_crcInstr {i : Instr} (h : isCrcInstr i = true) :
    ∃ f : Half → Half, ∀ s, exec i s = .next (accept { s with crcPort := f s.crcPort }) := by
  cases i with
  | crcLoad value => exact ⟨fun _ => value, fun _ => rfl⟩
  | crcByte b => exact ⟨fun q => crcUpd q b, fun _ => rfl⟩
  | decStart | decBit | decByte | decEnd | encStart | encByte | syncA1 | markC2 | gap4E | dataWindow | idamFc
  | idamFd | idamFe | dam | markUnknown | encSyncA1 | encSyncC2 | encData => cases h

/-- Every instruction belongs to exactly one datapath (R3). -/
theorem datapath_cases (i : Instr) :
    (isDecoderInstr i = true ∧ isEncoderInstr i = false ∧ isCrcInstr i = false) ∨
      (isDecoderInstr i = false ∧ isEncoderInstr i = true ∧ isCrcInstr i = false) ∨
      (isDecoderInstr i = false ∧ isEncoderInstr i = false ∧ isCrcInstr i = true) := by
  cases i <;> simp [isCrcInstr, isDecoderInstr, isEncoderInstr]

/-- Settles O52: the three datapaths one by one, from what an instruction of each writes. -/
theorem datapathsShareNoRegister : Obligations.DatapathsShareNoRegister := by
  intro i s t h
  rcases datapath_cases i with ⟨hd, he, hc⟩ | ⟨hd, he, hc⟩ | ⟨hd, he, hc⟩
  · obtain ⟨f, hf⟩ := exec_decoderInstr hd
    cases (hf s).symm.trans h
    simp [hd]
  · obtain ⟨f, hf⟩ := exec_encoderInstr he
    cases (hf s).symm.trans h
    simp [he]
  · obtain ⟨f, hf⟩ := exec_crcInstr hc
    cases (hf s).symm.trans h
    simp [hc]

/-! ### A run of field bytes

A byte of an open field is appended as data and consumed by the field (43_field_parser.md R140). Here are the
instructions that run one after another, and the track after a whole run of such bytes. -/

/-- The next instruction of a run that goes on. -/
theorem runInstrs_cons {i : Instr} {is : List Instr} {s t : State} (h : exec i s = .next t) :
    runInstrs (i :: is) s = runInstrs is t := by
  simp [runInstrs, h]

/-- A run in two parts. -/
theorem runInstrs_append {is js : List Instr} {s t : State} (h : runInstrs is s = .next t) :
    runInstrs (is ++ js) s = runInstrs js t := by
  induction is generalizing s with
  | nil => cases h; rfl
  | cons i is ih =>
    cases hi : exec i s with
    | next u =>
      rw [runInstrs_cons hi] at h
      rw [List.cons_append, runInstrs_cons hi, ih h]
    | fault f => simp [runInstrs, hi] at h
    | refused r => simp [runInstrs, hi] at h

/-- The decoder when an open field has been given the data byte `v`, before the field acts on it: the byte is
appended, and fieldEnd takes it in (R108, R140). -/
def fieldByte (v : Byte) (d : Decoder) : Decoder :=
  { appendedByte v false .data d with fieldEnd := d.trackLen + 1 }

/-- The decoder when an open field has been given these data bytes. -/
def fieldBytes (vs : List Byte) (d : Decoder) : Decoder := vs.foldl (fun d v => fieldByte v d) d

/-- The same when the field has taken each of the bytes into its CRC too (R144, R145, R150). -/
def checkedBytes (vs : List Byte) (d : Decoder) : Decoder :=
  { fieldBytes vs d with crc := vs.foldl crcUpd d.crc }

@[simp] theorem fieldBytes_nil (d : Decoder) : fieldBytes [] d = d := rfl

@[simp] theorem fieldBytes_cons (v : Byte) (vs : List Byte) (d : Decoder) :
    fieldBytes (v :: vs) d = fieldBytes vs (fieldByte v d) := rfl

theorem fieldBytes_append (us vs : List Byte) (d : Decoder) :
    fieldBytes (us ++ vs) d = fieldBytes vs (fieldBytes us d) := List.foldl_append

/-- What a run of field bytes changes: the memories, and the registers that follow the end of the track. -/
theorem fieldBytes_eq (v : Byte) (vs : List Byte) (d : Decoder) :
    fieldBytes (v :: vs) d = { d with
      bytes := (fieldBytes (v :: vs) d).bytes
      syncBits := (fieldBytes (v :: vs) d).syncBits
      trackLen := d.trackLen + (vs.length + 1)
      lastKind := .data
      cnt := 16
      fieldEnd := d.trackLen + (vs.length + 1) } := by
  induction vs generalizing v d with
  | nil => rfl
  | cons u vs ih =>
    have hlen : (fieldByte v d).trackLen + (vs.length + 1) = d.trackLen + ((u :: vs).length + 1) := by
      simp only [fieldByte, appendedByte, List.length_cons]
      omega
    rw [fieldBytes_cons, ih u (fieldByte v d), hlen]
    rfl

@[simp] theorem fieldBytes_dstate (vs : List Byte) (d : Decoder) : (fieldBytes vs d).dstate = d.dstate := by
  cases vs with
  | nil => rfl
  | cons v vs => rw [fieldBytes_eq]

@[simp] theorem fieldBytes_openRec (vs : List Byte) (d : Decoder) : (fieldBytes vs d).openRec = d.openRec := by
  cases vs with
  | nil => rfl
  | cons v vs => rw [fieldBytes_eq]

@[simp] theorem fieldBytes_catalog (vs : List Byte) (d : Decoder) : (fieldBytes vs d).catalog = d.catalog := by
  cases vs with
  | nil => rfl
  | cons v vs => rw [fieldBytes_eq]

@[simp] theorem fieldBytes_trackLen (vs : List Byte) (d : Decoder) :
    (fieldBytes vs d).trackLen = d.trackLen + vs.length := by
  cases vs with
  | nil => rfl
  | cons v vs => rw [fieldBytes_eq]; rfl

theorem trackRead_fieldByte (v : Byte) (d : Decoder) (n : Nat) :
    trackRead (fieldByte v d) n = if n = d.trackLen then v else trackRead d n :=
  trackRead_append v false d n

theorem syncRead_fieldByte (v : Byte) (d : Decoder) (n : Nat) :
    syncRead (fieldByte v d) n = if n = d.trackLen then false else syncRead d n :=
  syncRead_append v false d n

/-- A run of field bytes stands in the track in order, from the old end of the track on. -/
theorem trackRead_fieldBytes (vs : List Byte) (d : Decoder) (n : Nat) :
    trackRead (fieldBytes vs d) n =
      if d.trackLen ≤ n ∧ n < d.trackLen + vs.length then vs.getD (n - d.trackLen) 0 else trackRead d n := by
  induction vs generalizing d with
  | nil => simp
  | cons v vs ih =>
    have hlen : (fieldByte v d).trackLen = d.trackLen + 1 := rfl
    rw [fieldBytes_cons, ih, trackRead_fieldByte, hlen, List.length_cons]
    rcases Nat.lt_trichotomy n d.trackLen with hbelow | rfl | habove
    · rw [if_neg (by omega), if_neg (by omega), if_neg (by omega)]
    · simp
    · rw [if_neg habove.ne', show n - d.trackLen = n - (d.trackLen + 1) + 1 by omega, List.getD_cons_succ]
      exact if_congr (by omega) rfl rfl

/-- A run of field bytes has no sync bit set. -/
theorem syncRead_fieldBytes (vs : List Byte) (d : Decoder) (n : Nat) :
    syncRead (fieldBytes vs d) n =
      if d.trackLen ≤ n ∧ n < d.trackLen + vs.length then false else syncRead d n := by
  induction vs generalizing d with
  | nil => exact (if_neg (by rw [List.length_nil]; omega)).symm
  | cons v vs ih =>
    have hlen : (fieldByte v d).trackLen = d.trackLen + 1 := rfl
    rw [fieldBytes_cons, ih, syncRead_fieldByte, hlen, List.length_cons]
    rcases Nat.lt_trichotomy n d.trackLen with hbelow | rfl | habove
    · rw [if_neg (by omega), if_neg (by omega), if_neg (by omega)]
    · simp
    · rw [if_neg habove.ne']
      exact if_congr (by omega) rfl rfl

/-! ### The ID field

Each byte of an ID field that reaches the parser through DATA_WINDOW, and the whole field
(43_field_parser.md R144 to R147, R154). -/

/-- One of the first three ID bytes is buffered (R144). -/
theorem idByte_buffers (k : Fin 3) (v : Byte) (d : Decoder) :
    idByte k.castSucc v d =
      { d with crc := crcUpd d.crc v, idBuf := d.idBuf.set k.val v k.isLt, stage := .readId k.succ } := by
  unfold idByte
  rw [dif_pos (show k.castSucc.val < 3 from k.isLt)]
  rfl

/-- The fourth ID byte latches the current-ID registers (R145). -/
theorem idByte_latches (v : Byte) (d : Decoder) :
    idByte 3 v d =
      { d with
        crc := crcUpd d.crc v
        curCyl := d.idBuf[0]
        curSide := d.idBuf[1]
        curSector := d.idBuf[2]
        curSize := v
        lenKnown := true
        stage := .readIdCrc 0 } := rfl

section

variable {w : Half} {v : Byte} {s : State}

/-- DATA_WINDOW with its byte named, so that two bytes are compared by their names and not as `demod`. -/
theorem execDataWindow_of_byte {d : Decoder} (hv : demod w = v) (ha : s.dec.dstate = .active)
    (room : s.dec.trackLen < s.cfg.bytesCap)
    (hc : consume s.cfg v s.dec.trackLen { trackAppend v false s.dec with lastKind := .data } = .ok d) :
    exec (.dataWindow w) s = .next { s with dec := restart d, result := 0x00 } :=
  execDataWindow_of_consume ha room (by rw [hv]; exact hc)

/-- DATA_WINDOW on one of the first three bytes of an ID field (R144). -/
theorem exec_dataWindow_idBuffer {k : Fin 3} (hv : demod w = v) (ha : s.dec.dstate = .active)
    (room : s.dec.trackLen < s.cfg.bytesCap) (hs : s.dec.stage = .readId k.castSucc) :
    exec (.dataWindow w) s = .next { s with
      dec := { checkedBytes [v] s.dec with
        idBuf := s.dec.idBuf.set k.val v k.isLt, stage := .readId k.succ }
      result := 0x00 } := by
  rw [execDataWindow_of_byte hv ha room (by simp only [consume, trackAppend_stage, hs, idByte_buffers]; rfl)]
  rfl

/-- DATA_WINDOW on the fourth byte of an ID field (R145). -/
theorem exec_dataWindow_idLatch (hv : demod w = v) (ha : s.dec.dstate = .active)
    (room : s.dec.trackLen < s.cfg.bytesCap) (hs : s.dec.stage = .readId 3) :
    exec (.dataWindow w) s = .next { s with
      dec := { checkedBytes [v] s.dec with
        curCyl := s.dec.idBuf[0]
        curSide := s.dec.idBuf[1]
        curSector := s.dec.idBuf[2]
        curSize := v
        lenKnown := true
        stage := .readIdCrc 0 }
      result := 0x00 } := by
  rw [execDataWindow_of_byte hv ha room (by simp only [consume, trackAppend_stage, hs, idByte_latches]; rfl)]
  rfl

/-- DATA_WINDOW on the high CRC byte of an ID field (R146). -/
theorem exec_dataWindow_idCrcHigh (hv : demod w = v) (ha : s.dec.dstate = .active)
    (room : s.dec.trackLen < s.cfg.bytesCap) (hs : s.dec.stage = .readIdCrc 0) :
    exec (.dataWindow w) s = .next { s with
      dec := { fieldByte v s.dec with crcHi := v, stage := .readIdCrc 1 }
      result := 0x00 } := by
  rw [execDataWindow_of_byte hv ha room (by
    simp only [consume, trackAppend_stage, hs, idCrcByte, if_true]; rfl)]
  rfl

/-- DATA_WINDOW on the low CRC byte of an ID field: the record is closed with the verdict (R147, R154). -/
theorem exec_dataWindow_idCrcLow {r : OpenRec} (hv : demod w = v) (ha : s.dec.dstate = .active)
    (room : s.dec.trackLen < s.cfg.bytesCap) (hs : s.dec.stage = .readIdCrc 1)
    (hr : s.dec.openRec = some r) (hcat : s.dec.catalog.length < s.cfg.catalogCap) :
    exec (.dataWindow w) s = .next { s with
      dec := { fieldByte v s.dec with
        catalog := s.dec.catalog ++ [⟨r.kind, r.markByte, r.offset, 4,
          if s.dec.crcHi ++ v = s.dec.crc then .ok else .bad,
          s.dec.curCyl, s.dec.curSide, s.dec.curSector⟩]
        openRec := none
        stage := .idle }
      result := 0x00 } := by
  have hclose : consume s.cfg v s.dec.trackLen
      { trackAppend v false s.dec with lastKind := .data } =
        closeIdle s.cfg (crcVerdict s.dec.crcHi v s.dec.crc) idLen
          { trackAppend v false s.dec with lastKind := .data, fieldEnd := s.dec.trackLen + 1 } := by
    simp only [consume, trackAppend_stage, hs, idCrcByte]
    rfl
  rw [execDataWindow_of_byte hv ha room (hclose.trans (closeIdle_ok.mpr ⟨hcat.ne, rfl⟩))]
  simp only [closedRecord, openRecord_some (show
    ({ trackAppend v false s.dec with
      lastKind := .data, fieldEnd := s.dec.trackLen + 1 } : Decoder).openRec = some r from hr)]
  rfl

/-- The ID buffer after its three bytes (R144). -/
theorem idBuf_filled (buf : Vector Byte 3) (a b c : Byte) :
    ((buf.set 0 a).set 1 b).set 2 c = #v[a, b, c] := by
  ext i hi
  interval_cases i <;> simp

/-- The state when an ID field that was opened in `s` has read the bytes `vs`, `k` of them, and buffers `buf`
(R144). -/
def idReading (vs : List Byte) (buf : Vector Byte 3) (k : Fin 4) (s : State) : State :=
  { s with dec := { checkedBytes vs s.dec with idBuf := buf, stage := .readId k }, result := 0x00 }

theorem idReading_dstate (vs : List Byte) (buf : Vector Byte 3) (k : Fin 4) (s : State) :
    (idReading vs buf k s).dec.dstate = s.dec.dstate := fieldBytes_dstate vs s.dec

theorem idReading_trackLen (vs : List Byte) (buf : Vector Byte 3) (k : Fin 4) (s : State) :
    (idReading vs buf k s).dec.trackLen = s.dec.trackLen + vs.length := fieldBytes_trackLen vs s.dec

/-- The state when an ID field that was opened in `s`, has read the bytes `vs` and buffers `buf` has latched its
last byte too (R145). -/
def idLatched (vs : List Byte) (buf : Vector Byte 3) (size : Byte) (s : State) : State :=
  { s with
    dec := { checkedBytes (vs ++ [size]) s.dec with
      idBuf := buf
      curCyl := buf[0]
      curSide := buf[1]
      curSector := buf[2]
      curSize := size
      lenKnown := true
      stage := .readIdCrc 0 }
    result := 0x00 }

theorem idLatched_dstate (vs : List Byte) (buf : Vector Byte 3) (size : Byte) (s : State) :
    (idLatched vs buf size s).dec.dstate = s.dec.dstate := fieldBytes_dstate _ s.dec

theorem idLatched_trackLen (vs : List Byte) (buf : Vector Byte 3) (size : Byte) (s : State) :
    (idLatched vs buf size s).dec.trackLen = s.dec.trackLen + (vs ++ [size]).length :=
  fieldBytes_trackLen _ s.dec

theorem idLatched_openRec (vs : List Byte) (buf : Vector Byte 3) (size : Byte) (s : State) :
    (idLatched vs buf size s).dec.openRec = s.dec.openRec := fieldBytes_openRec _ s.dec

theorem idLatched_catalog (vs : List Byte) (buf : Vector Byte 3) (size : Byte) (s : State) :
    (idLatched vs buf size s).dec.catalog = s.dec.catalog := fieldBytes_catalog _ s.dec

/-- One of the first three bytes of an ID field (R144). -/
theorem exec_idReading {vs : List Byte} {buf : Vector Byte 3} {k : Fin 3} (hv : demod w = v)
    (ha : s.dec.dstate = .active) (room : s.dec.trackLen + vs.length < s.cfg.bytesCap) :
    exec (.dataWindow w) (idReading vs buf k.castSucc s) =
      .next (idReading (vs ++ [v]) (buf.set k.val v k.isLt) k.succ s) := by
  rw [exec_dataWindow_idBuffer hv ((idReading_dstate ..).trans ha) ((idReading_trackLen ..).trans_lt room) rfl]
  simp [idReading, checkedBytes, fieldByte, appendedByte, fieldBytes_append]

/-- The fourth byte of an ID field (R145). -/
theorem exec_idReading_last {vs : List Byte} {buf : Vector Byte 3} (hv : demod w = v)
    (ha : s.dec.dstate = .active) (room : s.dec.trackLen + vs.length < s.cfg.bytesCap) :
    exec (.dataWindow w) (idReading vs buf 3 s) = .next (idLatched vs buf v s) := by
  rw [exec_dataWindow_idLatch hv ((idReading_dstate ..).trans ha) ((idReading_trackLen ..).trans_lt room) rfl]
  simp [idReading, idLatched, checkedBytes, fieldByte, appendedByte, fieldBytes_append]

/-- The four bytes of an ID field that has just been opened enter the CRC and are latched (R144, R145). -/
theorem runInstrs_idBytes {cyl side sec size : Half} {c d e z : Byte} (hc : demod cyl = c)
    (hd : demod side = d) (he : demod sec = e) (hz : demod size = z) (ha : s.dec.dstate = .active)
    (room : s.dec.trackLen + 4 ≤ s.cfg.bytesCap) (hs : s.dec.stage = .readId 0) :
    runInstrs [.dataWindow cyl, .dataWindow side, .dataWindow sec, .dataWindow size] s =
      .next (idLatched [c, d, e] #v[c, d, e] z s) := by
  have room0 : s.dec.trackLen < s.cfg.bytesCap := by omega
  have room1 : s.dec.trackLen + 1 < s.cfg.bytesCap := by omega
  have room2 : s.dec.trackLen + 2 < s.cfg.bytesCap := by omega
  have room3 : s.dec.trackLen + 3 < s.cfg.bytesCap := by omega
  calc runInstrs [.dataWindow cyl, .dataWindow side, .dataWindow sec, .dataWindow size] s
    _ = runInstrs [.dataWindow side, .dataWindow sec, .dataWindow size]
          (idReading [c] (s.dec.idBuf.set 0 c) 1 s) :=
        runInstrs_cons (exec_dataWindow_idBuffer (k := 0) hc ha room0 hs)
    _ = runInstrs [.dataWindow sec, .dataWindow size]
          (idReading [c, d] ((s.dec.idBuf.set 0 c).set 1 d) 2 s) :=
        runInstrs_cons (exec_idReading (k := 1) hd ha room1)
    _ = runInstrs [.dataWindow size]
          (idReading [c, d, e] (((s.dec.idBuf.set 0 c).set 1 d).set 2 e) 3 s) :=
        runInstrs_cons (exec_idReading (k := 2) he ha room2)
    _ = runInstrs [.dataWindow size] (idReading [c, d, e] #v[c, d, e] 3 s) := by rw [idBuf_filled]
    _ = .next (idLatched [c, d, e] #v[c, d, e] z s) := runInstrs_cons (exec_idReading_last hz ha room3)

/-- The two CRC bytes of an ID field close its record with the verdict (R146, R147, R154). -/
theorem runInstrs_idCrc {hi lo : Half} {x y : Byte} {r : OpenRec} (hx : demod hi = x) (hy : demod lo = y)
    (ha : s.dec.dstate = .active) (room : s.dec.trackLen + 2 ≤ s.cfg.bytesCap)
    (hs : s.dec.stage = .readIdCrc 0) (hr : s.dec.openRec = some r)
    (hcat : s.dec.catalog.length < s.cfg.catalogCap) :
    runInstrs [.dataWindow hi, .dataWindow lo] s = .next { s with
      dec := { fieldBytes [x, y] s.dec with
        crcHi := x
        catalog := s.dec.catalog ++ [⟨r.kind, r.markByte, r.offset, 4,
          if x ++ y = s.dec.crc then .ok else .bad,
          s.dec.curCyl, s.dec.curSide, s.dec.curSector⟩]
        openRec := none
        stage := .idle }
      result := 0x00 } := by
  have room0 : s.dec.trackLen < s.cfg.bytesCap := by omega
  have room1 : s.dec.trackLen + 1 < s.cfg.bytesCap := by omega
  calc runInstrs [.dataWindow hi, .dataWindow lo] s
    _ = runInstrs [.dataWindow lo] { s with
          dec := { fieldByte x s.dec with crcHi := x, stage := .readIdCrc 1 }
          result := 0x00 } := runInstrs_cons (exec_dataWindow_idCrcHigh hx ha room0 hs)
    _ = _ := runInstrs_cons (exec_dataWindow_idCrcLow hy ha room1 rfl hr hcat)

/-- An ID field that has just been opened, whole: the four ID bytes, then the two CRC bytes. -/
theorem runInstrs_idField {cyl side sec size hi lo : Half} {c d e z x y : Byte} {r : OpenRec}
    (hc : demod cyl = c) (hd : demod side = d) (he : demod sec = e) (hz : demod size = z) (hx : demod hi = x)
    (hy : demod lo = y) (ha : s.dec.dstate = .active) (hs : s.dec.stage = .readId 0)
    (hr : s.dec.openRec = some r) (room : s.dec.trackLen + 6 ≤ s.cfg.bytesCap)
    (hcat : s.dec.catalog.length < s.cfg.catalogCap) :
    runInstrs [.dataWindow cyl, .dataWindow side, .dataWindow sec, .dataWindow size, .dataWindow hi,
      .dataWindow lo] s = .next { s with
        dec := { fieldBytes [c, d, e, z, x, y] s.dec with
          crc := [c, d, e, z].foldl crcUpd s.dec.crc
          crcHi := x
          idBuf := #v[c, d, e]
          curCyl := c
          curSide := d
          curSector := e
          curSize := z
          lenKnown := true
          openRec := none
          stage := .idle
          catalog := s.dec.catalog ++ [⟨r.kind, r.markByte, r.offset, 4,
            if x ++ y = [c, d, e, z].foldl crcUpd s.dec.crc then .ok else .bad, c, d, e⟩] }
        result := 0x00 } := by
  have hid := runInstrs_idBytes hc hd he hz ha (by omega) hs
  have hact := (idLatched_dstate [c, d, e] #v[c, d, e] z s).trans ha
  have hroom : (idLatched [c, d, e] #v[c, d, e] z s).dec.trackLen + 2 ≤ s.cfg.bytesCap := by
    rw [idLatched_trackLen]
    exact room
  have hrec := (idLatched_openRec [c, d, e] #v[c, d, e] z s).trans hr
  have hcap := (congrArg List.length (idLatched_catalog [c, d, e] #v[c, d, e] z s)).trans_lt hcat
  have hcrc := runInstrs_idCrc hx hy hact hroom rfl hrec hcap
  refine ((runInstrs_append hid).trans hcrc).trans ?_
  simp only [idLatched, checkedBytes, fieldByte, appendedByte, List.cons_append, List.nil_append, fieldBytes_cons,
    fieldBytes_nil]
  rfl

end

/-- Settles O42: the registers and the record are those of the whole field, and the track is that of a run of
six field bytes. -/
theorem wholeIdFieldRecorded : Obligations.WholeIdFieldRecorded := by
  intro cyl side sec size hi lo r s ha hs hr room hcat crc
  refine ⟨_, runInstrs_idField rfl rfl rfl rfl rfl rfl ha hs hr room hcat, ?_, fun n => ⟨?_, ?_⟩⟩
  · rw [fieldBytes_eq]
    rfl
  · exact trackRead_fieldBytes [demod cyl, demod side, demod sec, demod size, demod hi, demod lo] s.dec n
  · exact syncRead_fieldBytes [demod cyl, demod side, demod sec, demod size, demod hi, demod lo] s.dec n

end Sys2Proof.Machine

/-! # Scope: the state's registers: the invariant, the bytes of a field, pos and the mode flags -/

namespace Sys2Proof.Machine

open Sys2Proof.Config

/-! ### An instruction's outcome on the decoder

What every instruction does to the decoder is one operation, taken whole or not at all (60_exceptions.md R202
to R204). -/

/-- What an instruction that takes effect does to the decoder: the operation of its command or form, and
nothing for the instructions of the other two datapaths. -/
def decoderOp (i : Instr) (c : Params) (d : Decoder) : Except Fault Decoder :=
  match i with
  | .decStart r p => .ok (Decoder.start r p)
  | .decBit b => stepBit c b d
  | .decByte x => stepBits c (channelBits x) d
  | .decEnd => endTrack c d
  | .syncA1 => runWindow c .syncA1 d
  | .markC2 => runWindow c .markC2 d
  | .gap4E => runWindow c .gap4E d
  | .dataWindow w => runWindow c (.dataWindow w) d
  | .idamFc => markForm .idamFc c d
  | .idamFd => markForm .idamFd c d
  | .idamFe => markForm .idamFe c d
  | .dam v => markForm (.dam v) c d
  | .markUnknown v => markForm (.unknown v) c d
  | .encStart _ | .encByte _ _ | .crcLoad _ | .crcByte _ | .encSyncA1 | .encSyncC2 | .encData _ _ => .ok d

/-- The codes of RESULT other than OK (R205). -/
def failureCodes : List Byte := [0x01, 0x02, 0x03, 0x10, 0x11]

theorem refuseCode_mem (r : RefuseReason) : refuseCode r ∈ failureCodes := by cases r <;> decide

theorem faultCode_mem (f : Fault) : faultCode f ∈ failureCodes := by cases f <;> decide

theorem okCode_ne_of_mem {x : Byte} (h : x ∈ failureCodes) : x ≠ okCode := by
  rintro rfl
  revert h
  decide

/-- The outcomes of an instruction, as `t` shows them: it took effect, with RESULT OK; or RESULT holds
another code, and of the decoder's registers at most dstate has changed (R202 to R204). -/
def DecoderOutcome (i : Instr) (s t : State) : Prop :=
  (t.result = okCode ∧ decoderOp i s.cfg s.dec = .ok t.dec) ∨
    (t.result ∈ failureCodes ∧ ∃ x, t.dec = { s.dec with dstate := x })

/-- A command on the decoder has one of the outcomes. -/
theorem decoderOutcome_of_command {i : Instr} {s t : State} (h : decoderCommand (decoderOp i) s = .next t) :
    DecoderOutcome i s t := by
  rcases decoderCommand_cases h with ⟨-, rfl⟩ | ⟨-, d, hop, rfl⟩ | ⟨-, f, -, rfl⟩
  · exact .inr ⟨refuseCode_mem .decoderDone, s.dec.dstate, rfl⟩
  · exact .inl ⟨rfl, hop⟩
  · exact .inr ⟨faultCode_mem f, .done, rfl⟩

/-- Every instruction has one of the outcomes. -/
theorem exec_outcome {i : Instr} {s t : State} (h : exec i s = .next t) : DecoderOutcome i s t := by
  cases i with
  | decStart | encStart | encByte | crcLoad | crcByte | encSyncA1 | encSyncC2 | encData =>
    cases h
    exact .inl ⟨rfl, rfl⟩
  | decBit | decByte | decEnd | syncA1 | markC2 | gap4E | dataWindow | idamFc | idamFd | idamFe | dam
  | markUnknown => exact decoderOutcome_of_command h

/-! ### pos and the mode flags (10_state.md R20, R21) -/

/-- From `d` to `e` the decoder has counted `n` channel bits, and has stayed in its mode. -/
structure CountsBits (n : Nat) (d e : Decoder) : Prop where
  pos : e.pos = d.pos + n
  recover : e.recover = d.recover
  preserve : e.preserve = d.preserve

theorem CountsBits.trans {m n : Nat} {d e f : Decoder} (h : CountsBits m d e) (k : CountsBits n e f) :
    CountsBits (m + n) d f :=
  ⟨by rw [k.pos, h.pos, Nat.add_assoc], k.recover.trans h.recover, k.preserve.trans h.preserve⟩

theorem SameDemod.countsNone {d e : Decoder} (h : SameDemod d e) : CountsBits 0 d e :=
  ⟨h.pos, h.recover, h.preserve⟩

theorem truncateOpen_countsNone {c : Params} {d e : Decoder} (h : truncateOpen c d = .ok e) :
    CountsBits 0 d e := by
  obtain ⟨-, -, -, -, -, hpos, -, -, hrec, hpres, -⟩ := truncateOpen_frame h
  exact ⟨hpos, hrec, hpres⟩

/-- A byte that the parser consumes leaves the demodulator's registers alone (R140, R141). -/
theorem consume_sameDemod {c : Params} {v : Byte} {p : Nat} {d e : Decoder} (hp : p ≤ d.trackLen)
    (h : consume c v p d = .ok e) : SameDemod d e := by
  by_cases hs : d.stage = .idle
  · exact (consume_idle_frame hs hp h).1
  · exact (consume_open_sameTrack hs h).toSameDemod

theorem emit_countsNone {c : Params} {v : Byte} {y : Bool} {k : LastKind} {d e : Decoder}
    (h : emit c v y k d = .ok e) : CountsBits 0 d e := by
  obtain ⟨-, hc⟩ := emit_ok.1 h
  obtain ⟨hpos, hrec, hpres⟩ := (consume_sameDemod (Nat.le_succ d.trackLen) hc).countsNone
  exact ⟨hpos, hrec, hpres⟩

theorem placeA1_countsNone {c : Params} {r : Bool} {d e : Decoder} (h : placeA1 c r d = .ok e) :
    CountsBits 0 d e := by
  rcases placeA1_ok.1 h with ⟨-, rfl⟩ | ⟨-, -, rfl⟩
  · constructor <;> simp
  · exact ⟨rfl, rfl, rfl⟩

/-- The fixup leaves the demodulator's registers alone, behind its gate too (R117, R119). -/
theorem fixupGated_sameDemod (c : Params) (p : Nat) (d : Decoder) : SameDemod d (fixupGated c p d) := by
  rw [fixupGated_eq]
  exact (fixupWalk_frame c p _ d).1

theorem syncRun_countsNone {c : Params} {b : Bool} {d g : Decoder} (h : syncRun c b d = .ok g) :
    CountsBits 0 d g := by
  obtain ⟨e, f, he, hf, rfl⟩ := syncRun_ok.1 h
  obtain ⟨hpos, hrec, hpres⟩ := (fixupGated_sameDemod c (f.trackLen - 1) { f with lastKind := .a1 }).countsNone
  have hplaced : CountsBits 0 d f := (truncateOpen_countsNone he).trans (placeA1_countsNone hf)
  exact ⟨hpos.trans hplaced.pos, hrec.trans hplaced.recover, hpres.trans hplaced.preserve⟩

/-- A window form leaves pos and the mode flags alone: the bit that completed it has been counted before. -/
theorem runWindow_countsNone {c : Params} {f : WindowForm} {d e : Decoder} (h : runWindow c f d = .ok e) :
    CountsBits 0 d e := by
  obtain ⟨g, rfl, hg⟩ := runWindow_ok.1 h
  have same : CountsBits 0 d g := by
    cases f with
    | syncA1 => exact syncRun_countsNone hg
    | markC2 | gap4E | dataWindow w => exact emit_countsNone hg
  exact ⟨same.pos, same.recover, same.preserve⟩

/-- A channel bit is counted, whatever it completes (R20, R105). -/
theorem stepBit_countsBits {c : Params} {b : Bool} {d e : Decoder} (h : stepBit c b d = .ok e) :
    CountsBits 1 d e := by
  have shifted : CountsBits 1 d (shiftIn b d) := ⟨rfl, rfl, rfl⟩
  rcases stepBit_ok.1 h with ⟨-, rfl⟩ | ⟨f, -, hf⟩
  · exact ⟨rfl, rfl, rfl⟩
  · exact shifted.trans (runWindow_countsNone hf)

/-- Several channel bits are counted one by one (R20, R107). -/
theorem stepBits_countsBits {c : Params} {bs : List Bool} {d e : Decoder} (h : stepBits c bs d = .ok e) :
    CountsBits bs.length d e := by
  induction bs generalizing d with
  | nil => cases h; exact ⟨rfl, rfl, rfl⟩
  | cons b bs ih =>
    obtain ⟨g, hg, hrest⟩ := stepBits_cons_ok.1 h
    rw [List.length_cons, Nat.add_comm]
    exact (stepBit_countsBits hg).trans (ih hrest)

/-- What a DEC_END that succeeds does (R157). -/
theorem endTrack_ok {c : Params} {d e : Decoder} :
    endTrack c d = .ok e ↔ ∃ f, truncateOpen c d = .ok f ∧ e = { f with dstate := .done } := by
  simp only [endTrack, bind_ok, Except.ok.injEq]
  exact exists_congr fun f => and_congr_right fun _ => eq_comm

theorem endTrack_countsNone {c : Params} {d e : Decoder} (h : endTrack c d = .ok e) : CountsBits 0 d e := by
  obtain ⟨f, hf, rfl⟩ := endTrack_ok.1 h
  obtain ⟨hpos, hrec, hpres⟩ := truncateOpen_countsNone hf
  exact ⟨hpos, hrec, hpres⟩

theorem markForm_sameTrack {c : Params} {f : MarkForm} {d e : Decoder} (h : markForm f c d = .ok e) :
    SameTrack d e := runMark_sameTrack h

/-- The channel bits that an instruction consumes when it takes effect (R105, R107). -/
def bitsConsumed : Instr → Nat
  | .decBit _ => 1
  | .decByte _ => 8
  | _ => 0

theorem bitsConsumed_eq_zero {i : Instr} (hbit : ∀ b, i ≠ .decBit b) (hbyte : ∀ x, i ≠ .decByte x) :
    bitsConsumed i = 0 := by
  unfold bitsConsumed
  split
  · exact absurd rfl (hbit _)
  · exact absurd rfl (hbyte _)
  · rfl

/-- An instruction other than DEC_START that takes effect counts its channel bits and keeps the mode. -/
theorem decoderOp_countsBits {i : Instr} {c : Params} {d e : Decoder} (hi : isDecStart i = false)
    (h : decoderOp i c d = .ok e) : CountsBits (bitsConsumed i) d e := by
  unfold decoderOp at h
  cases i with
  | decStart => cases hi
  | decBit b => exact stepBit_countsBits h
  | decByte x => exact stepBits_countsBits h
  | decEnd => exact endTrack_countsNone h
  | syncA1 | markC2 | gap4E | dataWindow => exact runWindow_countsNone h
  | idamFc | idamFd | idamFe | dam | markUnknown => exact (markForm_sameTrack h).countsNone
  | encStart | encByte | crcLoad | crcByte | encSyncA1 | encSyncC2 | encData => cases h; exact ⟨rfl, rfl, rfl⟩

/-- Settles O56: an instruction that takes effect counts the channel bits it consumes; one that fails changes
at most dstate. -/
theorem posCountsAndFlagsHold : Obligations.PosCountsAndFlagsHold := by
  intro i s t h
  rcases exec_outcome h with ⟨hres, hop⟩ | ⟨hres, x, hdec⟩
  · have counted (hi : isDecStart i = false) := decoderOp_countsBits hi hop
    refine ⟨fun hi => ⟨(counted hi).recover, (counted hi).preserve⟩, fun hne => absurd hres hne, ?_, ?_, ?_⟩
    · rintro - b rfl
      exact (counted rfl).pos
    · rintro - x rfl
      exact (counted rfl).pos
    · intro hi hbit hbyte
      rw [(counted hi).pos, bitsConsumed_eq_zero hbit hbyte, Nat.add_zero]
  · have failed : t.result ≠ 0x00 := okCode_ne_of_mem hres
    rw [hdec]
    exact ⟨fun _ => ⟨rfl, rfl⟩, fun _ => rfl, fun hok => absurd hok failed, fun hok => absurd hok failed,
      fun _ _ _ => rfl⟩

/-! ### The bytes of a field (10_state.md R33, 43_field_parser.md R160, 70_reset_and_hazards.md R225) -/

/-- The two decoders hold the same byte and sync bit at index `n`. -/
def SameCell (n : Nat) (d e : Decoder) : Prop :=
  trackRead e n = trackRead d n ∧ syncRead e n = syncRead d n

theorem SameCell.trans {n : Nat} {d e f : Decoder} (h : SameCell n d e) (k : SameCell n e f) : SameCell n d f :=
  ⟨k.1.trans h.1, k.2.trans h.2⟩

theorem sameCell_of_eq {d e : Decoder} (hb : e.bytes = d.bytes) (hs : e.syncBits = d.syncBits) (n : Nat) :
    SameCell n d e :=
  ⟨trackRead_congr hb n, syncRead_congr hs n⟩

theorem sameCell_append {n : Nat} {d : Decoder} (v : Byte) (y : Bool) (h : n ≠ d.trackLen) :
    SameCell n d (trackAppend v y d) :=
  ⟨by rw [trackRead_append, if_neg h], by rw [syncRead_append, if_neg h]⟩

theorem sameCell_rewrite {n q : Nat} {d : Decoder} (v : Byte) (y : Bool) (h : n ≠ q) :
    SameCell n d (trackRewrite q v y d) :=
  ⟨by rw [trackRead_rewrite, if_neg (by simp [h])], by rw [syncRead_rewrite, if_neg (by simp [h])]⟩

/-- Index `n` holds a byte that a field has consumed and that no A1 may replace (R33, R114, R226). -/
def Settled (d : Decoder) (n : Nat) : Prop :=
  n < d.fieldEnd ∧ (n + 1 < d.trackLen ∨ d.lastKind ≠ .c2off)

/-- From `d` to `e`, fieldEnd has not fallen and no settled byte has changed. -/
structure KeepsFieldBytes (d e : Decoder) : Prop where
  fieldEnd : d.fieldEnd ≤ e.fieldEnd
  cells : ∀ n, Settled d n → SameCell n d e

/-- The same, in the form that goes on to the next channel bit: what was settled is so still, and fieldEnd is
within the track. -/
structure KeepsField (d e : Decoder) : Prop extends KeepsFieldBytes d e where
  settled : ∀ n, Settled d n → Settled e n
  within : e.fieldEnd ≤ e.trackLen

theorem KeepsField.trans {d e f : Decoder} (h : KeepsField d e) (k : KeepsField e f) : KeepsField d f where
  fieldEnd := h.fieldEnd.trans k.fieldEnd
  cells n hn := (h.cells n hn).trans (k.cells n (h.settled n hn))
  settled n hn := k.settled n (h.settled n hn)
  within := k.within

/-- A change of other registers alone. -/
theorem keepsField_of_eq {d e : Decoder} (hle : d.fieldEnd ≤ d.trackLen) (hf : e.fieldEnd = d.fieldEnd)
    (hl : e.trackLen = d.trackLen) (hk : e.lastKind = d.lastKind) (hb : e.bytes = d.bytes)
    (hs : e.syncBits = d.syncBits) : KeepsField d e where
  fieldEnd := hf.ge
  cells n _ := sameCell_of_eq hb hs n
  settled n hn := by
    unfold Settled
    rwa [hf, hl, hk]
  within := by rwa [hf, hl]

/-! ### Each operation keeps the bytes of a field -/

theorem closeIdle_fieldEnd {c : Params} {st : CrcStatus} {n : Nat} {d e : Decoder}
    (h : closeIdle c st n d = .ok e) : e.fieldEnd = d.fieldEnd := by
  obtain ⟨-, rfl⟩ := closeIdle_ok.1 h
  rfl

/-- A mark is part of its field (R142). -/
theorem runMark_fieldEnd {c : Params} {f : MarkForm} {p : Nat} {d e : Decoder} (h : runMark c f p d = .ok e) :
    e.fieldEnd = p + 1 := by
  cases f with
  | idamFc | idamFd | idamFe => cases h; rfl
  | dam v =>
    simp only [runMark, dataMark, closeAtMark] at h
    split at h
    · cases h; rfl
    · exact closeIdle_fieldEnd h
  | unknown v => exact closeIdle_fieldEnd h

/-- What a completed Amiga header that does not fault does: it is abandoned, or it is latched and recorded and
the data region opens (R177 to R181). -/
theorem headerDone_cases {c : Params} {d e : Decoder} (h : headerDone c d = .ok e) :
    e = { d with stage := .idle } ∨
      ∃ i st g, close c st amigaHdrLen (amigaLatch i d) = .ok g ∧ e = amigaOpenData i g := by
  simp only [headerDone] at h
  split at h
  · obtain ⟨g, hg, hopen⟩ := bind_ok.1 h
    cases hopen
    exact .inr ⟨_, _, g, hg, rfl⟩
  · cases h
    exact .inl rfl

theorem headerDone_fieldEnd {c : Params} {d e : Decoder} (h : headerDone c d = .ok e) :
    e.fieldEnd = d.fieldEnd := by
  rcases headerDone_cases h with rfl | ⟨i, st, g, hg, rfl⟩
  · rfl
  · obtain ⟨-, rfl⟩ := close_ok.1 hg
    rfl

/-- A byte of an open field is part of it (R140). -/
theorem consume_open_fieldEnd {c : Params} {v : Byte} {p : Nat} {d e : Decoder} (hs : d.stage ≠ .idle)
    (h : consume c v p d = .ok e) : e.fieldEnd = p + 1 := by
  unfold consume at h
  cases hst : d.stage with
  | idle => exact absurd hst hs
  | readId k =>
    simp only [hst, idByte] at h
    split at h <;> cases h <;> rfl
  | readIdCrc j =>
    simp only [hst, idCrcByte] at h
    split at h
    · cases h; rfl
    · exact closeIdle_fieldEnd h
  | readData k =>
    simp only [hst] at h
    cases h; rfl
  | readDataCrc j =>
    simp only [hst, dataCrcByte] at h
    split at h
    · cases h; rfl
    · exact closeIdle_fieldEnd h
  | amigaHeader k =>
    simp only [hst, amigaHeaderByte] at h
    split at h
    · cases h; rfl
    · exact headerDone_fieldEnd h
  | amigaData k =>
    simp only [hst, amigaDataByte] at h
    split at h
    · cases h; rfl
    · exact closeIdle_fieldEnd h

/-- A byte that arrives while no field is open leaves fieldEnd alone, or begins a field and is part of it
(R141). -/
theorem consume_idle_fieldEnd {c : Params} {v : Byte} {p : Nat} {d e : Decoder} (hs : d.stage = .idle)
    (h : consume c v p d = .ok e) : e.fieldEnd = d.fieldEnd ∨ e.fieldEnd = p + 1 := by
  rw [consume_of_idle hs] at h
  obtain ⟨f, hf, hreset⟩ := bind_ok.1 h
  cases hreset
  simp only [idleByte, recoverMark, markByte] at hf
  split_ifs at hf
  · exact .inr (runMark_fieldEnd (e := f) hf)
  · exact .inr (runMark_fieldEnd (e := f) hf)
  · cases hf; exact .inr rfl
  · cases hf; exact .inl rfl

theorem consume_fieldEnd {c : Params} {v : Byte} {p : Nat} {d e : Decoder} (h : consume c v p d = .ok e) :
    e.fieldEnd = d.fieldEnd ∨ e.fieldEnd = p + 1 := by
  by_cases hs : d.stage = .idle
  · exact consume_idle_fieldEnd hs h
  · exact .inr (consume_open_fieldEnd hs h)

/-- The parser rewrites nothing below fieldEnd: the recovery rewrite does not reach there (R140, R172). -/
theorem consume_sameCell {c : Params} {v : Byte} {p n : Nat} {d e : Decoder} (hp : p ≤ d.trackLen)
    (hn : n < d.fieldEnd) (h : consume c v p d = .ok e) : SameCell n d e := by
  by_cases hs : d.stage = .idle
  · have hfloor : d.fieldEnd ≤ recoverFloor p d := Nat.le_max_left _ _
    exact (consume_idle_frame hs hp h).2 n (by omega)
  · have key := consume_open_sameTrack hs h
    exact sameCell_of_eq key.bytes key.syncBits n

/-- The decoder with a byte that the parser has not yet seen: appended, and the last kind (R108). -/
def withNewByte (v : Byte) (y : Bool) (k : LastKind) (d : Decoder) : Decoder :=
  { trackAppend v y d with lastKind := k }

/-- An emission that succeeds has room for its byte and hands it to the parser (R108). -/
theorem emit_consumes {c : Params} {v : Byte} {y : Bool} {k : LastKind} {d e : Decoder}
    (h : emit c v y k d = .ok e) :
    d.trackLen ≠ c.bytesCap ∧ consume c v d.trackLen (withNewByte v y k d) = .ok e := emit_ok.1 h

theorem emit_keepsField {c : Params} {v : Byte} {y : Bool} {k : LastKind} {d e : Decoder}
    (hle : d.fieldEnd ≤ d.trackLen) (h : emit c v y k d = .ok e) : KeepsField d e := by
  obtain ⟨-, hc⟩ := emit_consumes h
  have hp : d.trackLen ≤ (withNewByte v y k d).trackLen := Nat.le_succ d.trackLen
  have hlen : e.trackLen = d.trackLen + 1 := (consume_sameDemod hp hc).trackLen
  have hfe : e.fieldEnd = d.fieldEnd ∨ e.fieldEnd = d.trackLen + 1 :=
    consume_fieldEnd (d := withNewByte v y k d) hc
  refine ⟨⟨by omega, fun n ⟨hn, _⟩ => ?_⟩, fun n ⟨hn, _⟩ => ⟨by omega, .inl (by omega)⟩, by omega⟩
  have appended : SameCell n d (withNewByte v y k d) := sameCell_append v y (by omega)
  exact appended.trans (consume_sameCell hp hn hc)

theorem truncateOpen_keepsField {c : Params} {d e : Decoder} (hle : d.fieldEnd ≤ d.trackLen)
    (h : truncateOpen c d = .ok e) : KeepsField d e := by
  obtain ⟨-, hlen, hb, hs, -, -, -, hk, -, -, -, hf, -⟩ := truncateOpen_frame h
  exact keepsField_of_eq hle hf hlen hk hb hs

/-- Only an off-boundary C2 is replaced (R114). -/
theorem lastKind_of_replacesC2 {b : Bool} {d : Decoder} (h : replacesC2 b d = true) : d.lastKind = .c2off := by
  simp only [replacesC2, Bool.and_eq_true, decide_eq_true_eq] at h
  exact h.1

/-- The A1 takes the place of the last byte only where that is an off-boundary C2, which is not settled
(R114, R226). -/
theorem placeA1_keepsField {c : Params} {b : Bool} {d e : Decoder} (hle : d.fieldEnd ≤ d.trackLen)
    (h : placeA1 c (replacesC2 b d) d = .ok e) : KeepsField d e := by
  rcases placeA1_ok.1 h with ⟨hr, rfl⟩ | ⟨-, -, rfl⟩
  · have hk := lastKind_of_replacesC2 hr
    refine ⟨⟨by simp, fun n ⟨_, hlast⟩ => sameCell_rewrite _ _ ?_⟩, fun n hn => by simpa [Settled] using hn,
      by simpa⟩
    have hlt := hlast.resolve_right (not_not_intro hk)
    omega
  · refine ⟨⟨le_rfl, fun n ⟨hn, _⟩ => sameCell_append _ _ (by omega)⟩, fun n ⟨hn, _⟩ => ⟨hn, .inl ?_⟩,
      Nat.le_succ_of_le hle⟩
    rw [trackAppend_trackLen]
    omega

/-- The fixup stops at fieldEnd (R117). -/
theorem fixupGated_sameCell {c : Params} {p n : Nat} {d : Decoder} (hn : n < d.fieldEnd) :
    SameCell n d (fixupGated c p d) := by
  rw [fixupGated_eq]
  obtain ⟨-, -, hcells, -⟩ := fixupWalk_frame c p (if d.recover = false ∧ d.preserve = false then p else 0) d
  exact hcells n (.inl hn)

theorem fixupGated_fieldEnd (c : Params) (p : Nat) (d : Decoder) :
    (fixupGated c p d).fieldEnd = d.fieldEnd := by
  rw [fixupGated_eq]
  exact (fixupWalk_frame c p _ d).2.1

/-- What follows the placing of an A1: it is the last kind, the fixup runs and the run is counted. -/
theorem fixed_keepsField {c : Params} {p : Nat} {d : Decoder} (hle : d.fieldEnd ≤ d.trackLen) :
    KeepsField d (countA1 (fixupGated c p { d with lastKind := .a1 })) := by
  have same := fixupGated_sameDemod c p { d with lastKind := .a1 }
  have hfe := fixupGated_fieldEnd c p { d with lastKind := .a1 }
  refine ⟨⟨hfe.ge, fun n ⟨hn, _⟩ => fixupGated_sameCell (d := { d with lastKind := .a1 }) hn⟩,
    fun n ⟨hn, _⟩ => ⟨hn.trans_eq hfe.symm, .inr ?_⟩, ?_⟩
  · rw [countA1_lastKind, same.lastKind]
    exact LastKind.noConfusion
  · rw [countA1_fieldEnd, countA1_trackLen, hfe, same.trackLen]
    exact hle

theorem syncRun_keepsField {c : Params} {b : Bool} {d g : Decoder} (hle : d.fieldEnd ≤ d.trackLen)
    (h : syncRun c b d = .ok g) : KeepsField d g := by
  obtain ⟨e, f, he, hf, rfl⟩ := syncRun_ok.1 h
  have htrunc := truncateOpen_keepsField hle he
  obtain ⟨-, -, -, -, -, -, -, hkind, -⟩ := truncateOpen_frame he
  have hplace : placeA1 c (replacesC2 b e) e = .ok f := by rwa [replacesC2, hkind]
  have hplaced := placeA1_keepsField htrunc.within hplace
  exact (htrunc.trans hplaced).trans (fixed_keepsField hplaced.within)

theorem runWindow_keepsField {c : Params} {f : WindowForm} {d e : Decoder} (hle : d.fieldEnd ≤ d.trackLen)
    (h : runWindow c f d = .ok e) : KeepsField d e := by
  obtain ⟨g, rfl, hg⟩ := runWindow_ok.1 h
  have key : KeepsField d g := by
    cases f with
    | syncA1 => exact syncRun_keepsField hle hg
    | markC2 | gap4E | dataWindow w => exact emit_keepsField hle hg
  exact key.trans (keepsField_of_eq key.within rfl rfl rfl rfl rfl)

theorem stepBit_keepsField {c : Params} {b : Bool} {d e : Decoder} (hle : d.fieldEnd ≤ d.trackLen)
    (h : stepBit c b d = .ok e) : KeepsField d e := by
  have shifted : KeepsField d (shiftIn b d) := keepsField_of_eq hle rfl rfl rfl rfl rfl
  rcases stepBit_ok.1 h with ⟨-, rfl⟩ | ⟨f, -, hf⟩
  · exact keepsField_of_eq hle rfl rfl rfl rfl rfl
  · exact shifted.trans (runWindow_keepsField hle hf)

theorem stepBits_keepsField {c : Params} {bs : List Bool} {d e : Decoder} (hle : d.fieldEnd ≤ d.trackLen)
    (h : stepBits c bs d = .ok e) : KeepsField d e := by
  induction bs generalizing d with
  | nil => cases h; exact keepsField_of_eq hle rfl rfl rfl rfl rfl
  | cons b bs ih =>
    obtain ⟨g, hg, hrest⟩ := stepBits_cons_ok.1 h
    have hbit := stepBit_keepsField hle hg
    exact hbit.trans (ih hbit.within hrest)

theorem endTrack_keepsField {c : Params} {d e : Decoder} (hle : d.fieldEnd ≤ d.trackLen)
    (h : endTrack c d = .ok e) : KeepsField d e := by
  obtain ⟨f, hf, rfl⟩ := endTrack_ok.1 h
  have key := truncateOpen_keepsField hle hf
  exact key.trans (keepsField_of_eq key.within rfl rfl rfl rfl rfl)

/-- A mark form raises fieldEnd to the end of the track, and to index 1 on an empty one (log entry 5); so it
is not within the track there. -/
theorem markForm_keepsFieldBytes {c : Params} {f : MarkForm} {d e : Decoder} (hle : d.fieldEnd ≤ d.trackLen)
    (h : markForm f c d = .ok e) : KeepsFieldBytes d e := by
  have hfe : e.fieldEnd = d.trackLen - 1 + 1 := runMark_fieldEnd h
  have same := markForm_sameTrack h
  exact ⟨by omega, fun n _ => sameCell_of_eq same.bytes same.syncBits n⟩

/-- An instruction other than DEC_START that takes effect keeps the bytes of every field. -/
theorem decoderOp_keepsFieldBytes {i : Instr} {c : Params} {d e : Decoder} (hi : isDecStart i = false)
    (hle : d.fieldEnd ≤ d.trackLen) (h : decoderOp i c d = .ok e) : KeepsFieldBytes d e := by
  unfold decoderOp at h
  cases i with
  | decStart => cases hi
  | decBit b => exact (stepBit_keepsField hle h).toKeepsFieldBytes
  | decByte x => exact (stepBits_keepsField hle h).toKeepsFieldBytes
  | decEnd => exact (endTrack_keepsField hle h).toKeepsFieldBytes
  | syncA1 | markC2 | gap4E | dataWindow => exact (runWindow_keepsField hle h).toKeepsFieldBytes
  | idamFc | idamFd | idamFe | dam | markUnknown => exact markForm_keepsFieldBytes hle h
  | encStart | encByte | crcLoad | crcByte | encSyncA1 | encSyncC2 | encData =>
    cases h
    exact ⟨le_rfl, fun n _ => sameCell_of_eq rfl rfl n⟩

/-- Settles O55: an instruction that takes effect keeps every settled byte, bit after bit; one that fails
changes at most dstate. -/
theorem fieldBytesStable : Obligations.FieldBytesStable := by
  intro i s t hi hle h
  have kept : KeepsFieldBytes s.dec t.dec := by
    rcases exec_outcome h with ⟨-, hop⟩ | ⟨-, x, hdec⟩
    · exact decoderOp_keepsFieldBytes hi hle hop
    · rw [hdec]
      exact ⟨le_rfl, fun n _ => sameCell_of_eq rfl rfl n⟩
  exact ⟨kept.fieldEnd, fun n hn hlast => kept.cells n ⟨hn, hlast⟩⟩

/-! ### The invariant of the parser

The parser's part of the invariant speaks of a number of bytes `n` and not of the track: the bytes the parser has
been given. So it can be said of the decoder while a byte has been appended and not yet consumed. -/

/-- The catalog is within its capacity, and its records lie in the first `n` bytes (R53, R63). -/
structure CatalogInv (c : Params) (n : Nat) (cat : List SectorRecord) : Prop where
  cap : cat.length ≤ c.catalogCap
  within : ∀ r ∈ cat, r.offset + r.length ≤ n

theorem CatalogInv.mono {c : Params} {m n : Nat} {cat : List SectorRecord} (h : CatalogInv c m cat)
    (hmn : m ≤ n) : CatalogInv c n cat :=
  ⟨h.cap, fun r hr => (h.within r hr).trans hmn⟩

theorem CatalogInv.append {c : Params} {n : Nat} {cat : List SectorRecord} {r : SectorRecord}
    (h : CatalogInv c n cat) (room : cat.length ≠ c.catalogCap) (hr : r.offset + r.length ≤ n) :
    CatalogInv c n (cat ++ [r]) where
  cap := by
    have := h.cap
    rw [List.length_append, List.length_singleton]
    omega
  within q hq := by
    rcases List.mem_append.1 hq with hq | hq
    · exact h.within q hq
    · rwa [List.mem_singleton.1 hq]

/-- The legal values of the field registers in each stage, when the parser has been given `n` bytes: the record
under construction, the count, and where the field began (R28, R32, R53). -/
def StageInv (n : Nat) (d : Decoder) : Prop :=
  match d.stage with
  | .idle => d.openRec = none
  | .readId k => ∃ r, d.openRec = some r ∧ r.offset + k.val = n
  | .readIdCrc j => ∃ r, d.openRec = some r ∧ r.offset + idLen + j.val = n
  | .readData k =>
    ∃ r, d.openRec = some r ∧ r.offset + k = n ∧ k < sectorLength d ∧ d.lenKnown = true
  | .readDataCrc j =>
    ∃ r, d.openRec = some r ∧ r.offset + sectorLength d + j.val = n ∧ d.lenKnown = true
  | .amigaHeader k => d.openRec = none ∧ d.hOff + k.val = n ∧ 1 ≤ k.val
  | .amigaData k => ∃ r, d.openRec = some r ∧ r.offset + k.val = n

/-- The parser's part of the invariant, when it has been given `n` bytes. -/
structure ParserInv (c : Params) (n : Nat) (d : Decoder) : Prop where
  field : StageInv n d
  fieldEndLe : d.fieldEnd ≤ n
  consumed : d.stage ≠ .idle → d.fieldEnd = n
  catalog : CatalogInv c n d.catalog

/-- While no field is open, only fieldEnd and the catalog matter. -/
theorem parserInv_of_idle {c : Params} {n : Nat} {d : Decoder} (hs : d.stage = .idle) (hr : d.openRec = none)
    (hf : d.fieldEnd ≤ n) (hc : CatalogInv c n d.catalog) : ParserInv c n d :=
  ⟨by simpa [StageInv, hs] using hr, hf, fun h => absurd hs h, hc⟩

/-- While no field is open, no record is under construction. -/
theorem ParserInv.openRec_of_idle {c : Params} {n : Nat} {d : Decoder} (h : ParserInv c n d)
    (hs : d.stage = .idle) : d.openRec = none := by
  simpa [StageInv, hs] using h.field

/-- While no field is open, a change of other registers keeps the parser's part, and so does giving it more
bytes. -/
theorem ParserInv.idle_congr {c : Params} {m n : Nat} {d e : Decoder} (h : ParserInv c m d) (hs : d.stage = .idle)
    (hmn : m ≤ n) (hst : e.stage = d.stage) (hr : e.openRec = d.openRec) (hf : e.fieldEnd = d.fieldEnd)
    (hc : e.catalog = d.catalog) : ParserInv c n e := by
  have hnone := hr.trans (h.openRec_of_idle hs)
  refine parserInv_of_idle (hst.trans hs) hnone ?_ ?_
  · rw [hf]
    exact h.fieldEndLe.trans hmn
  · rw [hc]
    exact h.catalog.mono hmn

/-- The parser's part does not read the last kind. -/
theorem ParserInv.withLastKind {c : Params} {n : Nat} {d : Decoder} {k : LastKind} (h : ParserInv c n d) :
    ParserInv c n { d with lastKind := k } :=
  ⟨h.field, h.fieldEndLe, h.consumed, h.catalog⟩

/-- The demodulator's part of the invariant: the track, the countdown and the last kind (R24, R25, R50). -/
structure DemodInv (c : Params) (d : Decoder) : Prop where
  track : TrackInv c d
  cntRange : 1 ≤ d.cnt ∧ d.cnt ≤ 16
  lastKindNone : d.lastKind = .none ↔ d.trackLen = 0

/-- The field registers are legal in the sense of `DecoderInv` exactly when they are so stage by stage. -/
theorem stageInv_iff {n : Nat} {d : Decoder} :
    StageInv n d ↔
      d.openRec.isSome = d.stage.openField ∧
      (∀ k, d.stage = .readData k → k < sectorLength d ∧ d.lenKnown = true) ∧
      (∀ j, d.stage = .readDataCrc j → d.lenKnown = true) ∧
      (∀ k, d.stage = .amigaHeader k → 1 ≤ k.val) ∧
      (∀ m, fieldReach d = some m → m = n) := by
  unfold StageInv fieldReach
  cases hs : d.stage <;> cases hr : d.openRec <;> simp [Stage.openField, and_comm]

/-- In every stage but Idle the open field has an end. -/
theorem fieldReach_isSome {d : Decoder} (hr : d.openRec.isSome = d.stage.openField) :
    (fieldReach d).isSome = true ↔ d.stage ≠ .idle := by
  unfold fieldReach
  cases hs : d.stage <;> cases hrec : d.openRec <;> simp_all [Stage.openField]

/-- The invariant of the decoder is that of its demodulator and that of its parser, which has been given the
whole track. -/
theorem decoderInv_iff {c : Params} {d : Decoder} :
    DecoderInv c d ↔ DemodInv c d ∧ ParserInv c d.trackLen d := by
  constructor
  · intro h
    refine ⟨⟨h.track, h.cntRange, h.lastKindNone⟩, ?_, h.fieldEndLe, fun hs => ?_, h.catCap, h.records⟩
    · exact stageInv_iff.2 ⟨h.openIff, h.dataCount, h.dataCrcKnown, h.headerCount, fun m hm => (h.reach m hm).1⟩
    · obtain ⟨m, hm⟩ := Option.isSome_iff_exists.1 ((fieldReach_isSome h.openIff).2 hs)
      exact (h.reach m hm).2
  · rintro ⟨hdemod, hparser⟩
    obtain ⟨hopen, hdata, hcrc, hheader, hreach⟩ := stageInv_iff.1 hparser.field
    refine ⟨hdemod.track, hdemod.cntRange, hdemod.lastKindNone, hparser.fieldEndLe, hopen, hdata, hcrc, hheader,
      fun m hm => ⟨hreach m hm, hparser.consumed ?_⟩, hparser.catalog.cap, hparser.catalog.within⟩
    exact (fieldReach_isSome hopen).1 (Option.isSome_iff_exists.2 ⟨m, hm⟩)

theorem DecoderInv.parser {c : Params} {d : Decoder} (h : DecoderInv c d) : ParserInv c d.trackLen d :=
  (decoderInv_iff.1 h).2

/-- The invariant lets dstate, pos and the window hold any value, and cnt any in its range. -/
theorem DecoderInv.withDemod {c : Params} {d : Decoder} {x : DState} {p k : Nat} {w : Half}
    (h : DecoderInv c d) (hk : 1 ≤ k ∧ k ≤ 16) :
    DecoderInv c { d with dstate := x, pos := p, window := w, cnt := k } :=
  ⟨h.track.congr rfl rfl rfl, hk, h.lastKindNone, h.fieldEndLe, h.openIff, h.dataCount, h.dataCrcKnown,
    h.headerCount, h.reach, h.catCap, h.records⟩

/-! ### The parser keeps its invariant -/

/-- A close puts a record into the catalog whose payload ends in the bytes given, if the open one's did. -/
theorem CatalogInv.append_closed {c : Params} {n len : Nat} {st : CrcStatus} {d : Decoder} {r : OpenRec}
    (h : CatalogInv c n d.catalog) (room : d.catalog.length ≠ c.catalogCap) (hr : d.openRec = some r)
    (hlen : r.offset + len ≤ n) : CatalogInv c n (d.catalog ++ [closedRecord st len d]) := by
  refine h.append room ?_
  simpa [closedRecord, openRecord_some hr] using hlen

/-- The parser has been given `n` bytes, and a field has taken the last of them: fieldEnd says so, and the field
registers are about to change. -/
structure ByteTaken (c : Params) (n : Nat) (d : Decoder) : Prop where
  fieldEnd : d.fieldEnd = n
  catalog : CatalogInv c n d.catalog

/-- A field that goes on has taken every byte. -/
theorem ByteTaken.goesOn {c : Params} {n : Nat} {d : Decoder} (h : ByteTaken c n d) (hs : StageInv n d) :
    ParserInv c n d :=
  ⟨hs, h.fieldEnd.le, fun _ => h.fieldEnd, h.catalog⟩

/-- A field that is completed leaves the parser Idle (R154). -/
theorem ByteTaken.completed {c : Params} {n len : Nat} {st : CrcStatus} {d e : Decoder} {r : OpenRec}
    (ht : ByteTaken c n d) (hr : d.openRec = some r) (hlen : r.offset + len ≤ n)
    (h : closeIdle c st len d = .ok e) : ParserInv c n e := by
  obtain ⟨room, rfl⟩ := closeIdle_ok.1 h
  exact parserInv_of_idle rfl rfl ht.fieldEnd.le (ht.catalog.append_closed room hr hlen)

/-- The payload bytes that an open field has received lie in the bytes given (R155). -/
theorem StageInv.received {n : Nat} {d : Decoder} (h : StageInv n d) (ho : d.stage.openField = true) :
    ∃ r, d.openRec = some r ∧ r.offset + receivedLength d ≤ n := by
  unfold StageInv at h
  unfold receivedLength
  cases hs : d.stage <;> simp only [hs] at h ho
  case idle | amigaHeader => cases ho
  all_goals
    obtain ⟨r, hr, hreach⟩ := h
    exact ⟨r, hr, by simp only; omega⟩

theorem truncateOpen_parserInv {c : Params} {n : Nat} {d e : Decoder} (h : ParserInv c n d)
    (ht : truncateOpen c d = .ok e) : ParserInv c n e := by
  by_cases hs : d.stage = .idle
  · rw [truncateOpen_idle hs] at ht
    cases ht
    exact h
  · rw [truncateOpen_open hs, truncate_ok] at ht
    split at ht
    case isTrue hopen =>
      obtain ⟨room, rfl⟩ := ht
      obtain ⟨r, hr, hlen⟩ := h.field.received hopen
      exact parserInv_of_idle rfl rfl h.fieldEndLe (h.catalog.append_closed room hr hlen)
    case isFalse hclosed =>
      subst ht
      have hrec : d.openRec.isSome = d.stage.openField := (stageInv_iff.1 h.field).1
      have hnone : d.openRec = none := Option.not_isSome_iff_eq_none.1 (by rwa [hrec])
      exact parserInv_of_idle rfl hnone h.fieldEndLe h.catalog

theorem sectorLength_pos (d : Decoder) : 0 < sectorLength d := by
  rw [sectorLength, Nat.shiftLeft_eq]
  positivity

/-- A record that is closed at its mark has no payload (R149, R153). -/
theorem ByteTaken.closedAtMark {c : Params} {kind : RecordKind} {v : Byte} {p : Nat} {d e : Decoder}
    (ht : ByteTaken c (p + 1) d) (h : closeAtMark c kind v p d = .ok e) : ParserInv c (p + 1) e :=
  ByteTaken.completed (d := { d with openRec := some ⟨kind, v, p + 1⟩ }) ⟨ht.fieldEnd, ht.catalog⟩ rfl le_rfl h

/-- A mark opens a field at the next byte, or is recorded at once; what the field registers held before does
not matter (R142 to R153). -/
theorem runMark_parserInv {c : Params} {f : MarkForm} {p : Nat} {d e : Decoder}
    (hc : CatalogInv c (p + 1) d.catalog) (h : runMark c f p d = .ok e) : ParserInv c (p + 1) e := by
  have taken : ByteTaken c (p + 1) { d with fieldEnd := p + 1 } := ⟨rfl, hc⟩
  cases f with
  | idamFc | idamFd | idamFe =>
    cases h
    exact ByteTaken.goesOn ⟨rfl, hc⟩ ⟨_, rfl, rfl⟩
  | dam v =>
    simp only [runMark, dataMark] at h
    split at h
    case isTrue hknown =>
      cases h
      exact ByteTaken.goesOn ⟨rfl, hc⟩ ⟨_, rfl, rfl, sectorLength_pos _, hknown⟩
    case isFalse => exact taken.closedAtMark h
  | unknown v => exact taken.closedAtMark h

/-- The recovery rewrite leaves the catalog alone (R172). -/
theorem recoverRewrite_catalog (p : Nat) (d : Decoder) : (recoverRewrite p d).catalog = d.catalog := by
  unfold recoverRewrite
  induction List.range' (recoverFloor p d) (p - recoverFloor p d) generalizing d with
  | nil => rfl
  | cons q qs ih =>
    rw [List.foldl_cons, ih]
    unfold recoverRewriteAt
    split <;> simp

theorem idleByte_parserInv {c : Params} {v : Byte} {p : Nat} {d e : Decoder} (h : ParserInv c p d)
    (hs : d.stage = .idle) (hb : idleByte c v p d = .ok e) : ParserInv c (p + 1) e := by
  have hnone := h.openRec_of_idle hs
  have hc := h.catalog.mono (Nat.le_succ p)
  unfold idleByte at hb
  split_ifs at hb
  · exact runMark_parserInv hc hb
  · exact runMark_parserInv (by rw [recoverRewrite_catalog]; exact hc) hb
  · cases hb
    exact ByteTaken.goesOn ⟨rfl, hc⟩ ⟨hnone, rfl, le_rfl⟩
  · cases hb
    exact parserInv_of_idle hs hnone (Nat.le_succ_of_le h.fieldEndLe) hc

/-! The bytes of an open field, stage by stage: each takes the field one byte further, or completes it. -/

section

variable {c : Params} {n : Nat} {v : Byte} {d e : Decoder} {r : OpenRec}

theorem idByte_parserInv {k : Fin 4} (ht : ByteTaken c n d) (hr : d.openRec = some r)
    (hreach : r.offset + k.val + 1 = n) : ParserInv c n (idByte k v d) := by
  unfold idByte
  split
  · exact ByteTaken.goesOn ⟨ht.fieldEnd, ht.catalog⟩ ⟨r, hr, hreach⟩
  · have hk : k.val = 3 := by omega
    rw [hk] at hreach
    exact ByteTaken.goesOn ⟨ht.fieldEnd, ht.catalog⟩ ⟨r, hr, hreach⟩

theorem idCrcByte_parserInv {j : Fin 2} (ht : ByteTaken c n d) (hr : d.openRec = some r)
    (hreach : r.offset + idLen + j.val + 1 = n) (h : idCrcByte c j v d = .ok e) : ParserInv c n e := by
  unfold idCrcByte at h
  split at h
  case isTrue hj =>
    subst hj
    cases h
    exact ByteTaken.goesOn ⟨ht.fieldEnd, ht.catalog⟩ ⟨r, hr, hreach⟩
  case isFalse => exact ht.completed hr (by omega) h

theorem dataByte_parserInv {k : Nat} (ht : ByteTaken c n d) (hr : d.openRec = some r)
    (hreach : r.offset + k + 1 = n) (hcount : k < sectorLength d) (hknown : d.lenKnown = true) :
    ParserInv c n (dataByte k v d) := by
  have taken : ByteTaken c n (dataByte k v d) := ⟨ht.fieldEnd, ht.catalog⟩
  by_cases hlast : k + 1 = sectorLength d
  · have hst : (dataByte k v d).stage = .readDataCrc 0 := if_pos hlast
    refine taken.goesOn ?_
    rw [StageInv, hst]
    exact ⟨r, hr, (congrArg (r.offset + ·) hlast.symm).trans hreach, hknown⟩
  · have hst : (dataByte k v d).stage = .readData (k + 1) := if_neg hlast
    refine taken.goesOn ?_
    rw [StageInv, hst]
    exact ⟨r, hr, hreach, Nat.lt_of_le_of_ne hcount hlast, hknown⟩

theorem dataCrcByte_parserInv {j : Fin 2} (ht : ByteTaken c n d) (hr : d.openRec = some r)
    (hreach : r.offset + sectorLength d + j.val + 1 = n) (hknown : d.lenKnown = true)
    (h : dataCrcByte c j v d = .ok e) : ParserInv c n e := by
  unfold dataCrcByte at h
  split at h
  case isTrue hj =>
    subst hj
    cases h
    exact ByteTaken.goesOn ⟨ht.fieldEnd, ht.catalog⟩ ⟨r, hr, hreach, hknown⟩
  case isFalse => exact ht.completed hr (by omega) h

/-- A header region that is complete is abandoned, or recorded with the data region after it (R177 to R181). -/
theorem headerDone_parserInv (ht : ByteTaken c n d) (hr : d.openRec = none) (hreach : d.hOff + amigaHdrLen = n)
    (h : headerDone c d = .ok e) : ParserInv c n e := by
  rcases headerDone_cases h with rfl | ⟨i, st, g, hg, rfl⟩
  · exact parserInv_of_idle rfl hr ht.fieldEnd.le ht.catalog
  · obtain ⟨room, rfl⟩ := close_ok.1 hg
    have recorded := CatalogInv.append_closed (d := amigaLatch i d) (st := st) ht.catalog room rfl hreach.le
    exact ByteTaken.goesOn ⟨ht.fieldEnd, recorded⟩ ⟨_, rfl, hreach⟩

theorem amigaHeaderByte_parserInv {k : Fin amigaHdrLen} (ht : ByteTaken c n d) (hr : d.openRec = none)
    (hreach : d.hOff + k.val + 1 = n) (h : amigaHeaderByte c k v d = .ok e) : ParserInv c n e := by
  have taken : ByteTaken c n { d with hBuf := d.hBuf.set k.val v } := ⟨ht.fieldEnd, ht.catalog⟩
  simp only [amigaHeaderByte] at h
  split at h
  · cases h
    exact ByteTaken.goesOn ⟨ht.fieldEnd, ht.catalog⟩ ⟨hr, hreach, Nat.le_add_left 1 k.val⟩
  · have hoff : d.hOff + amigaHdrLen = n := by omega
    exact headerDone_parserInv taken hr hoff h

theorem amigaDataByte_parserInv {k : Fin amigaDataLen} (ht : ByteTaken c n d) (hr : d.openRec = some r)
    (hreach : r.offset + k.val + 1 = n) (h : amigaDataByte c k v d = .ok e) : ParserInv c n e := by
  have taken : ByteTaken c n { d with fold := foldByte k.val v d.fold } := ⟨ht.fieldEnd, ht.catalog⟩
  simp only [amigaDataByte] at h
  split at h
  · cases h
    exact ByteTaken.goesOn ⟨ht.fieldEnd, ht.catalog⟩ ⟨r, hr, hreach⟩
  · exact taken.completed hr (by omega) h

end

/-- A byte that arrives while a field is open (R140). -/
theorem consume_open_parserInv {c : Params} {v : Byte} {p : Nat} {d e : Decoder} (h : ParserInv c p d)
    (hs : d.stage ≠ .idle) (hb : consume c v p d = .ok e) : ParserInv c (p + 1) e := by
  have taken : ByteTaken c (p + 1) { d with fieldEnd := p + 1 } := ⟨rfl, h.catalog.mono (Nat.le_succ p)⟩
  have hfield := h.field
  unfold StageInv at hfield
  unfold consume at hb
  split at hb <;> simp only [‹d.stage = _›] at hfield
  next hidle => exact absurd hidle hs
  next k _ =>
    obtain ⟨r, hr, hreach⟩ := hfield
    cases hb
    exact idByte_parserInv taken hr (congrArg (· + 1) hreach)
  next j _ =>
    obtain ⟨r, hr, hreach⟩ := hfield
    exact idCrcByte_parserInv taken hr (congrArg (· + 1) hreach) hb
  next k _ =>
    obtain ⟨r, hr, hreach, hcount, hknown⟩ := hfield
    cases hb
    exact dataByte_parserInv taken hr (congrArg (· + 1) hreach) hcount hknown
  next j _ =>
    obtain ⟨r, hr, hreach, hknown⟩ := hfield
    exact dataCrcByte_parserInv taken hr (congrArg (· + 1) hreach) hknown hb
  next k _ =>
    obtain ⟨hr, hreach, -⟩ := hfield
    exact amigaHeaderByte_parserInv taken hr (congrArg (· + 1) hreach) hb
  next k _ =>
    obtain ⟨r, hr, hreach⟩ := hfield
    exact amigaDataByte_parserInv taken hr (congrArg (· + 1) hreach) hb

theorem consume_parserInv {c : Params} {v : Byte} {p : Nat} {d e : Decoder} (h : ParserInv c p d)
    (hb : consume c v p d = .ok e) : ParserInv c (p + 1) e := by
  by_cases hs : d.stage = .idle
  · rw [consume_of_idle hs] at hb
    obtain ⟨f, hf, hreset⟩ := bind_ok.1 hb
    cases hreset
    have key := idleByte_parserInv h hs hf
    exact ⟨key.field, key.fieldEndLe, key.consumed, key.catalog⟩
  · exact consume_open_parserInv h hs hb

/-! ### Every operation of the decoder keeps the invariant -/

theorem TrackInv.of_sameTrack {c : Params} {d e : Decoder} (h : TrackInv c d) (k : SameTrack d e) :
    TrackInv c e :=
  h.congr k.bytes k.syncBits k.trackLen

theorem idleByte_trackInv {c : Params} {v : Byte} {p : Nat} {d e : Decoder} (h : TrackInv c d)
    (hb : idleByte c v p d = .ok e) : TrackInv c e := by
  have rewritten : TrackInv c (recoverRewrite p d) := recoverRewrite_trackInv p _ d h
  have seeded : TrackInv c { recoverRewrite p d with crc := crcRecoverSeed } := rewritten.congr rfl rfl rfl
  unfold idleByte at hb
  split_ifs at hb
  · exact h.of_sameTrack (runMark_sameTrack hb)
  · exact seeded.of_sameTrack (runMark_sameTrack hb)
  · cases hb; exact h.congr rfl rfl rfl
  · cases hb; exact h

theorem consume_trackInv {c : Params} {v : Byte} {p : Nat} {d e : Decoder} (h : TrackInv c d)
    (hb : consume c v p d = .ok e) : TrackInv c e := by
  by_cases hs : d.stage = .idle
  · rw [consume_of_idle hs] at hb
    obtain ⟨f, hf, hreset⟩ := bind_ok.1 hb
    cases hreset
    exact (idleByte_trackInv h hf).congr rfl rfl rfl
  · exact h.of_sameTrack (consume_open_sameTrack hs hb)

/-- A byte that has been appended has not been given to the parser yet. -/
theorem ParserInv.withNewByte {c : Params} {n : Nat} {v : Byte} {y : Bool} {k : LastKind} {d : Decoder}
    (h : ParserInv c n d) : ParserInv c n (withNewByte v y k d) :=
  ⟨h.field, h.fieldEndLe, h.consumed, h.catalog⟩

/-- An emission within the capacity keeps the invariant: the track takes the byte, then the parser does
(R108). -/
theorem emit_inv {c : Params} {v : Byte} {y : Bool} {k : LastKind} {d e : Decoder} (h : DecoderInv c d)
    (hk : k ≠ .none) (he : emit c v y k d = .ok e) : DecoderInv c e := by
  obtain ⟨hroom, hc⟩ := emit_consumes he
  have room : d.trackLen < c.bytesCap := Nat.lt_of_le_of_ne h.track.lenCap hroom
  have appended : TrackInv c (withNewByte v y k d) := (h.track.append v y room).congr rfl rfl rfl
  have given : ParserInv c d.trackLen (withNewByte v y k d) := h.parser.withNewByte
  have hp : d.trackLen ≤ (withNewByte v y k d).trackLen := Nat.le_succ d.trackLen
  have same := consume_sameDemod hp hc
  have hlen : e.trackLen = d.trackLen + 1 := same.trackLen
  have hkind : e.lastKind = k := same.lastKind
  have hcnt : e.cnt = d.cnt := same.cnt
  refine decoderInv_iff.2 ⟨⟨consume_trackInv appended hc, hcnt ▸ h.cntRange, ?_⟩, ?_⟩
  · simp [hkind, hk, hlen]
  · rw [hlen]
    exact consume_parserInv given hc

/-- Placing an A1 while no field is open keeps the invariant, once the A1 is the last kind: the track that it is
placed on is not empty after it (R113, R114). -/
theorem placeA1_inv {c : Params} {b : Bool} {d e : Decoder} (h : DecoderInv c d) (hs : d.stage = .idle)
    (he : placeA1 c (replacesC2 b d) d = .ok e) : DecoderInv c { e with lastKind := .a1 } ∧ e.stage = .idle := by
  rcases placeA1_ok.1 he with ⟨hr, rfl⟩ | ⟨-, hroom, rfl⟩
  · have hlen : d.trackLen ≠ 0 := by
      rw [ne_eq, ← h.lastKindNone, lastKind_of_replacesC2 hr]
      exact LastKind.noConfusion
    have track := h.track.rewrite (d.trackLen - 1) a1Byte true
    have parser := h.parser.idle_congr hs le_rfl (e := trackRewrite (d.trackLen - 1) a1Byte true d)
      (by simp) (by simp) (by simp) (by simp)
    refine ⟨decoderInv_iff.2 ⟨⟨track.congr rfl rfl rfl, ?_, ?_⟩, ?_⟩, by simpa using hs⟩
    · simpa using h.cntRange
    · simpa using hlen
    · simpa using parser.withLastKind (k := .a1)
  · have room : d.trackLen < c.bytesCap := Nat.lt_of_le_of_ne h.track.lenCap hroom
    have track := h.track.append a1Byte true room
    have parser := h.parser.idle_congr hs (Nat.le_succ _) (e := trackAppend a1Byte true d) rfl rfl rfl rfl
    exact ⟨decoderInv_iff.2 ⟨⟨track.congr rfl rfl rfl, h.cntRange, by simp⟩, parser.withLastKind⟩, hs⟩

/-- The fixup and the count that follow keep the invariant while no field is open (R115 to R117). -/
theorem fixed_inv {c : Params} {p : Nat} {d : Decoder} (h : DecoderInv c d) (hs : d.stage = .idle) :
    DecoderInv c (countA1 (fixupGated c p d)) := by
  rw [fixupGated_eq]
  obtain ⟨same, hfe, -, hst, -, -, hrec, hcat, -, track⟩ :=
    fixupWalk_frame c p (if d.recover = false ∧ d.preserve = false then p else 0) d
  refine decoderInv_iff.2 ⟨⟨(track h.track).congr rfl rfl rfl, ?_, ?_⟩, ?_⟩
  · rw [countA1_cnt, same.cnt]
    exact h.cntRange
  · rw [countA1_lastKind, countA1_trackLen, same.lastKind, same.trackLen]
    exact h.lastKindNone
  · rw [countA1_trackLen, same.trackLen]
    exact h.parser.idle_congr hs le_rfl hst hrec hfe hcat

theorem truncateOpen_inv {c : Params} {d e : Decoder} (h : DecoderInv c d) (ht : truncateOpen c d = .ok e) :
    DecoderInv c e := by
  obtain ⟨-, hlen, hb, hs, -, -, hcnt, hk, -⟩ := truncateOpen_frame ht
  refine decoderInv_iff.2 ⟨⟨h.track.congr hb hs hlen, hcnt ▸ h.cntRange, ?_⟩, ?_⟩
  · rw [hk, hlen]
    exact h.lastKindNone
  · rw [hlen]
    exact truncateOpen_parserInv h.parser ht

theorem syncRun_inv {c : Params} {b : Bool} {d g : Decoder} (h : DecoderInv c d)
    (hg : syncRun c b d = .ok g) : DecoderInv c g := by
  obtain ⟨e, f, he, hf, rfl⟩ := syncRun_ok.1 hg
  obtain ⟨hidle, -, -, -, -, -, -, hkind, -⟩ := truncateOpen_frame he
  have hplace : placeA1 c (replacesC2 b e) e = .ok f := by rwa [replacesC2, hkind]
  obtain ⟨placed, hs⟩ := placeA1_inv (truncateOpen_inv h he) hidle hplace
  exact fixed_inv placed hs

theorem runWindow_inv {c : Params} {f : WindowForm} {d e : Decoder} (h : DecoderInv c d)
    (he : runWindow c f d = .ok e) : DecoderInv c e := by
  obtain ⟨g, rfl, hg⟩ := runWindow_ok.1 he
  have key : DecoderInv c g := by
    cases f with
    | syncA1 => exact syncRun_inv h hg
    | markC2 => exact emit_inv h (by split <;> exact LastKind.noConfusion) hg
    | gap4E | dataWindow w => exact emit_inv h LastKind.noConfusion hg
  exact key.withDemod (by decide)

/-- A bit that completes no form is not on the presumed boundary (R103, R105). -/
theorem cnt_ne_one_of_recognize {c : Params} {d : Decoder} (h : recognize c d = none) : d.cnt ≠ 1 := by
  unfold recognize at h
  split_ifs at h with _ _ _ hdue
  simpa [due] using hdue

theorem stepBit_inv {c : Params} {b : Bool} {d e : Decoder} (h : DecoderInv c d) (he : stepBit c b d = .ok e) :
    DecoderInv c e := by
  have shifted : DecoderInv c (shiftIn b d) := h.withDemod h.cntRange
  rcases stepBit_ok.1 he with ⟨hnone, rfl⟩ | ⟨f, -, hf⟩
  · have hne : (shiftIn b d).cnt ≠ 1 := cnt_ne_one_of_recognize hnone
    rw [shiftIn_cnt] at hne
    have hrange := h.cntRange
    exact shifted.withDemod (by omega)
  · exact runWindow_inv shifted hf

theorem stepBits_inv {c : Params} {bs : List Bool} {d e : Decoder} (h : DecoderInv c d)
    (he : stepBits c bs d = .ok e) : DecoderInv c e := by
  induction bs generalizing d with
  | nil => cases he; exact h
  | cons b bs ih =>
    obtain ⟨g, hg, hrest⟩ := stepBits_cons_ok.1 he
    exact ih (stepBit_inv h hg) hrest

theorem endTrack_inv {c : Params} {d e : Decoder} (h : DecoderInv c d) (he : endTrack c d = .ok e) :
    DecoderInv c e := by
  obtain ⟨f, hf, rfl⟩ := endTrack_ok.1 he
  have key := truncateOpen_inv h hf
  exact key.withDemod key.cntRange

/-- DEC_START leaves the invariant whatever the state was (R41, R100). -/
theorem start_inv (c : Params) (r p : Bool) : DecoderInv c (Decoder.start r p) := by
  have track : TrackInv c (Decoder.start r p) := ⟨rfl, rfl, nofun, nofun, Nat.zero_le _⟩
  have parser : ParserInv c 0 (Decoder.start r p) := parserInv_of_idle rfl rfl le_rfl ⟨Nat.zero_le _, nofun⟩
  exact decoderInv_iff.2 ⟨⟨track, by simp [Decoder.start], by simp [Decoder.start]⟩, parser⟩

/-- The mark forms, which a command runs only on the byte it has just emitted (R142). -/
def isMarkInstr : Instr → Bool
  | .idamFc | .idamFd | .idamFe | .dam _ | .markUnknown _ => true
  | _ => false

/-- Every instruction that takes effect keeps the invariant, but for a mark form by itself. -/
theorem decoderOp_inv {i : Instr} {c : Params} {d e : Decoder} (hi : isMarkInstr i = false)
    (h : DecoderInv c d) (he : decoderOp i c d = .ok e) : DecoderInv c e := by
  unfold decoderOp at he
  cases i with
  | decStart r p => cases he; exact start_inv c r p
  | decBit b => exact stepBit_inv h he
  | decByte x => exact stepBits_inv h he
  | decEnd => exact endTrack_inv h he
  | syncA1 | markC2 | gap4E | dataWindow => exact runWindow_inv h he
  | idamFc | idamFd | idamFe | dam | markUnknown => cases hi
  | encStart | encByte | crcLoad | crcByte | encSyncA1 | encSyncC2 | encData => cases he; exact h

/-! ### The invariant over a step -/

/-- A command word is never a mark form (R80). -/
theorem decodeCommand_notMark {w : Word} {i : Instr} (h : decodeCommand w = .ok i) : isMarkInstr i = false := by
  simp only [decodeCommand] at h
  split at h
  case h_9 => cases h
  all_goals
    obtain ⟨-, rfl⟩ := checkReserved_ok.1 h
    rfl

/-- What a step does (R65, R87): nothing, or it takes the oldest word and refuses or runs it. -/
theorem step_cases {s t : State} (h : step s = .next t) :
    (s.port = [] ∧ t = s) ∨ ∃ w rest, s.port = w :: rest ∧
      ((∃ r, decodeCommand w = .error r ∧ t = refuse r { s with port := rest }) ∨
        ∃ i, decodeCommand w = .ok i ∧ exec i { s with port := rest } = .next t) := by
  unfold step fetch at h
  cases hport : s.port with
  | nil =>
    rw [hport] at h
    cases h
    exact .inl ⟨rfl, rfl⟩
  | cons w rest =>
    refine .inr ⟨w, rest, rfl, ?_⟩
    cases hdec : decodeCommand w with
    | error r =>
      simp only [hport, hdec] at h
      cases h
      exact .inl ⟨r, rfl, rfl⟩
    | ok i =>
      simp only [hport, hdec] at h
      exact .inr ⟨i, rfl, h⟩

theorem failureCodes_subset : failureCodes ⊆ resultCodes := List.subset_cons_self _ _

/-- Every instruction but a mark form by itself keeps the good states. -/
theorem exec_stateInv {i : Instr} {s t : State} (hi : isMarkInstr i = false) (hs : StateInv s)
    (h : exec i s = .next t) : StateInv t := by
  obtain ⟨hcfg, -⟩ := datapathsShareNoRegister i s t h
  rcases exec_outcome h with ⟨hres, hop⟩ | ⟨hres, x, hdec⟩
  · exact ⟨hcfg ▸ decoderOp_inv hi hs.decoder hop, hres ▸ List.mem_cons_self⟩
  · refine ⟨?_, failureCodes_subset hres⟩
    rw [hcfg, hdec]
    exact hs.decoder.withDemod hs.decoder.cntRange

/-- Settles O49: a word is refused, which changes only RESULT, or it is a command, and every command keeps the
invariant: the demodulator's part with each bit, the parser's part with each byte. -/
theorem stepKeepsInvariant : Obligations.StepKeepsInvariant := by
  intro s t hs h
  rcases step_cases h with ⟨-, rfl⟩ | ⟨w, rest, -, ⟨r, -, rfl⟩ | ⟨i, hi, hexec⟩⟩
  · exact hs
  · exact ⟨hs.decoder, failureCodes_subset (refuseCode_mem r)⟩
  · have taken : StateInv { s with port := rest } := ⟨hs.decoder, hs.result⟩
    exact exec_stateInv (decodeCommand_notMark hi) taken hexec

/-- Settles O50: the decoder at power-on is that of DEC_START, and RESULT is OK. -/
theorem powerOnMeetsInvariant : Obligations.PowerOnMeetsInvariant := by
  have powered (c : Params) : StateInv (State.powerOn c) := ⟨start_inv c false false, List.mem_cons_self⟩
  exact ⟨powered, powered defaultParams⟩

end Sys2Proof.Machine

/-! # Scope: the memory: the read-out, what only grows, and a codeword in the window -/

namespace Sys2Proof.Machine

open Sys2Proof.Config

/-! ### The read-out (20_memory.md R52, R54) -/

@[simp] theorem length_syncBitmap (d : Decoder) : (syncBitmap d).length = controlBytes d := by
  simp [syncBitmap]

theorem getElem_syncBitmap (d : Decoder) (j : Nat) (h : j < (syncBitmap d).length) :
    (syncBitmap d)[j] = packedControl d j := by
  simp [syncBitmap]

/-- Bit i of a control byte is a sync bit of the track, and 0 past its end (R52). -/
theorem packedControl_getLsbD (d : Decoder) (j : Nat) {i : Nat} (hi : i < 8) :
    (packedControl d j).getLsbD i = if 8 * j + i < d.trackLen then syncRead d (8 * j + i) else false := by
  rw [packedControl, ofBits_getLsbD, decide_eq_true hi, Bool.true_and]
  split
  next h => rw [decide_eq_true h, Bool.true_and]
  next h => rw [decide_eq_false h, Bool.false_and]

/-- Settles O57: the bitmap is the list of the control bytes. -/
theorem packedSyncBitmap : Obligations.PackedSyncBitmap := by
  refine fun d => ⟨length_syncBitmap d, fun j h n => ?_⟩
  rw [getElem_syncBitmap]
  exact packedControl_getLsbD d j n.isLt

/-- The fields of word 0, from the lowest bit up (R54). -/
theorem recordWords_word0 (r : SectorRecord) :
    (recordWords r).word0.extractLsb' 0 2 = kindCode r.kind ∧
      (recordWords r).word0.extractLsb' 2 2 = statusCode r.crcStatus ∧
      (recordWords r).word0.extractLsb' 4 4 = 0 ∧
      (recordWords r).word0.extractLsb' 8 8 = r.markByte ∧
      (recordWords r).word0.extractLsb' 16 8 = r.cylinder ∧
      (recordWords r).word0.extractLsb' 24 8 = r.side := by
  simp (disch := decide) only [recordWords, BitVec.extractLsb'_append_eq_of_add_le,
    BitVec.extractLsb'_append_eq_of_le, Nat.reduceSub, BitVec.extractLsb'_eq_self, and_self]

/-- The fields of word 1 (R54). -/
theorem recordWords_word1 (r : SectorRecord) :
    (recordWords r).word1.extractLsb' 0 8 = r.sector ∧ (recordWords r).word1.extractLsb' 8 24 = 0 := by
  refine ⟨BitVec.eq_of_getLsbD_eq fun i hi => ?_, BitVec.eq_of_getLsbD_eq fun i hi => ?_⟩
  · simp [recordWords, hi]
    omega
  · simp [recordWords]

/-- Settles O58: each word by its layout; the offset and the length fit theirs (R8). -/
theorem recordReadout : Obligations.RecordReadout := by
  intro r
  obtain ⟨hkind, hstatus, hzero, hmark, hcyl, hside⟩ := recordWords_word0 r
  obtain ⟨hsector, habove⟩ := recordWords_word1 r
  refine ⟨hkind.trans ?_, hstatus.trans ?_, hzero, hmark, hcyl, hside, hsector, habove,
    fun hfits => ?_, fun hfits => ?_⟩
  · cases r.kind <;> rfl
  · cases r.crcStatus <;> rfl
  · exact (BitVec.toNat_ofNat _ _).trans (Nat.mod_eq_of_lt hfits)
  · exact (BitVec.toNat_ofNat _ _).trans (Nat.mod_eq_of_lt hfits)

/-! ### What an operation of the parser does to the catalog (20_memory.md R55)

The parser closes at most one record at a time, and the only fault it can raise is that of a full catalog. -/

/-- What an operation that closes at most one record leaves of the catalog `cat`, or why it faults. -/
def ClosesAtMostOne (c : Params) (cat : List SectorRecord) : Except Fault Decoder → Prop
  | .ok e => ∃ rs : List SectorRecord, rs.length ≤ 1 ∧ e.catalog = cat ++ rs
  | .error _ => cat.length = c.catalogCap

theorem closesAtMostOne_of_eq {c : Params} {cat : List SectorRecord} {e : Decoder} (h : e.catalog = cat) :
    ClosesAtMostOne c cat (.ok e) :=
  ⟨[], Nat.zero_le 1, by rw [h, List.append_nil]⟩

/-- A change of other registers afterwards. -/
theorem ClosesAtMostOne.map {c : Params} {cat : List SectorRecord} {r : Except Fault Decoder}
    {g : Decoder → Decoder} (h : ClosesAtMostOne c cat r) (hg : ∀ d, (g d).catalog = d.catalog) :
    ClosesAtMostOne c cat (r.bind fun d => .ok (g d)) := by
  cases r with
  | ok e =>
    obtain ⟨rs, hlen, he⟩ := h
    exact ⟨rs, hlen, (hg e).trans he⟩
  | error f => exact h

theorem close_catalog {c : Params} {cat : List SectorRecord} {st : CrcStatus} {n : Nat} {d : Decoder}
    (h : d.catalog = cat) : ClosesAtMostOne c cat (close c st n d) := by
  subst h
  unfold close
  split
  next hfull => exact hfull
  next => exact ⟨[closedRecord st n d], le_rfl, rfl⟩

theorem closeIdle_catalog {c : Params} {cat : List SectorRecord} {st : CrcStatus} {n : Nat} {d : Decoder}
    (h : d.catalog = cat) : ClosesAtMostOne c cat (closeIdle c st n d) :=
  (close_catalog h).map fun _ => rfl

theorem truncateOpen_catalog (c : Params) (d : Decoder) : ClosesAtMostOne c d.catalog (truncateOpen c d) := by
  unfold truncateOpen
  split
  · exact closesAtMostOne_of_eq rfl
  · refine ClosesAtMostOne.map (g := fun d => { d with stage := .idle, a1 := 0 }) ?_ fun _ => rfl
    unfold truncateClose
    cases d.stage with
    | idle | amigaHeader => exact closesAtMostOne_of_eq rfl
    | readId | readIdCrc | readData | readDataCrc | amigaData => exact close_catalog rfl

theorem runMark_catalog {c : Params} {cat : List SectorRecord} {f : MarkForm} {p : Nat} {d : Decoder}
    (h : d.catalog = cat) : ClosesAtMostOne c cat (runMark c f p d) := by
  cases f with
  | idamFc | idamFd | idamFe => exact closesAtMostOne_of_eq h
  | dam v =>
    simp only [runMark, dataMark]
    split
    · exact closesAtMostOne_of_eq h
    · exact closeIdle_catalog h
  | unknown v => exact closeIdle_catalog h

theorem idleByte_catalog (c : Params) (v : Byte) (p : Nat) (d : Decoder) :
    ClosesAtMostOne c d.catalog (idleByte c v p d) := by
  unfold idleByte
  split_ifs
  · exact runMark_catalog rfl
  · exact runMark_catalog (recoverRewrite_catalog p d)
  · exact closesAtMostOne_of_eq rfl
  · exact closesAtMostOne_of_eq rfl

theorem headerDone_catalog {c : Params} {cat : List SectorRecord} {d : Decoder} (h : d.catalog = cat) :
    ClosesAtMostOne c cat (headerDone c d) := by
  simp only [headerDone]
  split
  · exact (close_catalog (d := amigaLatch _ d) h).map fun _ => rfl
  · exact closesAtMostOne_of_eq h

/-- A byte that the parser consumes, in every stage (R140, R141). -/
theorem consume_catalog (c : Params) (v : Byte) (p : Nat) (d : Decoder) :
    ClosesAtMostOne c d.catalog (consume c v p d) := by
  unfold consume
  cases d.stage with
  | idle => exact (idleByte_catalog c v p d).map fun _ => rfl
  | readId k =>
    simp only [idByte]
    split <;> exact closesAtMostOne_of_eq rfl
  | readData k => exact closesAtMostOne_of_eq rfl
  | readIdCrc j =>
    simp only [idCrcByte]
    split
    · exact closesAtMostOne_of_eq rfl
    · exact closeIdle_catalog rfl
  | readDataCrc j =>
    simp only [dataCrcByte]
    split
    · exact closesAtMostOne_of_eq rfl
    · exact closeIdle_catalog rfl
  | amigaHeader k =>
    simp only [amigaHeaderByte]
    split
    · exact closesAtMostOne_of_eq rfl
    · exact headerDone_catalog rfl
  | amigaData k =>
    simp only [amigaDataByte]
    split
    · exact closesAtMostOne_of_eq rfl
    · exact closeIdle_catalog rfl

/-! ### What an operation of the demodulator adds (20_memory.md R51, R55; 41_demodulator.md R107) -/

/-- From `d` to `e` the track has gained at most `m` bytes and the catalog at most `n` records, at its end;
neither has lost any. -/
structure Grows (m n : Nat) (d e : Decoder) : Prop where
  keeps : d.trackLen ≤ e.trackLen
  bytes : e.trackLen ≤ d.trackLen + m
  records : ∃ rs : List SectorRecord, rs.length ≤ n ∧ e.catalog = d.catalog ++ rs

theorem Grows.trans {m n k l : Nat} {d e f : Decoder} (h : Grows m n d e) (g : Grows k l e f) :
    Grows (m + k) (n + l) d f where
  keeps := h.keeps.trans g.keeps
  bytes := by
    have hle := h.bytes
    have gle := g.bytes
    omega
  records := by
    obtain ⟨rs, hrs, he⟩ := h.records
    obtain ⟨qs, hqs, hf⟩ := g.records
    refine ⟨rs ++ qs, ?_, by rw [hf, he, List.append_assoc]⟩
    rw [List.length_append]
    omega

theorem grows_of_eq {d e : Decoder} (hl : e.trackLen = d.trackLen) (hc : e.catalog = d.catalog) :
    Grows 0 0 d e :=
  ⟨hl.ge, hl.le, [], le_rfl, by rw [hc, List.append_nil]⟩

/-- The catalog has gained no more records than that. -/
theorem Grows.catalog_length {m n : Nat} {d e : Decoder} (h : Grows m n d e) :
    e.catalog.length ≤ d.catalog.length + n := by
  obtain ⟨rs, hrs, he⟩ := h.records
  rw [he, List.length_append]
  omega

/-- Nothing is taken away. -/
theorem Grows.onlyGrows {m n : Nat} {d e : Decoder} (h : Grows m n d e) :
    d.trackLen ≤ e.trackLen ∧ d.catalog <+: e.catalog := by
  obtain ⟨rs, -, he⟩ := h.records
  exact ⟨h.keeps, rs, he.symm⟩

/-- The same growth, with the window and dstate left alone, as by what a recognized window does (R105). -/
structure Takes (m n : Nat) (d e : Decoder) : Prop extends Grows m n d e where
  window : e.window = d.window
  dstate : e.dstate = d.dstate

theorem Takes.trans {m n k l : Nat} {d e f : Decoder} (h : Takes m n d e) (g : Takes k l e f) :
    Takes (m + k) (n + l) d f :=
  ⟨h.toGrows.trans g.toGrows, g.window.trans h.window, g.dstate.trans h.dstate⟩

/-- A change that leaves the demodulator's registers and the catalog alone. -/
theorem SameDemod.takes {d e : Decoder} (h : SameDemod d e) (hc : e.catalog = d.catalog) : Takes 0 0 d e :=
  ⟨grows_of_eq h.trackLen hc, h.window, h.dstate⟩

theorem truncateOpen_takes {c : Params} {d e : Decoder} (h : truncateOpen c d = .ok e) : Takes 0 1 d e := by
  have hrec := truncateOpen_catalog c d
  rw [h] at hrec
  obtain ⟨-, hlen, -, -, hwin, -, -, -, -, -, hst, -⟩ := truncateOpen_frame h
  exact ⟨⟨hlen.ge, hlen.le, hrec⟩, hwin, hst⟩

theorem placeA1_takes {c : Params} {r : Bool} {d e : Decoder} (h : placeA1 c r d = .ok e) : Takes 1 0 d e := by
  rcases placeA1_ok.1 h with ⟨-, rfl⟩ | ⟨-, -, rfl⟩
  · exact ⟨⟨by simp, by simp, [], le_rfl, by simp⟩, by simp, by simp⟩
  · exact ⟨⟨by simp, by simp, [], le_rfl, by simp⟩, rfl, rfl⟩

/-- An A1 that cannot be placed finds the byte memory full (R113). -/
theorem placeA1_error {c : Params} {r : Bool} {d : Decoder} {f : Fault} (h : placeA1 c r d = .error f) :
    d.trackLen = c.bytesCap := by
  cases r with
  | true => cases h
  | false => exact (appendByte_error.1 h).1

theorem fixupGated_catalog (c : Params) (p : Nat) (d : Decoder) :
    (fixupGated c p d).catalog = d.catalog := by
  rw [fixupGated_eq]
  obtain ⟨-, -, -, -, -, -, -, hcat, -⟩ :=
    fixupWalk_frame c p (if d.recover = false ∧ d.preserve = false then p else 0) d
  exact hcat

/-- The fixup and the count after an A1 is placed add nothing. -/
theorem fixed_takes (c : Params) (p : Nat) (d : Decoder) :
    Takes 0 0 d (countA1 (fixupGated c p { d with lastKind := .a1 })) := by
  have same := fixupGated_sameDemod c p { d with lastKind := .a1 }
  have hcat := fixupGated_catalog c p { d with lastKind := .a1 }
  exact ⟨grows_of_eq same.trackLen hcat, same.window, same.dstate⟩

/-- An operation on `d` completes with `post`, or has no room for `n` bytes and records. -/
def CompletesWithRoom (c : Params) (n : Nat) (d : Decoder) (post : Decoder → Prop) :
    Except Fault Decoder → Prop
  | .ok e => post e
  | .error _ => c.bytesCap < d.trackLen + n ∨ c.catalogCap < d.catalog.length + n

theorem CompletesWithRoom.post_of_ok {c : Params} {n : Nat} {d e : Decoder} {post : Decoder → Prop}
    {r : Except Fault Decoder} (h : CompletesWithRoom c n d post r) (hr : r = .ok e) : post e := by
  subst hr
  exact h

theorem CompletesWithRoom.exists_ok {c : Params} {n : Nat} {d : Decoder} {post : Decoder → Prop}
    {r : Except Fault Decoder} (h : CompletesWithRoom c n d post r) (hb : d.trackLen + n ≤ c.bytesCap)
    (hc : d.catalog.length + n ≤ c.catalogCap) : ∃ e, r = .ok e := by
  cases r with
  | ok e => exact ⟨e, rfl⟩
  | error f => exact absurd h (by simp [CompletesWithRoom]; omega)

/-- An emission adds its byte, and the parser at most one record (R108). -/
theorem emit_completes (c : Params) (v : Byte) (y : Bool) (k : LastKind) (d : Decoder) :
    CompletesWithRoom c 1 d (Takes 1 1 d) (emit c v y k d) := by
  unfold emit
  cases happ : appendByte c v y d with
  | error f => exact .inl (Nat.lt_succ_of_le (appendByte_error.1 happ).1.ge)
  | ok a =>
    obtain ⟨-, rfl⟩ := appendByte_ok.1 happ
    show CompletesWithRoom c 1 d (Takes 1 1 d) (consume c v d.trackLen (withNewByte v y k d))
    have hrec : ClosesAtMostOne c d.catalog (consume c v d.trackLen (withNewByte v y k d)) :=
      consume_catalog c v d.trackLen (withNewByte v y k d)
    cases hc : consume c v d.trackLen (withNewByte v y k d) with
    | error f =>
      rw [hc] at hrec
      exact .inr (Nat.lt_succ_of_le hrec.ge)
    | ok e =>
      rw [hc] at hrec
      have same := consume_sameDemod (Nat.le_succ d.trackLen) hc
      have hlen : e.trackLen = d.trackLen + 1 := same.trackLen
      exact ⟨⟨by omega, hlen.le, hrec⟩, same.window, same.dstate⟩

/-- An A1 sync adds at most its byte and the record that it truncates (R113). -/
theorem syncRun_completes (c : Params) (b : Bool) (d : Decoder) :
    CompletesWithRoom c 1 d (Takes 1 1 d) (syncRun c b d) := by
  have hrec := truncateOpen_catalog c d
  unfold syncRun
  cases he : truncateOpen c d with
  | error f =>
    rw [he] at hrec
    exact .inr (Nat.lt_succ_of_le hrec.ge)
  | ok e =>
    have truncated := truncateOpen_takes he
    show CompletesWithRoom c 1 d (Takes 1 1 d) ((placeA1 c (replacesC2 b d) e).bind _)
    cases hf : placeA1 c (replacesC2 b d) e with
    | error f =>
      have hfull := placeA1_error hf
      have hle := truncated.bytes
      exact .inl (by omega)
    | ok f => exact (truncated.trans (placeA1_takes hf)).trans (fixed_takes c _ f)

/-- A window form adds at most one byte and one record (R109 to R113). -/
theorem runWindow_completes (c : Params) (f : WindowForm) (d : Decoder) :
    CompletesWithRoom c 1 d (Takes 1 1 d) (runWindow c f d) := by
  have restarted {r : Except Fault Decoder} (h : CompletesWithRoom c 1 d (Takes 1 1 d) r) :
      CompletesWithRoom c 1 d (Takes 1 1 d) (r.bind fun e => .ok (restart e)) := by
    cases r with
    | error f => exact h
    | ok e =>
      have taken : Takes 1 1 d e := h
      have same : Takes 0 0 e (restart e) := ⟨grows_of_eq rfl rfl, rfl, rfl⟩
      exact taken.trans same
  cases f with
  | syncA1 => exact restarted (syncRun_completes c _ d)
  | markC2 | gap4E | dataWindow => exact restarted (emit_completes c _ _ _ d)

/-- A mark form adds at most a record (R142). -/
theorem markForm_grows {c : Params} {f : MarkForm} {d e : Decoder} (h : markForm f c d = .ok e) :
    Grows 0 1 d e := by
  have hrec : ClosesAtMostOne c d.catalog (markForm f c d) := runMark_catalog rfl
  rw [h] at hrec
  have hlen := (markForm_sameTrack h).trackLen
  exact ⟨hlen.ge, hlen.le, hrec⟩

/-! ### The window after several channel bits (41_demodulator.md R101, 20_memory.md R57) -/

/-- The window after one channel bit (R101). -/
def shiftBit (w : Half) (b : Bool) : Half := (w >>> 1) ||| ((BitVec.ofBool b).setWidth 16 <<< 15)

/-- The window after several channel bits, the first of the list first. -/
def shiftBits (bs : List Bool) (w : Half) : Half := bs.foldl shiftBit w

/-- The new bit is bit 15, and every other comes from the bit above it (R101). -/
theorem shiftBit_getLsbD (w : Half) (b : Bool) {i : Nat} (hi : i < 16) :
    (shiftBit w b).getLsbD i = if i = 15 then b else w.getLsbD (i + 1) := by
  simp only [shiftBit, BitVec.getLsbD_or, BitVec.getLsbD_ushiftRight, BitVec.getLsbD_shiftLeft,
    BitVec.getLsbD_setWidth, BitVec.getLsbD_ofBool]
  by_cases h : i = 15
  · subst h
    simp
  · have hlt : i < 15 := by omega
    simp [h, hlt, Nat.add_comm]

/-- After `n` bits the window is the old one moved down by `n`, with the bits above it. -/
theorem shiftBits_getLsbD (bs : List Bool) (w : Half) {i : Nat} (hi : i < 16) :
    (shiftBits bs w).getLsbD i =
      if i + bs.length < 16 then w.getLsbD (i + bs.length) else bs.getD (i + bs.length - 16) false := by
  induction bs generalizing w with
  | nil => simp [shiftBits, hi]
  | cons b bs ih =>
    have step : shiftBits (b :: bs) w = shiftBits bs (shiftBit w b) := rfl
    rw [step, ih, List.length_cons, ← Nat.add_assoc]
    rcases Nat.lt_trichotomy (i + bs.length) 15 with h | h | h
    · rw [if_pos (by omega), if_pos (by omega), shiftBit_getLsbD _ _ (by omega), if_neg (by omega)]
    · rw [h, if_pos (by decide), if_neg (by decide), shiftBit_getLsbD _ _ (by decide), if_pos rfl]
      rfl
    · have hsucc : i + bs.length + 1 - 16 = i + bs.length - 16 + 1 := by omega
      rw [if_neg (by omega), if_neg (by omega), hsucc, List.getD_cons_succ]

@[simp] theorem length_channelBits (x : Byte) : (channelBits x).length = 8 := by
  simp [channelBits]

theorem channelBits_getD (x : Byte) {i : Nat} (hi : i < 8) : (channelBits x).getD i false = x.getLsbD i := by
  simp [channelBits, hi]

/-- The channel bits of a byte put it in the upper half of the window, above what was there (R56, R101). -/
theorem shiftBits_channelBits (x : Byte) (w : Half) :
    shiftBits (channelBits x) w = x ++ w.extractLsb' 8 8 := by
  refine BitVec.eq_of_getLsbD_eq fun i hi => ?_
  rw [shiftBits_getLsbD _ _ hi, length_channelBits, BitVec.getLsbD_append, BitVec.getLsbD_extractLsb']
  by_cases h : i < 8
  · rw [if_pos (by omega), if_pos h, decide_eq_true h, Bool.true_and, Nat.add_comm]
  · rw [if_neg (by omega), if_neg h, channelBits_getD _ (by omega), Nat.add_sub_add_right i 8 8]

/-- The two bytes of a word, low byte first, leave the word in the window, whatever it held (R57). -/
theorem shiftBits_bytes (w u : Half) :
    shiftBits (channelBits ((w >>> 8).setWidth 8)) (shiftBits (channelBits (w.setWidth 8)) u) = w := by
  rw [shiftBits_channelBits, shiftBits_channelBits, BitVec.extractLsb'_append_eq_of_le (by decide)]
  refine BitVec.eq_of_getLsbD_eq fun i hi => ?_
  rw [BitVec.getLsbD_append]
  by_cases h : i < 8
  · simp [h]
  · have hsub : i - 8 < 8 := by omega
    have hadd : 8 + (i - 8) = i := by omega
    simp [h, hsub, hadd]

/-- From `d` to `e` the decoder has shifted these channel bits in: each adds at most a byte and a record. -/
structure Shifts (bs : List Bool) (d e : Decoder) : Prop extends Grows bs.length bs.length d e where
  window : e.window = shiftBits bs d.window
  dstate : e.dstate = d.dstate

theorem Shifts.trans {bs cs : List Bool} {d e f : Decoder} (h : Shifts bs d e) (g : Shifts cs e f) :
    Shifts (bs ++ cs) d f where
  toGrows := by
    rw [List.length_append]
    exact h.toGrows.trans g.toGrows
  window := by rw [g.window, h.window, shiftBits, shiftBits, shiftBits, List.foldl_append]
  dstate := g.dstate.trans h.dstate

/-- What a window form takes after its last bit is taken by that bit. -/
theorem Takes.shifts {b : Bool} {d e : Decoder} (h : Takes 1 1 (shiftIn b d) e) : Shifts [b] d e :=
  ⟨⟨h.keeps, h.bytes, h.records⟩, h.window, h.dstate⟩

/-- A channel bit is shifted in, whatever it completes (R105). -/
theorem stepBit_completes (c : Params) (b : Bool) (d : Decoder) :
    CompletesWithRoom c 1 d (Shifts [b] d) (stepBit c b d) := by
  cases hrec : recognize c (shiftIn b d) with
  | none =>
    simp only [stepBit, hrec]
    exact ⟨⟨le_rfl, Nat.le_succ _, [], Nat.zero_le 1, (List.append_nil _).symm⟩, rfl, rfl⟩
  | some f =>
    simp only [stepBit, hrec]
    have hrun := runWindow_completes c f (shiftIn b d)
    cases hf : runWindow c f (shiftIn b d) with
    | error g =>
      rw [hf] at hrun
      exact hrun
    | ok e => exact (hrun.post_of_ok hf).shifts

/-- Several channel bits are shifted in one by one (R107). -/
theorem stepBits_completes (c : Params) (bs : List Bool) (d : Decoder) :
    CompletesWithRoom c bs.length d (Shifts bs d) (stepBits c bs d) := by
  induction bs generalizing d with
  | nil => exact ⟨grows_of_eq rfl rfl, rfl, rfl⟩
  | cons b bs ih =>
    have hbit := stepBit_completes c b d
    rw [stepBits, List.length_cons]
    cases hg : stepBit c b d with
    | error f =>
      rw [hg] at hbit
      exact hbit.imp (fun h => by omega) (fun h => by omega)
    | ok g =>
      have first := hbit.post_of_ok hg
      have hrest := ih g
      have hbytes := first.bytes
      have hrecords := first.catalog_length
      rw [List.length_singleton] at hbytes hrecords
      show CompletesWithRoom c (bs.length + 1) d (Shifts (b :: bs) d) (stepBits c bs g)
      cases he : stepBits c bs g with
      | error f =>
        rw [he] at hrest
        exact hrest.imp (fun h => by omega) (fun h => by omega)
      | ok e => exact first.trans (hrest.post_of_ok he)

/-! ### The whole instruction (O23, O54) -/

/-- An instruction other than DEC_START that takes effect only adds. -/
theorem decoderOp_grows {i : Instr} {c : Params} {d e : Decoder} (hi : isDecStart i = false)
    (h : decoderOp i c d = .ok e) : ∃ m n, Grows m n d e := by
  unfold decoderOp at h
  cases i with
  | decStart => cases hi
  | decBit b => exact ⟨_, _, ((stepBit_completes c b d).post_of_ok h).toGrows⟩
  | decByte x => exact ⟨_, _, ((stepBits_completes c _ d).post_of_ok h).toGrows⟩
  | decEnd =>
    obtain ⟨f, hf, rfl⟩ := endTrack_ok.1 h
    obtain ⟨hkeeps, hbytes, hrecords⟩ := (truncateOpen_takes hf).toGrows
    exact ⟨0, 1, hkeeps, hbytes, hrecords⟩
  | syncA1 | markC2 | gap4E | dataWindow => exact ⟨_, _, ((runWindow_completes c _ d).post_of_ok h).toGrows⟩
  | idamFc | idamFd | idamFe | dam | markUnknown => exact ⟨0, 1, markForm_grows h⟩
  | encStart | encByte | crcLoad | crcByte | encSyncA1 | encSyncC2 | encData =>
    cases h
    exact ⟨0, 0, grows_of_eq rfl rfl⟩

/-- Settles O54: an instruction that takes effect only adds to the track and the catalog; one that fails changes
at most dstate. -/
theorem trackOnlyGrows : Obligations.TrackOnlyGrows := by
  intro i s t hi h
  rcases exec_outcome h with ⟨-, hop⟩ | ⟨-, x, hdec⟩
  · obtain ⟨m, n, grown⟩ := decoderOp_grows hi hop
    exact grown.onlyGrows
  · rw [hdec]
    exact (grows_of_eq rfl rfl).onlyGrows

/-- DEC_BYTE with room for eight bytes and records takes effect: its bits are shifted in and counted (R107). -/
theorem exec_decByte_of_room {x : Byte} {s : State} (ha : s.dec.dstate = .active)
    (hb : s.dec.trackLen + 8 ≤ s.cfg.bytesCap) (hc : s.dec.catalog.length + 8 ≤ s.cfg.catalogCap) :
    ∃ d, exec (.decByte x) s = .next (accept { s with dec := d }) ∧ Shifts (channelBits x) s.dec d ∧
      CountsBits 8 s.dec d := by
  have completes := stepBits_completes s.cfg (channelBits x) s.dec
  obtain ⟨d, hd⟩ := completes.exists_ok hb hc
  exact ⟨d, decoderCommand_ok (op := fun c => stepBits c (channelBits x)) ha hd, completes.post_of_ok hd,
    stepBits_countsBits hd⟩

/-- Settles O23: the first byte leaves room for the second, and the sixteen bits of both fill the window. -/
theorem codewordReachesWindow : Obligations.CodewordReachesWindow := by
  intro w s ha hb hc
  obtain ⟨d, hlow, low, lowCounts⟩ := exec_decByte_of_room (x := w.setWidth 8) ha (by omega) (by omega)
  have hbytes := low.bytes
  have hrecords := low.catalog_length
  rw [length_channelBits] at hbytes hrecords
  obtain ⟨e, hhigh, high, highCounts⟩ := exec_decByte_of_room (x := (w >>> 8).setWidth 8)
    (s := accept { s with dec := d }) (low.dstate.trans ha) (by simp; omega) (by simp; omega)
  refine ⟨accept { s with dec := e }, ?_, rfl, ?_, (lowCounts.trans highCounts).pos⟩
  · rw [runInstrs_cons hlow, runInstrs_cons hhigh]
    rfl
  · show e.window = w
    rw [high.window, accept_dec, low.window, shiftBits_bytes]

end Sys2Proof.Machine

/-! # Scope: the encoding: the decoder and the encoder agree, what is refused, and the read ports -/

namespace Sys2Proof

/-! ### The fields of an operand -/

/-- A command word is its opcode above its operand (R80). -/
theorem commandWord_eq_or (opcode : Byte) (operand : BitVec 24) :
    commandWord opcode operand = opcode.setWidth 32 <<< 24 ||| operand.setWidth 32 := by
  rw [← BitVec.setWidth_append_eq_shiftLeft_setWidth_or, BitVec.setWidth_eq]
  rfl

/-- The low bits of the operand are those of the word. -/
theorem setWidth_operandOf (w : Word) {n : Nat} (hn : n ≤ 24) :
    (operandOf w).setWidth n = w.extractLsb' 0 n := by
  refine BitVec.eq_of_getLsbD_eq fun i hi => ?_
  have hlt : i < 24 := by omega
  simp [operandOf, hi, hlt]

theorem getLsbD_operandOf (w : Word) {i : Nat} (hi : i < 24) : (operandOf w).getLsbD i = w.getLsbD i := by
  simp [operandOf, hi]

/-- A bit above the bits below it. -/
theorem ofBool_append_setWidth {m : Nat} (x : BitVec m) (n : Nat) :
    BitVec.ofBool (x.getLsbD n) ++ x.setWidth n = x.setWidth (1 + n) := by
  rw [BitVec.ofBool_append, ← BitVec.setWidth_succ]
  refine BitVec.eq_of_getLsbD_eq fun i hi => ?_
  simp [Nat.add_comm]

theorem ofBool_getLsbD_zero {m : Nat} (x : BitVec m) : BitVec.ofBool (x.getLsbD 0) = x.setWidth 1 := by
  refine BitVec.eq_of_getLsbD_eq fun i hi => ?_
  obtain rfl : i = 0 := by omega
  simp

/-- A field of `n` bits leaves the bits of the operand above it clear. -/
theorem setWidth_ushiftRight_self {n m : Nat} (x : BitVec n) : x.setWidth m >>> n = 0 := by
  refine BitVec.eq_of_getLsbD_eq fun i _ => ?_
  simp

/-- A field survives being widened. -/
theorem setWidth_setWidth_self {n m : Nat} (x : BitVec n) (h : n ≤ m) : (x.setWidth m).setWidth n = x := by
  rw [BitVec.setWidth_setWidth_of_le x h, BitVec.setWidth_eq]

/-- An operand whose bits from `n` up are clear is what its low `n` bits make. -/
theorem setWidth_setWidth_of_ushiftRight {m n : Nat} {x : BitVec m} (h : x >>> n = 0) :
    (x.setWidth n).setWidth m = x := by
  refine BitVec.eq_of_getLsbD_eq fun i hi => ?_
  by_cases hn : i < n
  · simp [hi, hn]
  · have hbit : (x >>> n).getLsbD (i - n) = x.getLsbD i := by
      rw [BitVec.getLsbD_ushiftRight, Nat.add_sub_of_le (Nat.le_of_not_lt hn)]
    rw [← hbit, h]
    simp [hn]

/-! ### The commands by opcode (R80, R86, R87) -/

/-- How a command reads its operand: the opcode, how many of the operand's low bits are not reserved, and the
instruction that they give. -/
structure CommandFields where
  opcode : Byte
  used : Nat
  read : BitVec 24 → Instr

namespace CommandFields

/-- DEC_START (R81). -/
def decStart : CommandFields := ⟨0x01, 2, fun x => .decStart (x.getLsbD 0) (x.getLsbD 1)⟩

/-- DEC_BIT (R82). -/
def decBit : CommandFields := ⟨0x02, 1, fun x => .decBit (x.getLsbD 0)⟩

/-- DEC_BYTE (R82). -/
def decByte : CommandFields := ⟨0x03, 8, fun x => .decByte (x.setWidth 8)⟩

/-- DEC_END (R83). -/
def decEnd : CommandFields := ⟨0x04, 0, fun _ => .decEnd⟩

/-- ENC_START (R84). -/
def encStart : CommandFields := ⟨0x10, 1, fun x => .encStart (x.getLsbD 0)⟩

/-- ENC_BYTE (R84). -/
def encByte : CommandFields := ⟨0x11, 9, fun x => .encByte (x.setWidth 8) (x.getLsbD 8)⟩

/-- CRC_LOAD (R85). -/
def crcLoad : CommandFields := ⟨0x20, 16, fun x => .crcLoad (x.setWidth 16)⟩

/-- CRC_BYTE (R85). -/
def crcByte : CommandFields := ⟨0x21, 8, fun x => .crcByte (x.setWidth 8)⟩

/-- The bits of a word that decide whether it is the command: the opcode, and the reserved operand bits. -/
def mask (f : CommandFields) : Word := commandWord 0xFF (BitVec.allOnes 24 <<< f.used)

end CommandFields

/-- The eight commands (R80). -/
def commandFields : List CommandFields :=
  [.decStart, .decBit, .decByte, .decEnd, .encStart, .encByte, .crcLoad, .crcByte]

/-- The rows of R80 are those of the commands' fields, in the same order. -/
theorem commandRows_eq :
    commandRows.map (fun r => (r.matchBits, r.maskBits)) =
      commandFields.map fun f => (commandWord f.opcode 0, f.mask) := by
  decide

theorem exists_commandRow_iff {P : Word → Word → Prop} :
    (∃ r ∈ commandRows, P r.matchBits r.maskBits) ↔
      ∃ f ∈ commandFields, P (commandWord f.opcode 0) f.mask := by
  have rows : (∃ p ∈ commandRows.map fun r => (r.matchBits, r.maskBits), P p.1 p.2) ↔
      ∃ p ∈ commandFields.map fun f => (commandWord f.opcode 0, f.mask), P p.1 p.2 := by
    rw [commandRows_eq]
  simpa only [List.mem_map, exists_exists_and_eq_and] using rows

/-- A word whose opcode is in the table is decoded by that command's fields, after the check of its reserved
bits (R87). -/
theorem decodeCommand_of_opcode {w : Word} {f : CommandFields} (hf : f ∈ commandFields)
    (hop : opcodeOf w = f.opcode) :
    decodeCommand w = checkReserved f.used (operandOf w) (f.read (operandOf w)) := by
  revert f
  simp only [commandFields, List.forall_mem_cons]
  refine ⟨?_, ?_, ?_, ?_, ?_, ?_, ?_, ?_, List.forall_mem_nil _⟩
  all_goals
    intro hop
    simp only [decodeCommand, hop]
    rfl

/-- The opcodes of the table (R80). -/
theorem commandFields_opcodes :
    commandFields.map (·.opcode) = [0x01, 0x02, 0x03, 0x04, 0x10, 0x11, 0x20, 0x21] := rfl

/-- A word whose opcode is not in the table is refused by name (R86). -/
theorem decodeCommand_of_reservedOpcode {w : Word} (h : opcodeOf w ∉ commandFields.map (·.opcode)) :
    decodeCommand w = .error .reservedOpcode := by
  rw [commandFields_opcodes] at h
  simp only [List.mem_cons, List.not_mem_nil, or_false, not_or, ← BitVec.toNat_inj] at h
  unfold decodeCommand
  split
  case h_9 => rfl
  all_goals simp_all

/-- What the decoder reads from a word is what the fields of its opcode read from its operand, the reserved bits
being clear (R80, R87). -/
theorem decodeCommand_ok_iff {w : Word} {i : Instr} :
    decodeCommand w = .ok i ↔ ∃ f ∈ commandFields, opcodeOf w = f.opcode ∧ operandOf w >>> f.used = 0 ∧
      i = f.read (operandOf w) := by
  constructor
  · intro h
    by_cases hop : opcodeOf w ∈ commandFields.map (·.opcode)
    · obtain ⟨f, hf, hf'⟩ := List.mem_map.1 hop
      rw [decodeCommand_of_opcode hf hf'.symm] at h
      exact ⟨f, hf, hf'.symm, checkReserved_ok.1 h⟩
    · rw [decodeCommand_of_reservedOpcode hop] at h
      cases h
  · rintro ⟨f, hf, hop, hread⟩
    rw [decodeCommand_of_opcode hf hop]
    exact checkReserved_ok.2 hread

/-- Every command is well formed (R80). -/
theorem read_wf {f : CommandFields} (hf : f ∈ commandFields) (x : BitVec 24) : (f.read x).wf = true := by
  revert f
  simp only [commandFields, List.forall_mem_cons]
  exact ⟨rfl, rfl, rfl, rfl, rfl, rfl, rfl, rfl, List.forall_mem_nil _⟩

/-! ### The encoder against the decoder -/

/-- The encoder writes back the bits that the fields of a command read (R81 to R85). -/
theorem encode_read {f : CommandFields} (hf : f ∈ commandFields) (x : BitVec 24) :
    encode (f.read x) = .command32 (commandWord f.opcode ((x.setWidth f.used).setWidth 24)) := by
  have writes (f : CommandFields) {y : BitVec f.used} (hy : y = x.setWidth f.used)
      (h : encode (f.read x) = .command32 (commandWord f.opcode (y.setWidth 24))) :
      encode (f.read x) = .command32 (commandWord f.opcode ((x.setWidth f.used).setWidth 24)) := hy ▸ h
  have low := ofBool_getLsbD_zero x
  have lowTwo : BitVec.ofBool (x.getLsbD 1) ++ BitVec.ofBool (x.getLsbD 0) = x.setWidth 2 :=
    low ▸ ofBool_append_setWidth x 1
  revert f
  simp only [commandFields, List.forall_mem_cons]
  exact ⟨writes .decStart lowTwo rfl, writes .decBit low rfl, writes .decByte rfl rfl,
    writes .decEnd (y := 0) (BitVec.of_length_zero (x := x.setWidth 0)).symm rfl, writes .encStart low rfl,
    writes .encByte (ofBool_append_setWidth x 8) rfl, writes .crcLoad rfl rfl, writes .crcByte rfl rfl,
    List.forall_mem_nil _⟩

/-- An operand with clear reserved bits is encoded whole. -/
theorem encode_read_of_fits {f : CommandFields} (hf : f ∈ commandFields) {x : BitVec 24}
    (hx : x >>> f.used = 0) : encode (f.read x) = .command32 (commandWord f.opcode x) := by
  rw [encode_read hf, setWidth_setWidth_of_ushiftRight hx]

theorem decode_encode_read {f : CommandFields} (hf : f ∈ commandFields) {x : BitVec 24}
    (hx : x >>> f.used = 0) : decode (encode (f.read x)) = .ok (f.read x) := by
  rw [encode_read_of_fits hf hx]
  refine decodeCommand_ok_iff.2 ⟨f, hf, opcodeOf_commandWord _ _, ?_⟩
  rw [operandOf_commandWord]
  exact ⟨hx, rfl⟩

theorem setWidth_selector (v : Byte) (y : Bool) : (selectorWord v y).setWidth 8 = v :=
  BitVec.setWidth_append_eq_right

theorem getLsbD_selector (v : Byte) (y : Bool) : (selectorWord v y).getLsbD 8 = y := by
  rw [selectorWord, BitVec.getLsbD_append]
  simp

/-- A selector is its byte and its sync bit (R92). -/
theorem selectorWord_parts (sel : BitVec 9) : selectorWord (sel.setWidth 8) (sel.getLsbD 8) = sel :=
  (ofBool_append_setWidth sel 8).trans (BitVec.setWidth_eq sel)

/-- Every instruction with a command word is what some command's fields read. -/
theorem exists_read_of_encode {i : Instr} {w : Word} (h : encode i = .command32 w) :
    ∃ f ∈ commandFields, ∃ x : BitVec 24, x >>> f.used = 0 ∧ f.read x = i := by
  have row (f : CommandFields) (x : BitVec f.used) (hx : f.read (x.setWidth 24) = i)
      (hf : f ∈ commandFields := by simp [commandFields]) :
      ∃ f ∈ commandFields, ∃ x : BitVec 24, x >>> f.used = 0 ∧ f.read x = i :=
    ⟨f, hf, x.setWidth 24, setWidth_ushiftRight_self x, hx⟩
  cases i with
  | decStart r p => exact row .decStart (BitVec.ofBool p ++ BitVec.ofBool r) (by cases r <;> cases p <;> rfl)
  | decBit b => exact row .decBit (BitVec.ofBool b) (by cases b <;> rfl)
  | decByte x => exact row .decByte x (congrArg _ (setWidth_setWidth_self x (by decide)))
  | decEnd => exact row .decEnd 0 rfl
  | encStart q => exact row .encStart (BitVec.ofBool q) (by cases q <;> rfl)
  | encByte v y =>
    have hv : ((selectorWord v y).setWidth 24).setWidth 8 = v :=
      (BitVec.setWidth_setWidth_of_le _ (by decide)).trans (setWidth_selector v y)
    have hy : ((selectorWord v y).setWidth 24).getLsbD 8 = y := by
      rw [BitVec.getLsbD_setWidth, getLsbD_selector]
      rfl
    exact row .encByte (selectorWord v y) (congrArg₂ Instr.encByte hv hy)
  | crcLoad value => exact row .crcLoad value (congrArg _ (setWidth_setWidth_self value (by decide)))
  | crcByte b => exact row .crcByte b (congrArg _ (setWidth_setWidth_self b (by decide)))
  | _ => cases h

/-! ### The three classifiers (R70, R73, R76) -/

/-- A window that is none of the three patterns is classified as a data window (R70). -/
theorem classifyWindow_data {w : Half} (h : isDataWindow w = true) : classifyWindow w = .dataWindow w := by
  simp only [isDataWindow, Bool.and_eq_true, bne_iff_ne] at h
  obtain ⟨⟨ha, hc⟩, hg⟩ := h
  rw [classifyWindow, if_neg ha, if_neg hc, if_neg hg]

theorem classifyWindow_reads (w : Half) :
    (classifyWindow w).instr.wf = true ∧ encode (classifyWindow w).instr = .window16 w := by
  unfold classifyWindow
  split_ifs with ha hc hg
  · exact ⟨rfl, congrArg _ ha.symm⟩
  · exact ⟨rfl, congrArg _ hc.symm⟩
  · exact ⟨rfl, congrArg _ hg.symm⟩
  · exact ⟨by simp [WindowForm.instr, Instr.wf, isDataWindow, ha, hc, hg], rfl⟩

/-- The DAM row is the bytes 0xF8 to 0xFB (R73). -/
theorem isDataMark_iff (v : Byte) : isDataMark v = true ↔ v &&& 0xFC = 0xF8 := by
  revert v
  decide

/-- The bytes of no other row of R73: outside 0xF8 to 0xFE. -/
theorem isUnknownMark_iff (v : Byte) :
    isUnknownMark v = true ↔ v ≠ 0xFC ∧ v ≠ 0xFD ∧ v ≠ 0xFE ∧ v &&& 0xFC ≠ 0xF8 := by
  revert v
  decide

theorem classifyMark_dam {v : Byte} (h : isDataMark v = true) : classifyMark v = .dam v := by
  have hm := (isDataMark_iff v).1 h
  have hne {u : Byte} (hu : u &&& 0xFC ≠ 0xF8) : v ≠ u := fun he => hu (he ▸ hm)
  rw [classifyMark, if_neg (hne (by decide)), if_neg (hne (by decide)), if_neg (hne (by decide)), if_pos hm]

theorem classifyMark_unknown {v : Byte} (h : isUnknownMark v = true) : classifyMark v = .unknown v := by
  obtain ⟨hc, hd, he, hm⟩ := (isUnknownMark_iff v).1 h
  rw [classifyMark, if_neg hc, if_neg hd, if_neg he, if_neg hm]

theorem classifyMark_reads (v : Byte) :
    (classifyMark v).instr.wf = true ∧ encode (classifyMark v).instr = .mark8 v := by
  unfold classifyMark
  split_ifs with hc hd he hm
  · exact ⟨rfl, congrArg _ hc.symm⟩
  · exact ⟨rfl, congrArg _ hd.symm⟩
  · exact ⟨rfl, congrArg _ he.symm⟩
  · exact ⟨(isDataMark_iff v).2 hm, rfl⟩
  · exact ⟨(isUnknownMark_iff v).2 ⟨hc, hd, he, hm⟩, rfl⟩

/-- A byte that is not a sync 0xA1 or 0xC2 selects its own codeword (R76). -/
theorem classifyEnc_data {v : Byte} {y : Bool} (h : isEncData v y = true) : classifyEnc v y = .data v y := by
  simp only [isEncData, Bool.not_eq_true', Bool.and_eq_false_iff, Bool.or_eq_false_iff, beq_eq_false_iff_ne] at h
  rw [classifyEnc, if_neg, if_neg]
  all_goals
    rintro ⟨rfl, hv⟩
    simp [hv] at h

theorem classifyEnc_reads (v : Byte) (y : Bool) :
    (classifyEnc v y).instr.wf = true ∧ encode (classifyEnc v y).instr = .encsel9 (selectorWord v y) := by
  unfold classifyEnc
  split_ifs with ha hc
  · obtain ⟨rfl, rfl⟩ := ha
    exact ⟨rfl, rfl⟩
  · obtain ⟨rfl, rfl⟩ := hc
    exact ⟨rfl, rfl⟩
  · refine ⟨?_, rfl⟩
    cases y <;> simp_all [EncForm.instr, Instr.wf, isEncData]

theorem decode_selector (v : Byte) (y : Bool) :
    decode (.encsel9 (selectorWord v y)) = .ok (classifyEnc v y).instr := by
  rw [decode, setWidth_selector, getLsbD_selector]

/-! ### Decoding and encoding are inverses -/

/-- Settles O1: a command is read from its operand, and a decoded form is the one its classifier gives. -/
theorem decodeInvertsEncode : Obligations.DecodeInvertsEncode := by
  have command {i : Instr} {w : Word} (hw : encode i = .command32 w) : decode (encode i) = .ok i := by
    obtain ⟨f, hf, x, hx, rfl⟩ := exists_read_of_encode hw
    exact decode_encode_read hf hx
  intro i hi
  cases i with
  | decStart | decBit | decByte | decEnd | encStart | encByte | crcLoad | crcByte => exact command rfl
  | syncA1 | markC2 | gap4E | idamFc | idamFd | idamFe => rfl
  | dataWindow w => rw [encode, decode, classifyWindow_data hi]; rfl
  | dam v => rw [encode, decode, classifyMark_dam hi]; rfl
  | markUnknown v => rw [encode, decode, classifyMark_unknown hi]; rfl
  | encSyncA1 | encSyncC2 => exact decode_selector _ _
  | encData v y => rw [encode, decode_selector, classifyEnc_data hi]; rfl

/-- Settles O2: the fields of a command drop no bit of its word, and a classifier names the value it is given. -/
theorem encodeInvertsDecode : Obligations.EncodeInvertsDecode := by
  intro f i h
  cases f with
  | command32 w =>
    obtain ⟨f, hf, hop, hfits, rfl⟩ := decodeCommand_ok_iff.1 h
    refine ⟨read_wf hf _, ?_⟩
    rw [encode_read_of_fits hf hfits, ← hop, commandWord_parts]
  | window16 w =>
    cases h
    exact classifyWindow_reads w
  | mark8 v =>
    cases h
    exact classifyMark_reads v
  | encsel9 sel =>
    cases h
    have reads := classifyEnc_reads (sel.setWidth 8) (sel.getLsbD 8)
    rwa [selectorWord_parts] at reads

/-! ### The rows of the command table (R80) -/

/-- A mask of the bits from `n` up leaves nothing exactly when they are clear. -/
theorem and_allOnes_shiftLeft_eq_zero {m : Nat} (x : BitVec m) (n : Nat) :
    x &&& BitVec.allOnes m <<< n = 0 ↔ x >>> n = 0 := by
  constructor
  · intro h
    refine BitVec.eq_of_getLsbD_eq fun i _ => ?_
    have hbit := congrArg (fun y : BitVec m => y.getLsbD (n + i)) h
    by_cases hlt : n + i < m
    · simpa [hlt] using hbit
    · simp [BitVec.getLsbD_of_ge x _ (Nat.le_of_not_lt hlt)]
  · intro h
    refine BitVec.eq_of_getLsbD_eq fun i hi => ?_
    by_cases hn : i < n
    · simp [hn]
    · have hbit := congrArg (fun y : BitVec m => y.getLsbD (i - n)) h
      simp only [BitVec.getLsbD_ushiftRight, Nat.add_sub_of_le (Nat.le_of_not_lt hn)] at hbit
      simp [hbit]

/-- A row's masked bits are its match bits when the opcode is the row's and the reserved bits are clear. -/
theorem and_mask_eq_iff (w : Word) (f : CommandFields) :
    w &&& f.mask = commandWord f.opcode 0 ↔ opcodeOf w = f.opcode ∧ operandOf w >>> f.used = 0 := by
  have hand : w &&& f.mask = commandWord (opcodeOf w) (operandOf w &&& BitVec.allOnes 24 <<< f.used) := by
    conv_lhs => rw [← commandWord_parts w]
    rw [CommandFields.mask, commandWord, commandWord, BitVec.and_append]
    exact congrArg (· ++ _) (BitVec.and_allOnes)
  rw [hand, ← and_allOnes_shiftLeft_eq_zero]
  constructor
  · intro h
    have hop := congrArg opcodeOf h
    have hoperand := congrArg operandOf h
    simp only [opcodeOf_commandWord, operandOf_commandWord] at hop hoperand
    exact ⟨hop, hoperand⟩
  · rintro ⟨hop, hoperand⟩
    rw [hop, hoperand]

/-- A word is a command exactly when its masked bits are the row's match bits (R80). -/
theorem and_mask_eq_iff_decodes {f : CommandFields} (hf : f ∈ commandFields) (w : Word) :
    w &&& f.mask = commandWord f.opcode 0 ↔ decodeCommand w = .ok (f.read (operandOf w)) := by
  rw [and_mask_eq_iff]
  constructor
  · rintro ⟨hop, hfits⟩
    exact decodeCommand_ok_iff.2 ⟨f, hf, hop, hfits, rfl⟩
  · intro h
    have hw : FormatWord.command32 (commandWord f.opcode _) = .command32 w :=
      (encode_read hf (operandOf w)).symm.trans (encodeInvertsDecode (.command32 w) _ h).2
    injection hw with hw
    rw [← hw, opcodeOf_commandWord, operandOf_commandWord]
    exact ⟨rfl, setWidth_ushiftRight_self _⟩

theorem exists_decodeCommand_iff (w : Word) :
    (∃ i, decodeCommand w = .ok i) ↔ ∃ r ∈ commandRows, w &&& r.maskBits = r.matchBits := by
  rw [exists_commandRow_iff (P := fun pattern mask => w &&& mask = pattern)]
  constructor
  · rintro ⟨i, hi⟩
    obtain ⟨f, hf, hop, hfits, -⟩ := decodeCommand_ok_iff.1 hi
    exact ⟨f, hf, (and_mask_eq_iff w f).2 ⟨hop, hfits⟩⟩
  · rintro ⟨f, hf, h⟩
    exact ⟨_, (and_mask_eq_iff_decodes hf w).1 h⟩

/-- Settles O3: each row's mask and match bits are those of its command's fields. -/
theorem commandRowsDecideDecoding : Obligations.CommandRowsDecideDecoding := by
  intro w
  have bit (i : Nat) (hi : i < 24) : (operandOf w).getLsbD i = w.getLsbD i := getLsbD_operandOf w hi
  have low (n : Nat) (hn : n ≤ 24) : (operandOf w).setWidth n = w.extractLsb' 0 n := setWidth_operandOf w hn
  have rows : ∀ f ∈ commandFields,
      w &&& f.mask = commandWord f.opcode 0 ↔ decodeCommand w = .ok (f.read (operandOf w)) :=
    fun _ hf => and_mask_eq_iff_decodes hf w
  simp only [commandFields, List.forall_mem_cons] at rows
  obtain ⟨hstart, hbit, hbyte, hend, hencStart, hencByte, hload, hcrc, -⟩ := rows
  rw [← bit 0 (by decide), ← bit 1 (by decide), ← bit 8 (by decide), ← low 8 (by decide),
    ← low 16 (by decide)]
  exact ⟨hstart, hbit, hbyte, hend, hencStart, hencByte, hload, hcrc, exists_decodeCommand_iff w⟩

/-! ### The words of the commands (R81 to R85) -/

/-- The word of a command is its opcode or-ed with its operand field. -/
theorem commandWord_setWidth {n : Nat} (opcode : Byte) (x : BitVec n) (hn : n ≤ 24) :
    commandWord opcode (x.setWidth 24) = commandWord opcode 0 ||| x.setWidth 32 := by
  have hx : (x.setWidth 24).setWidth 32 = x.setWidth 32 := by
    refine BitVec.eq_of_getLsbD_eq fun i hi => ?_
    by_cases h : i < 24
    · simp [h]
    · simp [h, BitVec.getLsbD_of_ge x i (by omega)]
  rw [commandWord_eq_or, commandWord_eq_or, hx]
  simp

/-- Settles O4: a field that stands above another is shifted past it. -/
theorem commandEncodings : Obligations.CommandEncodings := by
  have word {n : Nat} (opcode : Byte) (x : BitVec n) (hn : n ≤ 24) :
      FormatWord.command32 (commandWord opcode (x.setWidth 24)) =
        .command32 (commandWord opcode 0 ||| x.setWidth 32) :=
    congrArg _ (commandWord_setWidth opcode x hn)
  have pair {m n : Nat} (opcode : Byte) (x : BitVec m) (y : BitVec n) (hn : m + n ≤ 24) :
      FormatWord.command32 (commandWord opcode ((x ++ y).setWidth 24)) =
        .command32 (commandWord opcode 0 ||| x.setWidth 32 <<< n ||| y.setWidth 32) := by
    rw [word opcode _ hn, BitVec.setWidth_append_eq_shiftLeft_setWidth_or, BitVec.or_assoc]
  have endWord (w : Word) : decodeCommand w = .ok .decEnd ↔ w = 0x04000000 := by
    obtain ⟨-, -, -, hend, -⟩ := commandRowsDecideDecoding w
    rw [← hend]
    exact iff_of_eq (congrArg (· = 0x04000000) BitVec.and_allOnes)
  exact ⟨fun r p => pair 0x01 (BitVec.ofBool p) (BitVec.ofBool r) (by decide), rfl, rfl, rfl, rfl,
    fun b => word 0x02 (BitVec.ofBool b) (by decide), fun x => word 0x03 x (by decide), fun _ => rfl, rfl,
    endWord, fun p => word 0x10 (BitVec.ofBool p) (by decide),
    fun v y => pair 0x11 (BitVec.ofBool y) v (by decide), fun h => word 0x20 h (by decide),
    fun b => word 0x21 b (by decide)⟩

/-- Settles O8: each word is the word of its instruction, which O1 reads back. -/
theorem specWordsDecode : Obligations.SpecWordsDecode := by
  have reads (i : Instr) (hi : i.wf = true) : decode (encode i) = .ok i := decodeInvertsEncode i hi
  exact ⟨reads (.decStart true false) rfl, reads (.decBit true) rfl, reads (.decByte 0x55) rfl, reads .decEnd rfl,
    reads (.encStart true) rfl, reads (.encByte 0xA1 true) rfl, reads (.crcLoad 0xFFFF) rfl,
    reads (.crcByte 0xA1) rfl, reads .syncA1 rfl, reads (.dataWindow 0x2A48) rfl, reads (.dam 0xFB) rfl,
    reads (.markUnknown 0xFF) rfl, reads (.encData 0xA1 false) rfl⟩

end Sys2Proof

namespace Sys2Proof.Machine

/-! ### The step (R65, R87) -/

theorem step_of_empty {s : State} (h : s.port = []) : step s = .next s := by
  simp only [step, fetch, h]

theorem step_of_command {s : State} {w : Word} {rest : List Word} {i : Instr} (h : s.port = w :: rest)
    (hi : decodeCommand w = .ok i) : step s = exec i { s with port := rest } := by
  simp only [step, fetch, h, hi]

theorem step_of_refused {s : State} {w : Word} {rest : List Word} {r : RefuseReason} (h : s.port = w :: rest)
    (hr : decodeCommand w = .error r) : step s = .next { s with port := rest, result := refuseCode r } := by
  simp only [step, fetch, h, hr]
  rfl

/-- Settles O7: the three outcomes of a step, one lemma each. -/
theorem stepRunsDecodedCommand : Obligations.StepRunsDecodedCommand :=
  fun _ => ⟨step_of_empty, fun _ _ h => ⟨fun _ => step_of_command h, fun _ => step_of_refused h⟩⟩

/-- A word with an opcode of the table that matches no row has a reserved operand bit (R86). -/
theorem decodeCommand_of_reservedOperand {w : Word} (hop : opcodeOf w ∈ commandFields.map (·.opcode))
    (h : ∀ r ∈ commandRows, w &&& r.maskBits ≠ r.matchBits) : decodeCommand w = .error .reservedOperand := by
  obtain ⟨f, hf, hop⟩ := List.mem_map.1 hop
  rw [decodeCommand_of_opcode hf hop.symm]
  refine checkReserved_error.2 ⟨fun hfits => ?_, rfl⟩
  obtain ⟨r, hr, hmatch⟩ := (exists_decodeCommand_iff w).1
    ⟨_, decodeCommand_ok_iff.2 ⟨f, hf, hop.symm, hfits, rfl⟩⟩
  exact h r hr hmatch

/-- Settles O5: both refusals are the decoder's, and the step writes their codes. -/
theorem reservedWordsRefused : Obligations.ReservedWordsRefused := by
  intro s w rest h
  refine ⟨fun hop => ?_, fun hop hrows => ?_⟩
  · have refused : decodeCommand w = .error .reservedOpcode := decodeCommand_of_reservedOpcode hop
    exact ⟨refused, step_of_refused h refused⟩
  · have refused : decodeCommand w = .error .reservedOperand := decodeCommand_of_reservedOperand hop hrows
    exact ⟨refused, step_of_refused h refused⟩

/-! ### The read ports (R88) -/

/-- Settles O59: a control byte is an entry of the bitmap, and a record one of the catalog. -/
theorem readPorts : Obligations.ReadPorts := by
  intro s
  have control (j : Nat) : readTrackCtl j s = (syncBitmap s.dec).getD j 0 := by
    rw [readTrackCtl, ← length_syncBitmap]
    split
    next h => rw [List.getD_eq_getElem _ _ h, getElem_syncBitmap]
    next h => rw [List.getD_eq_default _ _ (Nat.le_of_not_lt h)]
  refine ⟨rfl, fun _ => rfl, fun _ => rfl, control, rfl, fun n h => ?_, fun n h => ?_, fun h => ?_, fun h => ?_,
    rfl, rfl, rfl, rfl⟩
  · rw [readCatRec, List.getElem?_eq_getElem h]
  · rw [readCatRec, List.getElem?_eq_none h]
  · rw [readDecState, h]
  · rw [readDecState, h]

end Sys2Proof.Machine

/-! # Scope: the encoding: the codewords of data, and what their stream cannot hold -/

namespace Sys2Proof.Machine

open Sys2Proof.Config

/-! ### The bits of a data codeword (45_remodulator.md R190, R192) -/

/-- A step of ENC_TABLE's loop puts its clock bit and its data bit below the codeword so far (R190). -/
theorem encTableStep_getLsbD (b : Byte) (acc : Half × Bool) (i : Nat) {j : Nat} (hj : j < 16) :
    (encTableStep b acc i).1.getLsbD j =
      if j = 0 then b.getLsbD i else if j = 1 then !acc.2 && !b.getLsbD i else acc.1.getLsbD (j - 2) := by
  simp only [encTableStep, BitVec.getLsbD_or, BitVec.getLsbD_shiftLeft, BitVec.getLsbD_setWidth,
    BitVec.getLsbD_ofBool, hj]
  rcases j with _ | _ | j
  · simp
  · simp
  · simp

theorem encTableStep_snd (b : Byte) (acc : Half × Bool) (i : Nat) :
    (encTableStep b acc i).2 = b.getLsbD i := rfl

/-- The data bits of a table codeword are the byte's, the highest first (R190). -/
theorem encTable_dataBit (b : Byte) {k : Nat} (hk : k < 8) :
    (encTable b).getLsbD (2 * k + 1) = b.getLsbD (7 - k) := by
  rw [encTable, rev16_getLsbD _ (by omega)]
  interval_cases k <;>
    simp (disch := decide) only [List.foldl_cons, List.foldl_nil, encTableStep_getLsbD, Nat.reduceMul, Nat.reduceAdd,
      Nat.reduceSub, Nat.reduceEqDiff, reduceIte]

/-- Its first clock bit is that of a byte after a 0 (R190). -/
theorem encTable_firstClock (b : Byte) : (encTable b).getLsbD 0 = !b.getLsbD 7 := by
  rw [encTable, rev16_getLsbD _ (by decide)]
  simp (disch := decide) only [List.foldl_cons, List.foldl_nil, encTableStep_getLsbD, Nat.reduceSub,
    Nat.reduceEqDiff, reduceIte, Bool.not_false, Bool.true_and]

/-- Every other clock bit is 1 between two data bits 0 (R190). -/
theorem encTable_clockBit (b : Byte) {k : Nat} (hk : k < 7) :
    (encTable b).getLsbD (2 * k + 2) = (!b.getLsbD (7 - k) && !b.getLsbD (6 - k)) := by
  rw [encTable, rev16_getLsbD _ (by omega)]
  interval_cases k <;>
    simp (disch := decide) only [List.foldl_cons, List.foldl_nil, encTableStep_getLsbD, Nat.reduceMul, Nat.reduceAdd,
      Nat.reduceSub, Nat.reduceEqDiff, reduceIte, encTableStep_snd]

/-- The previous bit clears only the first clock bit of a data codeword (R192). -/
theorem codeword_data_getLsbD (v : Byte) (y p : Bool) {i : Nat} (hi : i < 16) :
    (codeword (.data v y) p).getLsbD i =
      if i = 0 then !p && (encTable v).getLsbD 0 else (encTable v).getLsbD i := by
  have hmask : (0xFFFE : Half).getLsbD i = decide (i ≠ 0) := by
    interval_cases i <;> rfl
  cases p with
  | false => by_cases h : i = 0 <;> simp [codeword, h]
  | true =>
    rw [codeword, if_pos rfl, BitVec.getLsbD_and, hmask]
    by_cases h : i = 0 <;> simp [h]

/-- A data codeword ends with the byte's lowest bit, which is the next one's previous bit (R195). -/
theorem codeword_data_lastBit (v : Byte) (y p : Bool) : (codeword (.data v y) p).getLsbD 15 = v.getLsbD 0 := by
  rw [codeword_data_getLsbD v y p (by decide), if_neg (by decide)]
  exact encTable_dataBit v (k := 7) (by decide)

/-! ### The encoder selections (R76, R194, R195) -/

/-- A selection emits its codeword, and nothing else changes (R193). -/
theorem exec_selection_eq (f : EncForm) (s : State) {q : Bool} (hq : (codeword f s.prev).getLsbD 15 = q) :
    exec f.instr s = .next { s with cw := codeword f s.prev, prev := q, result := 0x00 } := by
  subst hq
  cases f <;> rfl

/-- ENC_BYTE does what the selection of its operand does by itself (R76; log entry 5). -/
theorem exec_encByte (v : Byte) (y : Bool) (s : State) :
    exec (.encByte v y) s = exec (classifyEnc v y).instr s := by
  have runs (f : EncForm) : exec f.instr s = runEnc f s := by cases f <;> rfl
  exact (runs (classifyEnc v y)).symm

/-- Settles O17: each selection emits its codeword, whose last bit is the new previous bit. -/
theorem encSelectionResults : Obligations.EncSelectionResults := by
  intro s v y
  have lastA1 : syncA1Win.getLsbD 15 = true := by decide
  have lastC2 : markC2Win.getLsbD 15 = false := by decide
  refine ⟨exec_selection_eq .syncA1 s lastA1, exec_selection_eq .syncC2 s lastC2,
    exec_selection_eq (.data v y) s (codeword_data_lastBit v y s.prev), fun i hi => ?_⟩
  cases (decode_selector v y).symm.trans hi
  exact exec_encByte v y s

/-! ### The stream of data codewords (R77, R120) -/

/-- The bits alternate between clock and data, and after the data bit `p` a clock bit is 1 exactly between two
data bits 0. -/
def FollowsClockRule : Bool → List Bool → Prop
  | p, c :: d :: rest => c = (!p && !d) ∧ FollowsClockRule d rest
  | _, _ => True

/-- Between two data bits 0 of such a stream the clock bit is 1. -/
theorem FollowsClockRule.clock {p : Bool} {bits : List Bool} (h : FollowsClockRule p bits) {o : Nat}
    (hodd : o % 2 = 1) (hlen : o + 2 < bits.length) (hbefore : bits.getD o false = false)
    (hafter : bits.getD (o + 2) false = false) : bits.getD (o + 1) false = true := by
  induction p, bits using FollowsClockRule.induct generalizing o with
  | case1 p c d rest ih =>
    obtain ⟨-, hrest⟩ := h
    match o, rest with
    | 0, _ => omega
    | 1, [] | 1, [c'] => simp at hlen
    | 1, c' :: d' :: rest =>
      obtain ⟨rfl, -⟩ := hrest
      obtain rfl : d = false := hbefore
      obtain rfl : d' = false := hafter
      rfl
    | o + 2, rest => exact ih hrest (by omega) (Nat.succ_lt_succ_iff.1 (Nat.succ_lt_succ_iff.1 hlen)) hbefore hafter
  | case2 bits p hshort =>
    match bits with
    | [] | [c] => simp at hlen
    | c :: d :: rest => exact absurd rfl (hshort c d rest)

/-- A data codeword, in time order, followed by a stream that goes on from its last data bit. -/
theorem followsClockRule_codeword (v : Byte) (y p : Bool) {bits : List Bool}
    (h : FollowsClockRule ((codeword (.data v y) p).getLsbD 15) bits) :
    FollowsClockRule p ((List.range 16).map (codeword (.data v y) p).getLsbD ++ bits) := by
  have data {k : Nat} (hk : k < 8) : (codeword (.data v y) p).getLsbD (2 * k + 1) = v.getLsbD (7 - k) := by
    rw [codeword_data_getLsbD v y p (by omega), if_neg (by omega), encTable_dataBit v hk]
  have first : (codeword (.data v y) p).getLsbD 0 = (!p && !(codeword (.data v y) p).getLsbD 1) := by
    rw [codeword_data_getLsbD v y p (by decide), if_pos rfl, encTable_firstClock, ← data (k := 0) (by decide)]
  have clock {k : Nat} (hk : k < 7) : (codeword (.data v y) p).getLsbD (2 * k + 2) =
      (!(codeword (.data v y) p).getLsbD (2 * k + 1) && !(codeword (.data v y) p).getLsbD (2 * (k + 1) + 1)) := by
    rw [data (by omega), data (by omega), codeword_data_getLsbD v y p (by omega), if_neg (by omega),
      encTable_clockBit v hk, Nat.sub_add_eq, Nat.sub_right_comm]
  exact ⟨first, clock (k := 0) (by decide), clock (k := 1) (by decide), clock (k := 2) (by decide),
    clock (k := 3) (by decide), clock (k := 4) (by decide), clock (k := 5) (by decide), clock (k := 6) (by decide),
    h⟩

/-- The codewords of a byte, by its selection, and of what follows it (R193, R195). -/
theorem encodeRun_cons (v : Byte) (y : Bool) (l : List (Byte × Bool)) (s : State) :
    ∃ t : State, t.prev = (codeword (classifyEnc v y) s.prev).getLsbD 15 ∧
      encodeRun ((v, y) :: l) s = codeword (classifyEnc v y) s.prev :: encodeRun l t := by
  have emits := (exec_encByte v y s).trans (exec_selection_eq (classifyEnc v y) s rfl)
  refine ⟨{ s with
    cw := codeword (classifyEnc v y) s.prev
    prev := (codeword (classifyEnc v y) s.prev).getLsbD 15
    result := 0x00 }, rfl, ?_⟩
  rw [encodeRun, emits]

/-- The channel stream of data bytes follows the clock rule from the previous bit on (R192, R196). -/
theorem followsClockRule_channelStream {l : List (Byte × Bool)} (hl : ∀ x ∈ l, isEncData x.1 x.2 = true)
    (s : State) : FollowsClockRule s.prev (channelStream (encodeRun l s)) := by
  induction l generalizing s with
  | nil => trivial
  | cons x l ih =>
    obtain ⟨hx, hrest⟩ := List.forall_mem_cons.1 hl
    obtain ⟨t, ht, hrun⟩ := encodeRun_cons x.1 x.2 l s
    rw [classifyEnc_data hx] at ht hrun
    rw [hrun]
    exact followsClockRule_codeword x.1 x.2 s.prev (ht ▸ ih hrest t)

/-- Bit i of a window over a stream is the bit i places further on (00_scope.md R11). -/
theorem windowAt_getLsbD (bits : List Bool) (o : Nat) {i : Nat} (hi : i < 16) :
    (windowAt bits o).getLsbD i = bits.getD (o + i) false := by
  rw [windowAt, ofBits_getLsbD, decide_eq_true hi, Bool.true_and]

/-- A window over such a stream holds no three 0 bits, the middle one a clock bit (R77, R120): it would be a
missing clock. -/
theorem FollowsClockRule.window_ne {p : Bool} {bits : List Bool} (h : FollowsClockRule p bits) {o : Nat}
    (hlen : o + 16 ≤ bits.length) {w : Half} {i : Nat} (hi : i + 2 < 16) (hodd : (o + i) % 2 = 1)
    (hw : w.getLsbD i = false ∧ w.getLsbD (i + 1) = false ∧ w.getLsbD (i + 2) = false) :
    windowAt bits o ≠ w := by
  rintro rfl
  rw [windowAt_getLsbD _ _ (by omega), windowAt_getLsbD _ _ (by omega), windowAt_getLsbD _ _ hi] at hw
  obtain ⟨hbefore, hmissing, hafter⟩ := hw
  have hclock := h.clock hodd (by omega) hbefore hafter
  exact Bool.false_ne_true (hmissing.symm.trans hclock)

/-- Settles O21: the A1 window misses its clock bit 10, or at an odd offset bit 3, and the C2 window at an even
offset its bit 8. -/
theorem syncWindowsAbsentFromData : Obligations.SyncWindowsAbsentFromData := by
  intro l s o hl hlen
  have rule := followsClockRule_channelStream hl s
  rcases Nat.mod_two_eq_zero_or_one o with heven | hodd
  · exact ⟨rule.window_ne hlen (i := 9) (by decide) (by omega) (by decide),
      fun hc2 => absurd hc2 (rule.window_ne hlen (i := 7) (by decide) (by omega) (by decide))⟩
  · exact ⟨rule.window_ne hlen (i := 2) (by decide) (by omega) (by decide), fun _ => hodd⟩

end Sys2Proof.Machine

/-! # Scope: the demodulator: the channel bit, the window forms, and what DEC_BYTE adds -/

namespace Sys2Proof.Machine

open Sys2Proof.Config

/-! ### DEC_START (41_demodulator.md R100) -/

/-- A word with the opcode of DEC_START and a reserved operand bit is refused (R86, R100). -/
theorem decodeCommand_decStart_reserved {w : Word} (hop : opcodeOf w = 0x01)
    (h : w.extractLsb' 2 22 ≠ (0 : BitVec 22)) : decodeCommand w = .error .reservedOperand := by
  rw [decodeCommand_of_opcode (f := .decStart) List.mem_cons_self hop]
  refine checkReserved_error.2 ⟨fun hclear => h (BitVec.eq_of_getLsbD_eq fun i hi => ?_), rfl⟩
  have hbit := congrArg (fun x : BitVec 24 => x.getLsbD i) hclear
  have hlt : 2 + i < 24 := by omega
  simpa [CommandFields.decStart, operandOf, hi, hlt] using hbit

/-- Settles O14: DEC_START leaves the decoder of `Decoder.start`, whatever the state was. -/
theorem decStartResult : Obligations.DecStartResult := by
  obtain ⟨encoding, -⟩ := commandEncodings
  exact ⟨encoding, fun _ => decodeCommand_decStart_reserved, fun _ _ _ => rfl⟩

/-! ### Demodulation (41_demodulator.md R106, R121) -/

/-- A window whose data bits are a byte's, the highest first, demodulates to the byte. -/
theorem demod_eq_of_dataBits {w : Half} {b : Byte}
    (h : ∀ k, k < 8 → w.getLsbD (2 * k + 1) = b.getLsbD (7 - k)) : demod w = b := by
  refine BitVec.eq_of_getLsbD_eq fun i hi => ?_
  have hsub : 7 - (7 - i) = i := by omega
  rw [demod_getLsbD w hi, h (7 - i) (by omega), hsub]

/-- Clearing the first clock bit leaves the data bits (R121). -/
theorem getLsbD_clearFirstClock (w : Half) {k : Nat} (hk : k < 8) :
    (w &&& 0xFFFE).getLsbD (2 * k + 1) = w.getLsbD (2 * k + 1) := by
  have hmask : (0xFFFE : Half).getLsbD (2 * k + 1) = true := by
    interval_cases k <;> rfl
  rw [BitVec.getLsbD_and, hmask, Bool.and_true]

/-- A bit put below a value. -/
theorem getLsbD_append_bit {n : Nat} (x : BitVec n) (b : Bool) (i : Nat) :
    (x ++ BitVec.ofBool b).getLsbD i = if i = 0 then b else x.getLsbD (i - 1) := BitVec.getLsbD_concat x b i

/-- Settles O19: `demod` is built from the data bits, and a table codeword has those of its byte. -/
theorem demodulationCorrect : Obligations.DemodulationCorrect := by
  refine ⟨fun w => ?_, by decide, by decide, by decide, by decide, by decide, fun b =>
    ⟨demod_eq_of_dataBits fun k hk => encTable_dataBit b hk,
      demod_eq_of_dataBits fun k hk => (getLsbD_clearFirstClock _ hk).trans (encTable_dataBit b hk)⟩⟩
  refine demod_eq_of_dataBits fun k hk => ?_
  interval_cases k <;>
    simp [getLsbD_append_bit, -BitVec.getLsbD_eq_getElem]

/-! ### Bytes without parser effect (41_demodulator.md R108 to R111, 43_field_parser.md R141) -/

/-- Settles O33: an append writes the byte and the sync bit at TrackLen(). -/
theorem appendedByteReads : Obligations.AppendedByteReads :=
  fun v y _ d n => ⟨trackRead_append v y d n, syncRead_append v y d n⟩

/-- A byte without parser effect is so too once it is appended, and is consumed with no more than the sync-run
counter reset. -/
theorem consume_withNewByte_of_gap {c : Params} {v : Byte} {y : Bool} {k : LastKind} {p : Nat} {d : Decoder}
    (h : gapByte c v d) : consume c v p (withNewByte v y k d) = .ok { withNewByte v y k d with a1 := 0 } :=
  consume_of_gap (d := withNewByte v y k d) h

/-- Settles O34: the parser's part of each form is the reset of the sync-run counter. -/
theorem gapBytesAppended : Obligations.GapBytesAppended := by
  have dataWindow (w : Half) (s : State) (ha : s.dec.dstate = .active) (hroom : s.dec.trackLen < s.cfg.bytesCap)
      (hgap : gapByte s.cfg (demod w) s.dec) :
      exec (.dataWindow w) s = .next { s with
        dec := { appendedByte (demod w) false .data s.dec with a1 := 0 }, result := 0x00 } :=
    execDataWindow_of_consume ha hroom (consume_withNewByte_of_gap hgap)
  refine ⟨fun s ha hroom hgap => ?_, fun s ha hroom hgap => ?_, dataWindow⟩
  · exact execMarkC2_of_consume ha hroom (consume_withNewByte_of_gap hgap)
  · exact dataWindow gap4EWin s ha hroom hgap

/-! ### The form that a channel bit completes (41_demodulator.md R101 to R105, 30_encoding.md R71) -/

/-- The window of the statements is the shifted one (R101). -/
theorem shiftedWindow_eq (b : Bool) (d : Decoder) : shiftedWindow b d = (shiftIn b d).window := by
  cases b <;> rfl

theorem full_iff (d : Decoder) : full d = true ↔ 16 ≤ d.pos := decide_eq_true_iff

theorem due_iff (d : Decoder) : due d = true ↔ d.cnt = 1 := decide_eq_true_iff

theorem gapCheck_iff (c : Params) (d : Decoder) :
    gapCheck c d = true ↔
      16 ≤ d.pos ∧ (d.cnt = 1 ∨ (d.preserve = true ∧ ¬ (c.preserveGateIdle = true ∧ d.stage ≠ .idle))) := by
  simp only [gapCheck, Bool.and_eq_true, full_iff, Bool.or_eq_true, due_iff, Bool.not_eq_true', ← Bool.not_eq_true,
    decide_eq_true_iff]

/-- The C2 and 4E windows are evaluated on the bits of R104. -/
theorem gapCheck_shiftIn (c : Params) (b : Bool) (d : Decoder) :
    gapCheck c (shiftIn b d) = true ↔ gapEvaluated c d := by
  rw [gapCheck_iff, shiftIn_pos, Nat.succ_le_succ_iff]
  rfl

/-- The form that is recognized on the shifted window is the one that the bit completes: the three patterns
differ, so the priority of R71 only puts DATA_WINDOW last. -/
theorem completesForm_iff {c : Params} {b : Bool} {d : Decoder} {i : Instr} :
    completesForm c b d i ↔ ∃ f, recognize c (shiftIn b d) = some f ∧ i = f.instr := by
  have a1 : isA1 (shiftIn b d) = true ↔ 15 ≤ d.pos ∧ shiftedWindow b d = 0x9122 := by
    rw [isA1, Bool.and_eq_true, full_iff, decide_eq_true_iff, shiftedWindow_eq, shiftIn_pos, Nat.succ_le_succ_iff]
    rfl
  have c2 : isC2 c (shiftIn b d) = true ↔ gapEvaluated c d ∧ shiftedWindow b d = 0x244A := by
    rw [isC2, Bool.and_eq_true, gapCheck_shiftIn, decide_eq_true_iff, shiftedWindow_eq]
    rfl
  have g4E : is4E c (shiftIn b d) = true ↔ gapEvaluated c d ∧ shiftedWindow b d = 0x2A49 := by
    rw [is4E, Bool.and_eq_true, gapCheck_shiftIn, decide_eq_true_iff, shiftedWindow_eq]
    rfl
  unfold completesForm recognize
  rw [← shiftedWindow_eq]
  simp only [a1, c2, g4E, due_iff, shiftIn_cnt]
  split_ifs with ha1 hc2 h4E hdue
  · obtain ⟨hpos, hw⟩ := ha1
    simp [hpos, hw, WindowForm.instr]
  · obtain ⟨hgap, hw⟩ := hc2
    simp [eq_true hgap, hgap.1, hw, WindowForm.instr]
  · obtain ⟨hgap, hw⟩ := h4E
    simp [eq_true hgap, hgap.1, hw, WindowForm.instr]
  · have hgap : gapEvaluated c d ↔ 15 ≤ d.pos := ⟨And.left, fun hpos => ⟨hpos, .inl hdue⟩⟩
    rw [hgap] at hc2 h4E
    simp only [ha1, hc2, h4E, hdue, hgap, and_or_left, and_false, or_false, false_or, not_false_eq_true, and_true,
      Option.some.injEq, exists_eq_left', WindowForm.instr]
  · simp only [ha1, hc2, h4E, hdue, and_false, false_and, or_false, exists_false]

/-! ### DEC_BIT (41_demodulator.md R105) -/

section

variable {b : Bool} {x : Byte} {s : State} {e : Decoder} {g : Fault}

theorem exec_decBit_ok (ha : s.dec.dstate = .active) (h : stepBit s.cfg b s.dec = .ok e) :
    exec (.decBit b) s = .next (accept { s with dec := e }) :=
  decoderCommand_ok (op := fun c => stepBit c b) ha h

theorem exec_decBit_error (ha : s.dec.dstate = .active) (h : stepBit s.cfg b s.dec = .error g) :
    exec (.decBit b) s = .next (raiseFault g s) :=
  decoderCommand_error (op := fun c => stepBit c b) ha h

theorem exec_decBit_done (hd : s.dec.dstate = .done) : exec (.decBit b) s = .next (refuse .decoderDone s) :=
  decoderCommand_done (op := fun c => stepBit c b) hd

theorem exec_decByte_ok (ha : s.dec.dstate = .active) (h : stepBits s.cfg (channelBits x) s.dec = .ok e) :
    exec (.decByte x) s = .next (accept { s with dec := e }) :=
  decoderCommand_ok (op := fun c => stepBits c (channelBits x)) ha h

end

/-- A window form that stands alone is a command on the decoder (log entry 5). -/
theorem exec_windowForm (f : WindowForm) (s : State) : exec f.instr s = decoderCommand (fun c => runWindow c f) s := by
  cases f <;> rfl

theorem stepBit_of_none {c : Params} {b : Bool} {d : Decoder} (h : recognize c (shiftIn b d) = none) :
    stepBit c b d = .ok { shiftIn b d with cnt := d.cnt - 1 } := stepBit_ok.2 (.inl ⟨h, rfl⟩)

/-- A channel bit that completes a form runs it on the shifted window, whole or not at all. -/
theorem stepBit_of_some {c : Params} {b : Bool} {d : Decoder} {f : WindowForm}
    (h : recognize c (shiftIn b d) = some f) : stepBit c b d = runWindow c f (shiftIn b d) := by
  simp only [stepBit, h]

/-- No form is recognized on a bit that completes none. -/
theorem recognize_eq_none {c : Params} {b : Bool} {d : Decoder} (h : ∀ i, ¬ completesForm c b d i) :
    recognize c (shiftIn b d) = none :=
  Option.eq_none_iff_forall_ne_some.2 fun f hf => h f.instr (completesForm_iff.2 ⟨f, hf, rfl⟩)

/-- Settles O28: a bit that completes no form goes on with the countdown; one that completes a form does what the
form does, and discards the shift too if it faults. -/
theorem decBitRunsCompletedForm : Obligations.DecBitRunsCompletedForm := by
  intro b s ha
  rw [shiftedWindow_eq]
  refine ⟨fun hnone => ?_, fun i hi => ?_⟩
  · exact exec_decBit_ok ha (stepBit_of_none (recognize_eq_none hnone))
  · obtain ⟨f, hf, rfl⟩ := completesForm_iff.1 hi
    have runs : stepBit s.cfg b s.dec = runWindow s.cfg f (shiftIn b s.dec) := stepBit_of_some hf
    rw [exec_windowForm]
    cases hrun : runWindow s.cfg f (shiftIn b s.dec) with
    | ok e =>
      refine ⟨accept { s with dec := e }, decoderCommand_ok (op := fun c => runWindow c f) ha hrun, fun _ => ?_,
        fun hne => absurd rfl hne⟩
      exact exec_decBit_ok ha (runs.trans hrun)
    | error g =>
      refine ⟨raiseFault g { s with dec := shiftIn b s.dec },
        decoderCommand_error (op := fun c => runWindow c f) ha hrun, fun hok => ?_, fun _ => ?_⟩
      · exact absurd hok (okCode_ne_of_mem (faultCode_mem g))
      · exact exec_decBit_error ha (runs.trans hrun)

/-- A form restarts the countdown (R112). -/
theorem runWindow_cnt {c : Params} {f : WindowForm} {d e : Decoder} (h : runWindow c f d = .ok e) : e.cnt = 16 := by
  obtain ⟨g, rfl, -⟩ := runWindow_ok.1 h
  rfl

/-- Settles O29: with room for a byte and a record a bit is shifted in, and the countdown restarts with a form. -/
theorem decBitCompletes : Obligations.DecBitCompletes := by
  intro b s ha hbytes hcat
  have completes := stepBit_completes s.cfg b s.dec
  obtain ⟨e, he⟩ := completes.exists_ok hbytes hcat
  have shifts := completes.post_of_ok he
  refine ⟨accept { s with dec := e }, exec_decBit_ok ha he, rfl,
    shifts.dstate.trans ha, shifts.window.trans (shiftedWindow_eq b s.dec).symm, (stepBit_countsBits he).pos,
    shifts.keeps, shifts.bytes, fun ⟨i, hi⟩ => ?_, fun hnone => ?_⟩
  · obtain ⟨f, hf, -⟩ := completesForm_iff.1 hi
    exact runWindow_cnt ((stepBit_of_some hf).symm.trans he)
  · cases (stepBit_of_none (recognize_eq_none hnone)).symm.trans he
    exact ⟨rfl, rfl⟩

/-! ### DEC_BYTE (41_demodulator.md R107, 70_reset_and_hazards.md R228) -/

/-- A run of DEC_BITs fails from its first failing bit on: while Done the others are refused. -/
theorem runInstrs_decBits_done {bs : List Bool} {s t : State} (hd : s.dec.dstate = .done)
    (hs : s.result ∈ failureCodes) (h : runInstrs (bs.map .decBit) s = .next t) : t.result ∈ failureCodes := by
  induction bs generalizing s with
  | nil => cases h; exact hs
  | cons b bs ih =>
    rw [List.map_cons, runInstrs_cons (exec_decBit_done hd)] at h
    exact ih (s := refuse .decoderDone s) hd (refuseCode_mem .decoderDone) h

/-- DEC_BITs that all take effect step the decoder bit by bit. -/
theorem stepBits_of_runInstrs {bs : List Bool} {s t : State} (ha : s.dec.dstate = .active)
    (h : runInstrs (bs.map .decBit) s = .next t) (ht : t.result = okCode) :
    ∃ d, stepBits s.cfg bs s.dec = .ok d ∧ t = accept { s with dec := d } := by
  induction bs generalizing s with
  | nil =>
    obtain rfl : s = t := Host.Outcome.next.inj h
    exact ⟨s.dec, rfl, by rw [accept, ← ht]⟩
  | cons b bs ih =>
    cases hg : stepBit s.cfg b s.dec with
    | ok g =>
      have hactive := ((stepBit_completes s.cfg b s.dec).post_of_ok hg).dstate.trans ha
      rw [List.map_cons, runInstrs_cons (exec_decBit_ok ha hg)] at h
      obtain ⟨d, hd, rfl⟩ := ih hactive h
      exact ⟨d, stepBits_cons_ok.2 ⟨g, hg, hd⟩, rfl⟩
    | error f =>
      rw [List.map_cons, runInstrs_cons (exec_decBit_error ha hg)] at h
      exact absurd ht (okCode_ne_of_mem (runInstrs_decBits_done rfl (faultCode_mem f) h))

/-- Bits that the decoder takes one by one are DEC_BITs that take effect. -/
theorem runInstrs_of_stepBits {b : Bool} {bs : List Bool} {s : State} {d : Decoder} (ha : s.dec.dstate = .active)
    (h : stepBits s.cfg (b :: bs) s.dec = .ok d) :
    runInstrs ((b :: bs).map .decBit) s = .next (accept { s with dec := d }) := by
  induction bs generalizing b s with
  | nil =>
    obtain ⟨g, hg, hd⟩ := stepBits_cons_ok.1 h
    cases hd
    exact runInstrs_cons (is := []) (exec_decBit_ok ha hg)
  | cons b' bs ih =>
    obtain ⟨g, hg, hd⟩ := stepBits_cons_ok.1 h
    have hactive := ((stepBit_completes s.cfg b s.dec).post_of_ok hg).dstate.trans ha
    rw [List.map_cons, runInstrs_cons (exec_decBit_ok ha hg)]
    exact ih (s := accept { s with dec := g }) hactive hd

/-- Settles O30: both are the eight steps of `stepBits`. -/
theorem decByteIsEightDecBits : Obligations.DecByteIsEightDecBits := by
  refine ⟨fun x s t ha h ht => ?_, fun x s ha hb hc => ?_⟩
  · obtain ⟨d, hd, rfl⟩ := stepBits_of_runInstrs ha h ht
    exact exec_decByte_ok ha hd
  · have completes := stepBits_completes s.cfg (channelBits x) s.dec
    obtain ⟨d, hd⟩ := completes.exists_ok hb hc
    exact ⟨accept { s with dec := d }, exec_decByte_ok ha hd, rfl,
      (completes.post_of_ok hd).dstate.trans ha, (stepBits_countsBits hd).pos, runInstrs_of_stepBits ha hd⟩

/-! ### The last kind after a form (41_demodulator.md R109 to R113) -/

/-- How a form says that its byte was produced (R25). -/
def windowKind (f : WindowForm) (d : Decoder) : LastKind :=
  match f with
  | .syncA1 => .a1
  | .markC2 => if due d then .c2on else .c2off
  | .gap4E | .dataWindow _ => .data

theorem emit_lastKind {c : Params} {v : Byte} {y : Bool} {k : LastKind} {d e : Decoder}
    (h : emit c v y k d = .ok e) : e.lastKind = k := by
  obtain ⟨-, hc⟩ := emit_consumes h
  exact (consume_sameDemod (Nat.le_succ d.trackLen) hc).lastKind

theorem syncRun_lastKind {c : Params} {b : Bool} {d g : Decoder} (h : syncRun c b d = .ok g) :
    g.lastKind = .a1 := by
  obtain ⟨e, f, -, -, rfl⟩ := syncRun_ok.1 h
  exact (fixupGated_sameDemod c (f.trackLen - 1) { f with lastKind := .a1 }).lastKind

theorem runWindow_lastKind {c : Params} {f : WindowForm} {d e : Decoder} (h : runWindow c f d = .ok e) :
    e.lastKind = windowKind f d := by
  obtain ⟨g, rfl, hg⟩ := runWindow_ok.1 h
  cases f with
  | syncA1 => exact syncRun_lastKind (g := g) hg
  | markC2 | gap4E | dataWindow w => exact emit_lastKind (e := g) hg

/-! ### How many bytes eight channel bits emit (41_demodulator.md R107)

A byte that any form emits puts the next boundary sixteen bits away, so the bits that follow it in a DEC_BYTE
emit by a pattern only. Two patterns complete within six bits of each other only where an A1 completes five bits
after a C2, and there the A1 takes the place of the C2 (R114). -/

/-- The three patterns of the recognizer (30_encoding.md R70). -/
def windowPatterns : List Half := [syncA1Win, markC2Win, gap4EWin]

/-- A window that holds the upper bits of another, moved down. -/
theorem shiftLeft_eq_of_bits {u w : Half} {m : Nat}
    (h : ∀ i < 16, i + m < 16 → u.getLsbD i = w.getLsbD (i + m)) : u <<< m = w >>> m <<< m := by
  refine BitVec.eq_of_getLsbD_eq fun i hi => ?_
  by_cases hm : i < m
  · simp [hm]
  · have hbit := h (i - m) (by omega) (by omega)
    rw [Nat.sub_add_cancel (Nat.le_of_not_lt hm)] at hbit
    simp [hm, hi, hbit, Nat.add_sub_of_le (Nat.le_of_not_lt hm), -BitVec.getLsbD_eq_getElem]

/-- Six or fewer bits after a pattern, only an A1 after a C2 can complete. -/
theorem patterns_overlap : ∀ w ∈ windowPatterns, ∀ u ∈ windowPatterns, ∀ m < 7, m ≠ 0 →
    u <<< m = w >>> m <<< m → w = markC2Win ∧ u = syncA1Win := by
  simp only [windowPatterns, List.forall_mem_cons, List.not_mem_nil, false_imp_iff, implies_true, and_true]
  and_intros <;> decide

/-- `m` bits ago the window held the pattern `w`, off the boundary, and nothing has been emitted since. -/
structure AfterPattern (w : Half) (m : Nat) (d : Decoder) : Prop where
  pattern : w ∈ windowPatterns
  window : ∀ i < 16, i + m < 16 → d.window.getLsbD i = w.getLsbD (i + m)
  cnt : d.cnt + m = 16
  afterC2 : w = markC2Win → d.lastKind = .c2off

/-- Off the boundary only a pattern is recognized (R104). -/
theorem recognize_offBoundary {c : Params} {d : Decoder} {f : WindowForm} (h : recognize c d = some f)
    (hcnt : d.cnt ≠ 1) :
    (f = .syncA1 ∧ d.window = syncA1Win) ∨ (f = .markC2 ∧ d.window = markC2Win) ∨
      (f = .gap4E ∧ d.window = gap4EWin) := by
  rcases recognize_some h with ⟨hf, hw, -⟩ | ⟨hf, hw, -⟩ | ⟨hf, hw, -⟩ | ⟨-, hdue⟩
  · exact .inl ⟨hf, hw⟩
  · exact .inr (.inl ⟨hf, hw⟩)
  · exact .inr (.inr ⟨hf, hw⟩)
  · exact absurd ((due_iff d).1 hdue) hcnt

theorem runWindow_window {c : Params} {f : WindowForm} {d e : Decoder} (h : runWindow c f d = .ok e) :
    e.window = d.window := ((runWindow_completes c f d).post_of_ok h).window

/-- A form that is run off the boundary leaves its pattern in the window. -/
theorem runWindow_afterPattern {c : Params} {f : WindowForm} {d e : Decoder} (h : recognize c d = some f)
    (hcnt : d.cnt ≠ 1) (he : runWindow c f d = .ok e) : AfterPattern d.window 0 e := by
  have hform := recognize_offBoundary h hcnt
  refine ⟨?_, fun i _ _ => by rw [runWindow_window he]; rfl, runWindow_cnt he, fun hw => ?_⟩
  · rcases hform with ⟨-, hw⟩ | ⟨-, hw⟩ | ⟨-, hw⟩ <;> rw [hw] <;> decide
  · obtain rfl : f = .markC2 := by
      rcases hform with ⟨-, hw'⟩ | ⟨hf, -⟩ | ⟨-, hw'⟩
      · exact absurd (hw.symm.trans hw') (by decide)
      · exact hf
      · exact absurd (hw.symm.trans hw') (by decide)
    rw [runWindow_lastKind he, windowKind, if_neg (mt (due_iff d).1 hcnt)]

/-- An A1 that takes the place of a C2 does not lengthen the track (R114). -/
theorem syncRun_replacing_trackLen {c : Params} {b : Bool} {d g : Decoder} (hr : replacesC2 b d = true)
    (h : syncRun c b d = .ok g) : g.trackLen = d.trackLen := by
  obtain ⟨e, f, he, hf, rfl⟩ := syncRun_ok.1 h
  obtain ⟨-, hlen, -⟩ := truncateOpen_frame he
  rw [hr] at hf
  cases hf
  have same := fixupGated_sameDemod c ((trackRewrite (e.trackLen - 1) a1Byte true e).trackLen - 1)
    { trackRewrite (e.trackLen - 1) a1Byte true e with lastKind := .a1 }
  rw [countA1_trackLen, same.trackLen, trackRewrite_trackLen, hlen]

/-- A bit shortly after a pattern lengthens the track by nothing. -/
theorem AfterPattern.stepBit {c : Params} {b : Bool} {w : Half} {m : Nat} {d e : Decoder} (h : AfterPattern w m d)
    (hm : m < 6) (he : stepBit c b d = .ok e) :
    e.trackLen = d.trackLen ∧ ∃ u n, n ≤ m + 1 ∧ AfterPattern u n e := by
  have shifted (i : Nat) (hi : i < 16) (hlt : i + (m + 1) < 16) :
      (shiftIn b d).window.getLsbD i = w.getLsbD (i + (m + 1)) := by
    have hbit : (shiftIn b d).window.getLsbD i = d.window.getLsbD (i + 1) :=
      (shiftBit_getLsbD d.window b hi).trans (if_neg (by omega))
    rw [hbit, h.window (i + 1) (by omega) (by omega), Nat.add_right_comm, Nat.add_assoc]
  have hcount := h.cnt
  have hcnt : (shiftIn b d).cnt ≠ 1 := by
    rw [shiftIn_cnt]
    omega
  rcases stepBit_ok.1 he with ⟨-, rfl⟩ | ⟨f, hf, hrun⟩
  · refine ⟨rfl, w, m + 1, le_rfl, h.pattern, shifted, ?_, h.afterC2⟩
    show d.cnt - 1 + (m + 1) = 16
    omega
  · have after := runWindow_afterPattern hf hcnt hrun
    refine ⟨?_, _, 0, Nat.zero_le _, after⟩
    obtain ⟨hw, hu⟩ := patterns_overlap w h.pattern _ after.pattern (m + 1) (by omega) (by omega)
      (shiftLeft_eq_of_bits shifted)
    obtain rfl : f = .syncA1 := by
      rcases recognize_offBoundary hf hcnt with ⟨hf, -⟩ | ⟨-, hu'⟩ | ⟨-, hu'⟩
      · exact hf
      · exact absurd (hu.symm.trans hu') (by decide)
      · exact absurd (hu.symm.trans hu') (by decide)
    obtain ⟨g, rfl, hg⟩ := runWindow_ok.1 hrun
    refine (syncRun_replacing_trackLen ?_ hg).trans (shiftIn_trackLen b d)
    have hdue : due (shiftIn b d) = false := by simpa [← Bool.not_eq_true, due_iff] using hcnt
    simp [replacesC2, hdue, h.afterC2 hw]

theorem AfterPattern.stepBits {c : Params} {bs : List Bool} {w : Half} {m : Nat} {d e : Decoder}
    (h : AfterPattern w m d) (hlen : m + bs.length ≤ 6) (he : stepBits c bs d = .ok e) :
    e.trackLen = d.trackLen := by
  induction bs generalizing w m d with
  | nil => cases he; rfl
  | cons b bs ih =>
    rw [List.length_cons] at hlen
    obtain ⟨g, hg, hrest⟩ := stepBits_cons_ok.1 he
    obtain ⟨hfirst, u, n, hn, hafter⟩ := h.stepBit (by omega) hg
    exact (ih hafter (by omega) hrest).trans hfirst

/-- One channel bit emits at most one byte. -/
theorem stepBit_trackLen_le {c : Params} {b : Bool} {d e : Decoder} (h : stepBit c b d = .ok e) :
    e.trackLen ≤ d.trackLen + 1 := ((stepBit_completes c b d).post_of_ok h).bytes

/-- Up to seven bits that do not reach the boundary emit at most one byte. -/
theorem stepBits_offBoundary_trackLen_le {c : Params} {bs : List Bool} {d e : Decoder} (hlen : bs.length ≤ 7)
    (hcnt : bs.length < d.cnt) (he : stepBits c bs d = .ok e) : e.trackLen ≤ d.trackLen + 1 := by
  induction bs generalizing d with
  | nil => cases he; exact Nat.le_succ _
  | cons b bs ih =>
    rw [List.length_cons] at hlen hcnt
    obtain ⟨g, hg, hrest⟩ := stepBits_cons_ok.1 he
    rcases stepBit_ok.1 hg with ⟨-, rfl⟩ | ⟨f, hf, hrun⟩
    · exact ih (d := { shiftIn b d with cnt := d.cnt - 1 }) (by omega) (Nat.lt_sub_of_add_lt hcnt) hrest
    · have hoff : (shiftIn b d).cnt ≠ 1 := by
        rw [shiftIn_cnt]
        omega
      rw [(runWindow_afterPattern hf hoff hrun).stepBits (by omega) hrest]
      exact stepBit_trackLen_le hg

/-- Up to eight bits emit at most two bytes: after the first the boundary is out of reach. -/
theorem stepBits_trackLen_le {c : Params} {bs : List Bool} {d e : Decoder} (hlen : bs.length ≤ 8)
    (he : stepBits c bs d = .ok e) : e.trackLen ≤ d.trackLen + 2 := by
  induction bs generalizing d with
  | nil => cases he; exact Nat.le_add_right _ 2
  | cons b bs ih =>
    rw [List.length_cons] at hlen
    obtain ⟨g, hg, hrest⟩ := stepBits_cons_ok.1 he
    rcases stepBit_ok.1 hg with ⟨-, rfl⟩ | ⟨f, -, hrun⟩
    · exact ih (d := { shiftIn b d with cnt := d.cnt - 1 }) (by omega) hrest
    · have hrestart := runWindow_cnt hrun
      have hfirst := stepBit_trackLen_le hg
      have hlater := stepBits_offBoundary_trackLen_le (by omega) (by omega) hrest
      omega

/-- Settles O31: a DEC_BYTE that takes effect is eight bits; one that fails changes at most dstate. -/
theorem decByteEmitsAtMostTwoBytes : Obligations.DecByteEmitsAtMostTwoBytes := by
  intro x s t h
  rcases exec_outcome h with ⟨-, hop⟩ | ⟨-, y, hdec⟩
  · have shifts := (stepBits_completes s.cfg (channelBits x) s.dec).post_of_ok hop
    exact ⟨shifts.keeps, stepBits_trackLen_le (length_channelBits x).le hop⟩
  · rw [hdec]
    exact ⟨le_rfl, Nat.le_add_right _ 2⟩

/-! ### The sync bit and the last kind, which the parser does not read (41_demodulator.md R122)

A byte emitted as a C2 mark and one emitted as data differ in their sync bit and in the last kind. Every operation
of the parser acts alike on the two decoders: it reads neither, and the recovery rewrite ends below the byte. -/

/-- The decoder with the sync bit at `p` set and with the last kind `k`. -/
def withSync (p : Nat) (k : LastKind) (d : Decoder) : Decoder :=
  { d with syncBits := d.syncBits.write p true, lastKind := k }

@[simp] theorem withSync_a1 (p : Nat) (k : LastKind) (d : Decoder) : (withSync p k d).a1 = d.a1 := rfl
@[simp] theorem withSync_recover (p : Nat) (k : LastKind) (d : Decoder) :
    (withSync p k d).recover = d.recover := rfl
@[simp] theorem withSync_stage (p : Nat) (k : LastKind) (d : Decoder) : (withSync p k d).stage = d.stage := rfl
@[simp] theorem withSync_hBuf (p : Nat) (k : LastKind) (d : Decoder) : (withSync p k d).hBuf = d.hBuf := rfl

/-- Two writes of sync bits at different indices, in either order. -/
theorem SyncMap.write_comm {m : SyncMap} (hm : m.wf = true) {p q : Nat} (hpq : p ≠ q) (x y : Bool) :
    (m.write p x).write q y = (m.write q y).write p x := by
  refine cells_ext (SyncMap.wf_write _ q y (SyncMap.wf_write m p x hm))
    (SyncMap.wf_write _ p x (SyncMap.wf_write m q y hm)) fun a => ?_
  show ((m.write p x).write q y).read a = ((m.write q y).write p x).read a
  simp only [SyncMap.read_write]
  split_ifs with hq hp
  · exact absurd (hp.symm.trans hq) hpq
  all_goals rfl

/-- Of two writes of a sync bit at one index the second counts. -/
theorem SyncMap.write_write {m : SyncMap} (hm : m.wf = true) (p : Nat) (x y : Bool) :
    (m.write p x).write p y = m.write p y := by
  refine cells_ext (SyncMap.wf_write _ p y (SyncMap.wf_write m p x hm)) (SyncMap.wf_write m p y hm) fun a => ?_
  show ((m.write p x).write p y).read a = (m.write p y).read a
  simp only [SyncMap.read_write]
  split_ifs <;> rfl

section

variable {c : Params} {p q n : Nat} {k : LastKind} {v : Byte} {y : Bool} {d : Decoder} {st : CrcStatus}

theorem trackRewrite_withSync (hd : d.syncBits.wf = true) (hq : p ≠ q) :
    trackRewrite q v y (withSync p k d) = withSync p k (trackRewrite q v y d) := by
  have hswap := SyncMap.write_comm hd hq true y
  by_cases hlt : q < d.trackLen <;> simp [trackRewrite, syncWrite, trackWrite, withSync, hlt, hswap]

theorem trackRewrite_syncWf (hd : d.syncBits.wf = true) : (trackRewrite q v y d).syncBits.wf = true := by
  rw [trackRewrite_syncBits]
  split
  · exact SyncMap.wf_write _ q y hd
  · exact hd

/-- The recovery rewrite is of indices below the byte at `p` (R172). -/
theorem recoverRewrite_withSync (hd : d.syncBits.wf = true) :
    recoverRewrite p (withSync p k d) = withSync p k (recoverRewrite p d) := by
  have each {qs : List Nat} (hqs : ∀ q ∈ qs, p ≠ q) :
      qs.foldl (recoverRewriteAt p) (withSync p k d) = withSync p k (qs.foldl (recoverRewriteAt p) d) := by
    induction qs generalizing d with
    | nil => rfl
    | cons q qs ih =>
      obtain ⟨hq, hqs⟩ := List.forall_mem_cons.1 hqs
      have first : recoverRewriteAt p (withSync p k d) q = withSync p k (recoverRewriteAt p d q) := by
        unfold recoverRewriteAt
        split <;> exact trackRewrite_withSync hd hq
      have wf : (recoverRewriteAt p d q).syncBits.wf = true := by
        unfold recoverRewriteAt
        split <;> exact trackRewrite_syncWf hd
      rw [List.foldl_cons, List.foldl_cons, first, ih wf hqs]
  refine each fun q hq => ?_
  obtain ⟨hle, hlt⟩ := List.mem_range'_1.1 hq
  omega

/-- A change of other registers afterwards. -/
theorem bind_withSync {r : Except Fault Decoder} {g : Decoder → Decoder}
    (hg : ∀ d, g (withSync p k d) = withSync p k (g d)) :
    (r.map (withSync p k)).bind (fun d => .ok (g d)) = (r.bind fun d => .ok (g d)).map (withSync p k) := by
  cases r with
  | ok e => exact congrArg Except.ok (hg e)
  | error f => rfl

theorem close_withSync : close c st n (withSync p k d) = (close c st n d).map (withSync p k) := by
  by_cases h : d.catalog.length = c.catalogCap
  · rw [close, close, if_pos h]
    exact if_pos h
  · rw [close, close, if_neg h]
    exact if_neg h

theorem closeIdle_withSync : closeIdle c st n (withSync p k d) = (closeIdle c st n d).map (withSync p k) := by
  rw [closeIdle, close_withSync]
  exact bind_withSync fun _ => rfl

theorem runMark_withSync {f : MarkForm} : runMark c f q (withSync p k d) = (runMark c f q d).map (withSync p k) := by
  cases f with
  | idamFc | idamFd | idamFe => rfl
  | dam v =>
    show (if d.lenKnown then _ else _) = Except.map _ (if d.lenKnown then _ else _)
    split
    · rfl
    · exact closeIdle_withSync (d := { d with fieldEnd := q + 1, openRec := some ⟨.dataField, v, q + 1⟩ })
  | unknown v => exact closeIdle_withSync (d := { d with fieldEnd := q + 1, openRec := some ⟨.unknown, v, q + 1⟩ })

theorem idleByte_withSync (hd : d.syncBits.wf = true) :
    idleByte c v p (withSync p k d) = (idleByte c v p d).map (withSync p k) := by
  have recovers : recoverMark c v p (withSync p k d) = (recoverMark c v p d).map (withSync p k) := by
    rw [recoverMark, recoverRewrite_withSync hd]
    exact runMark_withSync (d := { recoverRewrite p d with crc := crcRecoverSeed })
  unfold idleByte
  rw [withSync_a1, withSync_recover]
  split_ifs
  · exact runMark_withSync
  · exact recovers
  · rfl
  · rfl

/-- A byte of an ID field (R144, R145); the other field bytes follow, stage by stage. -/
theorem idByte_withSync {j : Fin 4} : idByte j v (withSync p k d) = withSync p k (idByte j v d) := by
  unfold idByte
  split <;> rfl

theorem idCrcByte_withSync {j : Fin 2} :
    idCrcByte c j v (withSync p k d) = (idCrcByte c j v d).map (withSync p k) := by
  unfold idCrcByte
  split
  · rfl
  · exact closeIdle_withSync

theorem dataCrcByte_withSync {j : Fin 2} :
    dataCrcByte c j v (withSync p k d) = (dataCrcByte c j v d).map (withSync p k) := by
  unfold dataCrcByte
  split
  · rfl
  · exact closeIdle_withSync

theorem headerDone_withSync : headerDone c (withSync p k d) = (headerDone c d).map (withSync p k) := by
  have latched (i : AmigaInfo) (st : CrcStatus) : close c st amigaHdrLen (amigaLatch i (withSync p k d)) =
      (close c st amigaHdrLen (amigaLatch i d)).map (withSync p k) := close_withSync (d := amigaLatch i d)
  simp only [headerDone, latched]
  rw [withSync_hBuf]
  split
  · exact bind_withSync fun _ => rfl
  · rfl

theorem amigaHeaderByte_withSync {j : Fin amigaHdrLen} :
    amigaHeaderByte c j v (withSync p k d) = (amigaHeaderByte c j v d).map (withSync p k) := by
  simp only [amigaHeaderByte]
  split
  · rfl
  · exact headerDone_withSync (d := { d with hBuf := d.hBuf.set j.val v })

theorem amigaDataByte_withSync {j : Fin amigaDataLen} :
    amigaDataByte c j v (withSync p k d) = (amigaDataByte c j v d).map (withSync p k) := by
  simp only [amigaDataByte]
  split
  · rfl
  · exact closeIdle_withSync (d := { d with fold := foldByte j.val v d.fold })

/-- A byte that the parser consumes, in every stage (R140, R141). -/
theorem consume_withSync (hd : d.syncBits.wf = true) :
    consume c v p (withSync p k d) = (consume c v p d).map (withSync p k) := by
  simp only [consume]
  rw [withSync_stage]
  cases d.stage with
  | idle =>
    simp only [consumeIdle, idleByte_withSync hd]
    exact bind_withSync fun _ => rfl
  | readId j => exact congrArg Except.ok (idByte_withSync (d := { d with fieldEnd := p + 1, stage := .readId j }))
  | readData j => rfl
  | readIdCrc j => exact idCrcByte_withSync (d := { d with fieldEnd := p + 1, stage := .readIdCrc j })
  | readDataCrc j => exact dataCrcByte_withSync (d := { d with fieldEnd := p + 1, stage := .readDataCrc j })
  | amigaHeader j => exact amigaHeaderByte_withSync (d := { d with fieldEnd := p + 1, stage := .amigaHeader j })
  | amigaData j => exact amigaDataByte_withSync (d := { d with fieldEnd := p + 1, stage := .amigaData j })

/-- The emission of a byte as a mark and as data (R122). -/
theorem emit_mark_eq (hd : d.syncBits.wf = true) :
    emit c v true k d = (emit c v false .data d).map (withSync d.trackLen k) := by
  have appended : withNewByte v true k d = withSync d.trackLen k (withNewByte v false .data d) := by
    simp only [withNewByte, withSync, trackAppend, SyncMap.write_write hd]
  have wf : (withNewByte v false .data d).syncBits.wf = true := SyncMap.wf_write _ d.trackLen false hd
  unfold emit appendByte
  split
  · rfl
  · show consume c v d.trackLen (withNewByte v true k d) =
      (consume c v d.trackLen (withNewByte v false .data d)).map (withSync d.trackLen k)
    rw [appended, consume_withSync wf]

end

/-- MARK_C2 does what DATA_WINDOW does on its window, but for the sync bit and the last kind (R122). -/
theorem runWindow_markC2_eq {c : Params} {d : Decoder} (hd : d.syncBits.wf = true) :
    runWindow c .markC2 d =
      (runWindow c (.dataWindow markC2Win) d).map (withSync d.trackLen (if d.cnt = 1 then .c2on else .c2off)) := by
  simp only [runWindow, due, decide_eq_true_eq, emit_mark_eq hd]
  exact bind_withSync fun _ => rfl

/-! ### Outside preserve mode no C2 is off the boundary (41_demodulator.md R122) -/

/-- A form that is recognized outside preserve mode, and is no A1, is on the boundary (R104). -/
theorem windowKind_of_recognize {c : Params} {d : Decoder} {f : WindowForm} (hp : d.preserve = false)
    (h : recognize c d = some f) : windowKind f d ≠ .c2off := by
  rcases recognize_some h with ⟨rfl, -⟩ | ⟨rfl, -, hgap⟩ | ⟨rfl, -⟩ | ⟨rfl, -⟩
  · exact LastKind.noConfusion
  · obtain ⟨-, hdue | ⟨hpreserve, -⟩⟩ := (gapCheck_iff c d).1 hgap
    · rw [windowKind, if_pos ((due_iff d).2 hdue)]
      exact LastKind.noConfusion
    · exact absurd (hp.symm.trans hpreserve) Bool.false_ne_true
  · exact LastKind.noConfusion
  · exact LastKind.noConfusion

theorem stepBit_lastKind {c : Params} {b : Bool} {d e : Decoder} (hp : d.preserve = false)
    (hk : d.lastKind ≠ .c2off) (h : stepBit c b d = .ok e) : e.lastKind ≠ .c2off := by
  rcases stepBit_ok.1 h with ⟨-, rfl⟩ | ⟨f, hf, hrun⟩
  · exact hk
  · rw [runWindow_lastKind hrun]
    exact windowKind_of_recognize hp hf

theorem stepBits_lastKind {c : Params} {bs : List Bool} {d e : Decoder} (hp : d.preserve = false)
    (hk : d.lastKind ≠ .c2off) (h : stepBits c bs d = .ok e) : e.lastKind ≠ .c2off := by
  induction bs generalizing d with
  | nil => cases h; exact hk
  | cons b bs ih =>
    obtain ⟨g, hg, hrest⟩ := stepBits_cons_ok.1 h
    exact ih ((stepBit_countsBits hg).preserve.trans hp) (stepBit_lastKind hp hk hg) hrest

/-- A command word is never the window form MARK_C2 by itself (R80). -/
theorem decodeCommand_ne_markC2 {w : Word} {i : Instr} (h : decodeCommand w = .ok i) : i ≠ .markC2 := by
  obtain ⟨f, hf, -, -, rfl⟩ := decodeCommand_ok_iff.1 h
  revert f
  simp only [commandFields, List.forall_mem_cons]
  exact ⟨nofun, nofun, nofun, nofun, nofun, nofun, nofun, nofun, List.forall_mem_nil _⟩

/-- Every instruction that takes effect outside preserve mode, but for MARK_C2 by itself, leaves no off-boundary
C2 as the last kind if there was none. -/
theorem decoderOp_lastKind {i : Instr} {c : Params} {d e : Decoder} (hi : i ≠ .markC2) (hp : d.preserve = false)
    (hk : d.lastKind ≠ .c2off) (h : decoderOp i c d = .ok e) : e.lastKind ≠ .c2off := by
  unfold decoderOp at h
  cases i with
  | decStart => cases h; exact LastKind.noConfusion
  | decBit b => exact stepBit_lastKind hp hk h
  | decByte x => exact stepBits_lastKind hp hk h
  | decEnd =>
    obtain ⟨f, hf, rfl⟩ := endTrack_ok.1 h
    obtain ⟨-, -, -, -, -, -, -, hkind, -⟩ := truncateOpen_frame hf
    exact hkind ▸ hk
  | syncA1 | gap4E | dataWindow =>
    rw [runWindow_lastKind h]
    exact LastKind.noConfusion
  | markC2 => exact absurd rfl hi
  | idamFc | idamFd | idamFe | dam | markUnknown => exact (markForm_sameTrack h).lastKind ▸ hk
  | encStart | encByte | crcLoad | crcByte | encSyncA1 | encSyncC2 | encData => cases h; exact hk

theorem exec_lastKind {i : Instr} {s t : State} (hi : i ≠ .markC2) (hp : s.dec.preserve = false)
    (hk : s.dec.lastKind ≠ .c2off) (h : exec i s = .next t) : t.dec.lastKind ≠ .c2off := by
  rcases exec_outcome h with ⟨-, hop⟩ | ⟨-, x, hdec⟩
  · exact decoderOp_lastKind hi hp hk hop
  · rw [hdec]
    exact hk

/-- Settles O35: the forms are emissions, which the parser does not tell apart; and outside preserve mode a C2 is
recognized on the boundary only. -/
theorem gapWindowsAgainstOrdinary : Obligations.GapWindowsAgainstOrdinary := by
  refine ⟨fun s => rfl, fun s t hwf ha h hok => ?_, fun s t hp hk h => ?_⟩
  · rcases decoderCommand_cases (op := fun c => runWindow c (.dataWindow markC2Win)) h with
      ⟨hd, -⟩ | ⟨-, e, he, rfl⟩ | ⟨-, f, -, rfl⟩
    · exact absurd (ha.symm.trans hd) DState.noConfusion
    · have hrun := runWindow_markC2_eq (c := s.cfg) hwf
      rw [he] at hrun
      exact decoderCommand_ok (op := fun c => runWindow c .markC2) ha hrun
    · exact absurd hok (okCode_ne_of_mem (faultCode_mem f))
  · rcases step_cases h with ⟨-, rfl⟩ | ⟨w, rest, -, ⟨r, -, rfl⟩ | ⟨i, hi, hexec⟩⟩
    · exact hk
    · exact hk
    · exact exec_lastKind (s := { s with port := rest }) (decodeCommand_ne_markC2 hi) hp hk hexec

/-! ### The pre-sync fixup (41_demodulator.md R117, R119) -/

/-- A rewrite changes the memory only (R12). -/
theorem trackRewrite_eq (q : Nat) (v : Byte) (y : Bool) (d : Decoder) :
    trackRewrite q v y d =
      { d with bytes := (trackRewrite q v y d).bytes, syncBits := (trackRewrite q v y d).syncBits } := by
  unfold trackRewrite syncWrite trackWrite
  split_ifs <;> rfl

theorem fixupWalk_eq (c : Params) (p n : Nat) (d : Decoder) :
    fixupWalk c p n d =
      { d with bytes := (fixupWalk c p n d).bytes, syncBits := (fixupWalk c p n d).syncBits } := by
  induction n generalizing d with
  | zero => rfl
  | succ q ih =>
    unfold fixupWalk
    split
    · have rest := ih (trackRewrite q 0x00 false d)
      rw [trackRewrite_eq] at rest ⊢
      exact rest
    · rfl

/-- The fixup changes the memory only. -/
theorem fixupGated_eq_memory (c : Params) (p : Nat) (d : Decoder) :
    fixupGated c p d =
      { d with bytes := (fixupGated c p d).bytes, syncBits := (fixupGated c p d).syncBits } := by
  rw [fixupGated_eq]
  exact fixupWalk_eq c p _ d

theorem fixupClears_iff {c : Params} {p q : Nat} {d : Decoder} :
    fixupClears c p q d = true ↔ d.fieldEnd ≤ q ∧ clearable c p q d := by
  simp only [fixupClears, Bool.and_eq_true, Bool.or_eq_true, decide_eq_true_eq, List.contains_iff_mem, or_assoc]

/-- Index `i` lies in the run of clearable bytes that ends at `n`, for an A1 at index `p` (R117). -/
def InRunBelow (c : Params) (p n i : Nat) (d : Decoder) : Prop :=
  d.fieldEnd ≤ i ∧ i < n ∧ ∀ q, i ≤ q → q < n → clearable c p q d

/-- The last byte of the run is the first that the walk looks at. -/
theorem inRunBelow_succ {c : Params} {p n i : Nat} {d : Decoder} :
    InRunBelow c p (n + 1) i d ↔ fixupClears c p n d = true ∧ (i = n ∨ InRunBelow c p n i d) := by
  rw [fixupClears_iff]
  constructor
  · rintro ⟨hfield, hlt, hrun⟩
    refine ⟨⟨by omega, hrun n (by omega) (by omega)⟩, ?_⟩
    by_cases hi : i = n
    · exact .inl hi
    · exact .inr ⟨hfield, by omega, fun q hq hqn => hrun q hq (by omega)⟩
  · rintro ⟨⟨hfield, hclear⟩, rfl | ⟨hfield', hlt, hrun⟩⟩
    · refine ⟨hfield, by omega, fun q hq hqn => ?_⟩
      obtain rfl : q = i := by omega
      exact hclear
    · refine ⟨hfield', by omega, fun q hq hqn => ?_⟩
      by_cases h : q = n
      · exact h ▸ hclear
      · exact hrun q hq (by omega)

/-- The run depends on fieldEnd and on the bytes below its end. -/
theorem inRunBelow_congr {c : Params} {p n i : Nat} {d e : Decoder} (hf : e.fieldEnd = d.fieldEnd)
    (h : ∀ q, q < n → trackRead e q = trackRead d q) : InRunBelow c p n i e ↔ InRunBelow c p n i d := by
  unfold InRunBelow
  rw [hf]
  refine and_congr_right fun _ => and_congr_right fun _ => forall_congr' fun q => imp_congr_right fun _ =>
    imp_congr_right fun hq => ?_
  rw [clearable, h q hq]

/-- The walk clears the run below `n`, and no other byte (R117). -/
theorem fixupWalk_cells {c : Params} {p n i : Nat} {d : Decoder} (hn : n ≤ d.trackLen) :
    (InRunBelow c p n i d →
      trackRead (fixupWalk c p n d) i = 0x00 ∧ syncRead (fixupWalk c p n d) i = false) ∧
      (¬ InRunBelow c p n i d → SameCell i d (fixupWalk c p n d)) := by
  induction n generalizing d with
  | zero => exact ⟨fun ⟨_, hlt, _⟩ => absurd hlt (Nat.not_lt_zero i), fun _ => ⟨rfl, rfl⟩⟩
  | succ n ih =>
    rw [inRunBelow_succ, fixupWalk]
    split
    case isTrue hclears =>
      have hlen : n ≤ (trackRewrite n 0x00 false d).trackLen := by
        rw [trackRewrite_trackLen]
        omega
      have below (q : Nat) (hq : q < n) : trackRead (trackRewrite n 0x00 false d) q = trackRead d q :=
        (sameCell_rewrite 0x00 false (by omega)).1
      have hrun : InRunBelow c p n i (trackRewrite n 0x00 false d) ↔ InRunBelow c p n i d :=
        inRunBelow_congr (trackRewrite_fieldEnd n 0x00 false d) below
      obtain ⟨cleared, kept⟩ := ih hlen
      rw [hrun] at cleared kept
      by_cases hi : i = n
      · have hout : ¬ InRunBelow c p n i d := fun ⟨_, hlt, _⟩ => by omega
        obtain ⟨hbyte, hsync⟩ := kept hout
        refine ⟨fun _ => ?_, fun h => absurd ⟨hclears, .inl hi⟩ h⟩
        rw [hbyte, hsync, trackRead_rewrite, syncRead_rewrite, if_pos ⟨hi, by omega⟩, if_pos ⟨hi, by omega⟩]
        exact ⟨rfl, rfl⟩
      · exact ⟨fun ⟨_, h⟩ => cleared (h.resolve_left hi),
          fun h => (sameCell_rewrite 0x00 false hi).trans (kept fun hin => h ⟨hclears, .inr hin⟩)⟩
    case isFalse hclears => exact ⟨fun ⟨h, _⟩ => absurd h hclears, fun _ => ⟨rfl, rfl⟩⟩

/-- The zero run below an A1 is the run that the fixup clears in normal mode (R119). -/
theorem inZeroRun_iff {c : Params} {p i : Nat} {d : Decoder} :
    inZeroRun c p i d ↔ InRunBelow c p (if d.recover = false ∧ d.preserve = false then p else 0) i d := by
  by_cases h : d.recover = false ∧ d.preserve = false
  · rw [if_pos h]
    exact ⟨fun ⟨_, _, hrun⟩ => hrun, fun hrun => ⟨h.1, h.2, hrun⟩⟩
  · rw [if_neg h]
    exact ⟨fun ⟨hr, hp, _⟩ => absurd ⟨hr, hp⟩ h, fun ⟨_, hlt, _⟩ => absurd hlt (Nat.not_lt_zero i)⟩

theorem fixupGated_cells {c : Params} {p i : Nat} {d : Decoder} (hp : p ≤ d.trackLen) :
    (inZeroRun c p i d →
      trackRead (fixupGated c p d) i = 0x00 ∧ syncRead (fixupGated c p d) i = false) ∧
      (¬ inZeroRun c p i d → SameCell i d (fixupGated c p d)) := by
  rw [inZeroRun_iff, fixupGated_eq]
  refine fixupWalk_cells ?_
  split
  · exact hp
  · exact Nat.zero_le _

/-- The zero run depends on the mode, on fieldEnd and on the bytes below the A1. -/
theorem inZeroRun_congr {c : Params} {p i : Nat} {d e : Decoder} (hr : e.recover = d.recover)
    (hp : e.preserve = d.preserve) (hf : e.fieldEnd = d.fieldEnd)
    (h : ∀ q, q < p → trackRead e q = trackRead d q) : inZeroRun c p i e ↔ inZeroRun c p i d := by
  rw [inZeroRun_iff, inZeroRun_iff, hr, hp]
  refine inRunBelow_congr hf fun q hq => h q ?_
  split_ifs at hq <;> omega

/-! ### The A1 sync (41_demodulator.md R113 to R116) -/

/-- The A1 is placed at index `p`: in the place of the last byte, or at the end (R114). -/
theorem placeA1_at {c : Params} {b : Bool} {p : Nat} {d : Decoder}
    (h : (b = true ∧ p + 1 = d.trackLen) ∨ (b = false ∧ p = d.trackLen ∧ p < c.bytesCap)) :
    ∃ f, placeA1 c b d = .ok f ∧
      f = { d with bytes := f.bytes, syncBits := f.syncBits, trackLen := p + 1 } ∧
      (trackRead f p = 0xA1 ∧ syncRead f p = true) ∧ ∀ n, n ≠ p → SameCell n d f := by
  rcases h with ⟨rfl, hp⟩ | ⟨rfl, rfl, hroom⟩
  · have hlast : d.trackLen - 1 = p := by omega
    refine ⟨trackRewrite p a1Byte true d, by rw [placeA1, if_pos rfl, hlast], ?_, ?_,
      fun n hn => sameCell_rewrite a1Byte true hn⟩
    · rw [hp]
      exact trackRewrite_eq p a1Byte true d
    · rw [trackRead_rewrite, syncRead_rewrite, if_pos ⟨rfl, by omega⟩, if_pos ⟨rfl, by omega⟩]
      exact ⟨rfl, rfl⟩
  · refine ⟨trackAppend a1Byte true d, placeA1_ok.2 (.inr ⟨rfl, Nat.ne_of_lt hroom, rfl⟩), rfl, ?_,
      fun n hn => sameCell_append a1Byte true hn⟩
    rw [trackRead_append, syncRead_append, if_pos rfl, if_pos rfl]
    exact ⟨rfl, rfl⟩

/-- The open field's length as a truncation records it (R155). -/
theorem truncatedLength_eq (d : Decoder) :
    truncatedLength d = if d.stage.openField then some (receivedLength d) else none := by
  unfold truncatedLength receivedLength
  cases d.stage <;> rfl

/-- The decoder after a truncation of what is open, if anything is: `r` is the record under construction
(R113, R155). -/
def truncated (r : OpenRec) (d : Decoder) : Decoder :=
  { d with
    catalog := truncatedCatalog r d
    openRec := if d.stage.openField = true then none else d.openRec
    stage := .idle
    a1 := if d.stage = .idle then d.a1 else 0 }

theorem truncateOpen_eq {c : Params} {r : OpenRec} {d : Decoder}
    (h : d.stage.openField = true → d.openRec = some r ∧ d.catalog.length < c.catalogCap) :
    truncateOpen c d = .ok (truncated r d) := by
  unfold truncated truncatedCatalog
  rw [truncatedLength_eq]
  by_cases hs : d.stage = .idle
  · have hclosed : d.stage.openField = false := by rw [hs]; rfl
    rw [truncateOpen_idle hs, if_pos hs, hclosed, if_neg Bool.false_ne_true, if_neg Bool.false_ne_true, ← hs]
  · rw [truncateOpen_open hs, if_neg hs, truncate_ok]
    split
    case isTrue hopen =>
      obtain ⟨hrec, hcat⟩ := h hopen
      refine ⟨Nat.ne_of_lt hcat, ?_⟩
      rw [closedRecord, openRecord_some hrec]
    case isFalse => rfl

/-- The decoder after an A1 sync at index `p`, with the memory that it leaves (R113, R115, R116). -/
def synced (r : OpenRec) (p : Nat) (bytes : Memory) (syncBits : SyncMap) (d : Decoder) : Decoder :=
  { d with
    bytes := bytes
    syncBits := syncBits
    trackLen := p + 1
    lastKind := .a1
    catalog := truncatedCatalog r d
    openRec := if d.stage.openField = true then none else d.openRec
    stage := .idle
    a1 := if d.stage = .idle then d.a1 + 1 else 1
    crc := if d.stage = .idle ∧ d.a1 ≠ 0 then crcUpd d.crc 0xA1 else 0x443B }

/-- The count after a truncation starts again at one, and the first A1 of a run seeds the CRC. -/
theorem countA1_truncated (r : OpenRec) (p : Nat) (bytes : Memory) (syncBits : SyncMap) (d : Decoder) :
    countA1 { truncated r d with bytes := bytes, syncBits := syncBits, trackLen := p + 1, lastKind := .a1 } =
      synced r p bytes syncBits d := by
  have seeded : crcUpd crcSeed a1Byte = 0x443B := by decide
  have first (n : Fin 4) : n + 1 = 1 ↔ n = 0 := by
    revert n
    decide
  by_cases hs : d.stage = .idle
  · by_cases ha : d.a1 = 0
    · simp [countA1, truncated, synced, hs, ha, seeded]
    · simp [countA1, truncated, synced, hs, ha, first, a1Byte]
  · simp [countA1, truncated, synced, hs, seeded]

/-- What the memory holds after an A1 sync at index `p`: the A1, the zero run below it cleared, and all else as it
was (R113, R117). -/
structure SyncedMemory (c : Params) (p : Nat) (d e : Decoder) : Prop where
  placed : trackRead e p = 0xA1 ∧ syncRead e p = true
  cleared : ∀ n, inZeroRun c p n d → trackRead e n = 0x00 ∧ syncRead e n = false
  kept : ∀ n, n ≠ p → ¬ inZeroRun c p n d → SameCell n d e

/-- The fixup below an A1 that has been placed. -/
theorem syncedMemory_fixup {c : Params} {p : Nat} {d f : Decoder} (hr : f.recover = d.recover)
    (hp : f.preserve = d.preserve) (hf : f.fieldEnd = d.fieldEnd) (hlen : p ≤ f.trackLen)
    (placed : trackRead f p = 0xA1 ∧ syncRead f p = true) (kept : ∀ n, n ≠ p → SameCell n d f) :
    SyncedMemory c p d (fixupGated c p f) := by
  have run (n : Nat) : inZeroRun c p n f ↔ inZeroRun c p n d :=
    inZeroRun_congr hr hp hf fun q hq => (kept q (by omega)).1
  have fixed (n : Nat) := fixupGated_cells (c := c) (i := n) hlen
  refine ⟨?_, fun n hn => (fixed n).1 ((run n).2 hn), fun n hne hn =>
    (kept n hne).trans ((fixed n).2 (mt (run n).1 hn))⟩
  have outside : ¬ inZeroRun c p p f := fun ⟨_, _, _, hlt, _⟩ => Nat.lt_irrefl p hlt
  obtain ⟨hbyte, hsync⟩ := (fixed p).2 outside
  exact ⟨hbyte.trans placed.1, hsync.trans placed.2⟩

/-- An A1 sync with room for what it adds (R113). -/
theorem syncRun_of_room {c : Params} {b : Bool} {r : OpenRec} {p : Nat} {d : Decoder}
    (hopen : d.stage.openField = true → d.openRec = some r ∧ d.catalog.length < c.catalogCap)
    (hplace : (replacesC2 b d = true ∧ p + 1 = d.trackLen) ∨
      (replacesC2 b d = false ∧ p = d.trackLen ∧ p < c.bytesCap)) :
    ∃ bytes syncBits, syncRun c b d = .ok (synced r p bytes syncBits d) ∧
      SyncedMemory c p d (synced r p bytes syncBits d) := by
  obtain ⟨f, hf, hrec, placed, kept⟩ := placeA1_at (d := truncated r d) hplace
  have hlen : f.trackLen - 1 = p := by rw [hrec]; rfl
  have memory : SyncedMemory c p d (fixupGated c p { f with lastKind := .a1 }) :=
    syncedMemory_fixup (by rw [hrec]; rfl) (by rw [hrec]; rfl) (by rw [hrec]; rfl)
      (by rw [hrec]; exact Nat.le_succ p) placed kept
  have result : countA1 (fixupGated c p { f with lastKind := .a1 }) = synced r p
      (fixupGated c p { f with lastKind := .a1 }).bytes (fixupGated c p { f with lastKind := .a1 }).syncBits d := by
    rw [← countA1_truncated, fixupGated_eq_memory, hrec]
  refine ⟨_, _, ?_, memory.placed, memory.cleared, memory.kept⟩
  rw [← result]
  exact syncRun_ok.2 ⟨_, f, truncateOpen_eq hopen, hf, by rw [hlen]⟩

theorem replacesC2_iff (d : Decoder) : replacesC2 (due d) d = true ↔ d.lastKind = .c2off ∧ d.cnt ≠ 1 := by
  rw [replacesC2, Bool.and_eq_true, decide_eq_true_iff, Bool.not_eq_true', ← Bool.not_eq_true, due_iff]

/-- Settles O32: the open field is truncated, the A1 placed at index `p`, the zero run below it cleared, and the
run counted. -/
theorem syncA1Result : Obligations.SyncA1Result := by
  intro s r p ha hopen hplace
  rw [← and_assoc, ← replacesC2_iff, Bool.not_eq_true] at hplace
  obtain ⟨bytes, syncBits, hrun, memory⟩ := syncRun_of_room hopen hplace
  have runs : runWindow s.cfg .syncA1 s.dec = .ok (restart (synced r p bytes syncBits s.dec)) :=
    runWindow_ok.2 ⟨_, rfl, hrun⟩
  exact ⟨_, decoderCommand_ok (op := fun c => runWindow c .syncA1) ha runs, rfl, memory.placed.1, memory.placed.2,
    fun n hn => ⟨memory.cleared n, memory.kept n hn⟩⟩

end Sys2Proof.Machine

/-! # Scope: the CRC engine and its test port -/

namespace Sys2Proof.Machine

open Sys2Proof.Config

/-! ### Division steps (42_crc.md R131) -/

/-- A division step shifts, and subtracts the polynomial when a 1 leaves the register. -/
theorem crcDivide_eq (c : Half) : crcDivide c = (c <<< 1) ^^^ (if c.getLsbD 15 then crcPoly else 0) := by
  unfold crcDivide
  split
  · rfl
  · exact BitVec.xor_zero.symm

/-- A division step is linear: the shift is, and so is the choice of what is subtracted. -/
theorem crcDivide_xor : Function.Semiconj₂ crcDivide (· ^^^ ·) (· ^^^ ·) := by
  intro c d
  have subtracted (x y : Bool) : (if x ^^ y then crcPoly else 0) =
      (if x then crcPoly else 0) ^^^ (if y then crcPoly else 0) := by
    revert x y
    decide
  simp only [crcDivide_eq, BitVec.shiftLeft_xor_distrib, BitVec.getLsbD_xor, subtracted]
  ac_rfl

/-- Division steps only shift as long as 0 bits leave the register. -/
theorem crcDivide_iterate_eq_shiftLeft {c : Half} {n : Nat} (h : ∀ i, i < n → c.getLsbD (15 - i) = false) :
    crcDivide^[n] c = c <<< n := by
  induction n with
  | zero => exact (BitVec.shiftLeft_zero c).symm
  | succ n ih =>
    have top : (c <<< n).getLsbD 15 = false := by
      rw [BitVec.getLsbD_shiftLeft, h n (Nat.lt_succ_self n), Bool.and_false]
    rw [Function.iterate_succ_apply', ih fun i hi => h i (Nat.lt_succ_of_lt hi), crcDivide_eq, top,
      if_neg Bool.false_ne_true, BitVec.shiftLeft_add]
    exact BitVec.xor_zero

/-! ### The table, and the update that looks it up (R131, R132) -/

theorem crcTable_eq (i : Byte) : crcTable i = crcDivide^[8] (i ++ (0 : Byte)) :=
  List.foldl_const crcDivide _ _

theorem crcTable_zero : crcTable 0 = 0 := by decide

theorem crcTable_xor (i j : Byte) : crcTable (i ^^^ j) = crcTable i ^^^ crcTable j := by
  have split : (i ^^^ j) ++ (0 : Byte) = (i ++ (0 : Byte)) ^^^ (j ++ (0 : Byte)) := by
    rw [BitVec.xor_append]
    rfl
  simp only [crcTable_eq, split, crcDivide_xor.iterate 8 _ _]

/-- A register is its high byte above its low byte. -/
theorem highByte_append_lowByte (c : Half) : (c >>> 8).setWidth 8 ++ c.setWidth 8 = c := by
  rw [BitVec.setWidth_ushiftRight_eq_extractLsb, BitVec.setWidth_eq_extractLsb' (by decide),
    BitVec.extractLsb'_append_extractLsb'_eq_extractLsb' (Nat.zero_add 8).symm, BitVec.extractLsb'_eq_self]

/-- What is exclusive-ored into the high part of a value stays apart from the low part. -/
theorem xor_highPart {m n : Nat} (x b : BitVec m) (y : BitVec n) :
    (x ++ y) ^^^ (b ++ (0 : BitVec n)) = ((x ^^^ b) ++ (0 : BitVec n)) ^^^ ((0 : BitVec m) ++ y) := by
  simp [BitVec.xor_append]

/-- Zeros above a value leave its bits. -/
theorem getLsbD_zero_append {n m : Nat} (x : BitVec m) (i : Nat) :
    ((0 : BitVec n) ++ x).getLsbD i = x.getLsbD i := by
  rw [BitVec.getLsbD_append]
  split
  · rfl
  · next hge => exact BitVec.getLsbD_zero.trans (BitVec.getLsbD_of_ge x i (Nat.le_of_not_lt hge)).symm

/-- Eight steps move the low byte to the high half, undivided. -/
theorem crcDivide_lowByte (c : Half) : crcDivide^[8] ((0 : Byte) ++ c.setWidth 8) = c <<< 8 := by
  have high (i : Nat) (hi : i < 8) : ((0 : Byte) ++ c.setWidth 8).getLsbD (15 - i) = false :=
    (getLsbD_zero_append (c.setWidth 8) (15 - i)).trans (BitVec.getLsbD_of_ge _ _ (by omega))
  have low (i : Nat) (hi : i < 8) : ((0 : Byte) ++ c.setWidth 8).getLsbD i = c.getLsbD i :=
    (getLsbD_zero_append (c.setWidth 8) i).trans (by simp [hi])
  rw [crcDivide_iterate_eq_shiftLeft high]
  refine BitVec.eq_of_getLsbD_eq fun i hi => ?_
  rw [BitVec.getLsbD_shiftLeft, BitVec.getLsbD_shiftLeft, low (i - 8) (by omega)]

/-- One update divides the register, with the byte exclusive-ored into its high half, by eight steps: the table
divides the high half, and the low half is shifted. -/
theorem crcUpd_eq_divide (c : Half) (b : Byte) : crcUpd c b = crcDivide^[8] (c ^^^ (b ++ (0 : Byte))) := by
  calc crcUpd c b
    _ = crcTable ((c >>> 8).setWidth 8 ^^^ b) ^^^ (c <<< 8) := rfl
    _ = crcDivide^[8] (((c >>> 8).setWidth 8 ^^^ b) ++ (0 : Byte)) ^^^
          crcDivide^[8] ((0 : Byte) ++ c.setWidth 8) := by rw [crcTable_eq, crcDivide_lowByte]
    _ = crcDivide^[8] ((((c >>> 8).setWidth 8 ^^^ b) ++ (0 : Byte)) ^^^ ((0 : Byte) ++ c.setWidth 8)) :=
          (crcDivide_xor.iterate 8 _ _).symm
    _ = crcDivide^[8] (((c >>> 8).setWidth 8 ++ c.setWidth 8) ^^^ (b ++ (0 : Byte))) :=
          congrArg crcDivide^[8] (xor_highPart _ b _).symm
    _ = crcDivide^[8] (c ^^^ (b ++ (0 : Byte))) := by rw [highByte_append_lowByte]

/-- Settles O26: the table's entries are division steps, and these are linear. -/
theorem crcUpdateIsDivision : Obligations.CrcUpdateIsDivision :=
  ⟨fun c b => (crcUpd_eq_divide c b).trans (List.foldl_const crcDivide _ (List.range 8)).symm, crcTable_xor⟩

/-! ### The properties of R133 -/

/-- A byte equal to the register's high half cancels it, and leaves the low half in its place. -/
theorem crcUpd_highByte (c : Half) : crcUpd c ((c >>> 8).setWidth 8) = c <<< 8 := by
  rw [crcUpd, BitVec.xor_self]
  exact (congrArg (· ^^^ c <<< 8) crcTable_zero).trans BitVec.zero_xor

/-- The register's own bytes, high byte first, clear it. -/
theorem crcUpd_ownBytes (c : Half) : crcUpd (crcUpd c ((c >>> 8).setWidth 8)) (c.setWidth 8) = 0 := by
  have lowByte : ((c <<< 8) >>> 8).setWidth 8 = c.setWidth 8 := by
    refine BitVec.eq_of_getLsbD_eq fun i hi => ?_
    have hlt : 8 + i < 16 := by omega
    simp only [BitVec.getLsbD_setWidth, BitVec.getLsbD_ushiftRight, BitVec.getLsbD_shiftLeft]
    simp [hi, hlt]
  calc crcUpd (crcUpd c ((c >>> 8).setWidth 8)) (c.setWidth 8)
    _ = crcUpd (c <<< 8) (((c <<< 8) >>> 8).setWidth 8) := by rw [crcUpd_highByte, lowByte]
    _ = c <<< 8 <<< 8 := crcUpd_highByte (c <<< 8)
    _ = 0 := (BitVec.shiftLeft_add c 8 8).symm.trans (BitVec.shiftLeft_eq_zero (Nat.le_refl 16))

theorem crcUpd_seed_a1 : crcUpd 0xFFFF 0xA1 = 0x443B := by decide

/-- The check value of CRC-16/CCITT, and that of the same bytes from 0: the nine updates computed. -/
theorem crcUpd_checkValues :
    ([0x31, 0x32, 0x33, 0x34, 0x35, 0x36, 0x37, 0x38, 0x39] : List Byte).foldl crcUpd 0xFFFF = 0x29B1 ∧
      ([0x31, 0x32, 0x33, 0x34, 0x35, 0x36, 0x37, 0x38, 0x39] : List Byte).foldl crcUpd 0x0000 = 0x31C3 := by
  constructor <;> simp [crcUpd, crcTable, crcDivide, crcPoly, List.range_succ]

/-- Settles O27: the values are computed, and the residue is that of the CRC's own bytes. -/
theorem crcProperties : Obligations.CrcProperties := by
  obtain ⟨fromSeed, fromZero⟩ := crcUpd_checkValues
  refine ⟨fromSeed, fromZero, crcUpd_seed_a1, by decide, by decide, fun seed bs => ?_⟩
  rw [List.foldl_append]
  exact crcUpd_ownBytes (bs.foldl crcUpd seed)

/-! ### The test port (R134, R135) -/

/-- A command word with a reserved operand bit is refused (R86). -/
theorem decodeCommand_reserved {w : Word} {f : CommandFields} (hf : f ∈ commandFields)
    (hop : opcodeOf w = f.opcode) (h : w.extractLsb' f.used (24 - f.used) ≠ 0) :
    decodeCommand w = .error .reservedOperand := by
  rw [decodeCommand_of_opcode hf hop]
  refine checkReserved_error.2 ⟨fun hclear => h (BitVec.eq_of_getLsbD_eq fun i hi => ?_), rfl⟩
  have hbit := congrArg (fun x : BitVec 24 => x.getLsbD i) hclear
  have hlt : f.used + i < 24 := by omega
  simpa [operandOf, hi, hlt] using hbit

theorem exec_crcLoad (h : Half) (s : State) :
    exec (.crcLoad h) s = .next { s with crcPort := h, result := 0x00 } := rfl

theorem exec_crcByte (b : Byte) (s : State) :
    exec (.crcByte b) s = .next { s with crcPort := crcUpd s.crcPort b, result := 0x00 } := rfl

/-- Settles O24: CRC_LOAD writes its operand to the port, and words with a bit above it are refused. -/
theorem crcLoadResult : Obligations.CrcLoadResult := by
  obtain ⟨-, -, -, -, -, -, -, -, -, -, -, -, encoding, -⟩ := commandEncodings
  exact ⟨encoding, exec_crcLoad, fun w hop =>
    decodeCommand_reserved (f := .crcLoad) (by simp [commandFields]) hop⟩

/-- Settles O25: CRC_BYTE updates the port with its operand, and words with a bit above it are refused. -/
theorem crcByteResult : Obligations.CrcByteResult := by
  obtain ⟨-, -, -, -, -, -, -, -, -, -, -, -, -, encoding⟩ := commandEncodings
  refine ⟨encoding, exec_crcByte, fun s => ?_, fun w hop =>
    decodeCommand_reserved (f := .crcByte) (by simp [commandFields]) hop⟩
  rw [runInstrs_cons (exec_crcLoad 0xFFFF s), runInstrs_cons (exec_crcByte 0xA1 _), crcUpd_seed_a1]
  rfl

end Sys2Proof.Machine

/-! # Scope: the field parser: marks, the bytes of an ID field and of a Data field, and the end of the track -/

namespace Sys2Proof.Machine

open Sys2Proof.Config

/-! ### Marks (43_field_parser.md R142 to R153) -/

/-- The decoder when the mark at index `p` has been recorded where it stands, Incomplete with length 0 (R149,
R153, R154). -/
def recordedAtMark (kind : RecordKind) (v : Byte) (p : Nat) (d : Decoder) : Decoder :=
  { d with
    fieldEnd := p + 1
    openRec := none
    stage := .idle
    catalog := d.catalog ++ [⟨kind, v, p + 1, 0, .incomplete, d.curCyl, d.curSide, d.curSector⟩] }

theorem closeAtMark_of_room {c : Params} {kind : RecordKind} {v : Byte} {p : Nat} {d : Decoder}
    (hcat : d.catalog.length < c.catalogCap) :
    closeAtMark c kind v p { d with fieldEnd := p + 1 } = .ok (recordedAtMark kind v p d) :=
  closeIdle_ok.2 ⟨Nat.ne_of_lt hcat, rfl⟩

/-- An unknown mark is recorded where it stands (R153). -/
theorem runMark_unknown {c : Params} {v : Byte} {p : Nat} {d : Decoder}
    (hcat : d.catalog.length < c.catalogCap) :
    runMark c (.unknown v) p d = .ok (recordedAtMark .unknown v p d) := closeAtMark_of_room hcat

/-- A Data mark opens its field when a sector length is known (R148). -/
theorem runMark_dam_known {c : Params} {v : Byte} {p : Nat} {d : Decoder} (h : d.lenKnown = true) :
    runMark c (.dam v) p d = .ok (openDataField v p { d with fieldEnd := p + 1 }) := if_pos h

/-- A displaced Data mark is recorded where it stands (R149). -/
theorem runMark_dam_displaced {c : Params} {v : Byte} {p : Nat} {d : Decoder} (h : d.lenKnown = false)
    (hcat : d.catalog.length < c.catalogCap) :
    runMark c (.dam v) p d = .ok (recordedAtMark .dataField v p d) :=
  (if_neg (Bool.not_eq_true _ ▸ h)).trans (closeAtMark_of_room hcat)

/-- With room in the catalog a mark takes effect, and neither reads nor writes the countdown. -/
theorem runMark_of_room {c : Params} {d : Decoder} (hcat : d.catalog.length < c.catalogCap) (f : MarkForm)
    (p : Nat) : ∃ e, runMark c f p d = .ok e ∧ runMark c f p (restart d) = .ok (restart e) := by
  cases f with
  | idamFc | idamFd | idamFe => exact ⟨_, rfl, rfl⟩
  | unknown v => exact ⟨_, runMark_unknown hcat, runMark_unknown hcat⟩
  | dam v =>
    cases hlen : d.lenKnown with
    | true => exact ⟨_, runMark_dam_known hlen, runMark_dam_known hlen⟩
    | false => exact ⟨_, runMark_dam_displaced hlen hcat, runMark_dam_displaced hlen hcat⟩

/-- A mark form's instruction, when its mark takes effect on the last byte of the track. -/
theorem exec_mark_of_runMark {f : MarkForm} {s : State} {e : Decoder} (ha : s.dec.dstate = .active)
    (h : runMark s.cfg f (s.dec.trackLen - 1) s.dec = .ok e) :
    exec f.instr s = .next { s with dec := e, result := 0x00 } := by
  have command : exec f.instr s = decoderCommand (markForm f) s := by cases f <;> rfl
  rw [command]
  exact decoderCommand_ok (op := markForm f) ha h

/-- Settles O36: each of the three ID marks opens the ID field with its own byte. -/
theorem idMarkForms : Obligations.IdMarkForms := by
  intro s ha x hx
  simp only [List.mem_cons, List.not_mem_nil, or_false] at hx
  rcases hx with rfl | rfl | rfl
  · exact exec_mark_of_runMark (f := .idamFc) ha rfl
  · exact exec_mark_of_runMark (f := .idamFd) ha rfl
  · exact exec_mark_of_runMark (f := .idamFe) ha rfl

/-- Settles O37: a Data mark opens its field when the length is known; the other marks are closed where they
stand. -/
theorem dataAndUnknownMarkForms : Obligations.DataAndUnknownMarkForms := by
  intro v s ha
  refine ⟨fun _ hlen => ?_, fun _ hlen hcat => ?_, fun _ hcat => ?_⟩
  · exact exec_mark_of_runMark ha (runMark_dam_known hlen)
  · exact exec_mark_of_runMark ha (runMark_dam_displaced hlen hcat)
  · exact exec_mark_of_runMark ha (runMark_unknown hcat)

/-- After three A1s an Idle byte does what its mark form does, and the sync-run counter is reset (R141, R142). -/
theorem consume_of_mark {c : Params} {v : Byte} {p : Nat} {d e : Decoder} (hs : d.stage = .idle) (h3 : d.a1 = 3)
    (hm : runMark c (classifyMark v) p d = .ok e) : consume c v p d = .ok { e with a1 := 0 } :=
  (consume_of_idle hs).trans (consumeIdle_of_mark h3 hm)

/-- Settles O38: the byte is appended, its mark form runs on it, and the countdown, which no mark touches, is
restarted before or after it alike. -/
theorem markAfterThreeSyncs : Obligations.MarkAfterThreeSyncs := by
  intro s ha hs h3 room hcat
  refine ⟨fun w i hi => ?_, ?_⟩
  · obtain rfl : (classifyMark (demod w)).instr = i := Except.ok.inj hi
    obtain ⟨e, he, hrestart⟩ := runMark_of_room (d := withNewByte (demod w) false .data s.dec) hcat
      (classifyMark (demod w)) s.dec.trackLen
    have hmark := exec_mark_of_runMark
      (s := { s with dec := appendedByte (demod w) false .data s.dec }) ha hrestart
    exact ⟨_, hmark, rfl, execDataWindow_of_consume ha room (consume_of_mark hs h3 he)⟩
  · have hclass : classifyMark 0xC2 = .unknown 0xC2 := classifyMark_unknown (by decide)
    have hmark (k : LastKind) : runMark s.cfg (classifyMark 0xC2) s.dec.trackLen (withNewByte 0xC2 true k s.dec) =
        .ok (recordedAtMark .unknown 0xC2 s.dec.trackLen (withNewByte 0xC2 true k s.dec)) := by
      rw [hclass]
      exact runMark_unknown hcat
    rw [execMarkC2_of_consume ha room (consume_of_mark hs h3 (hmark _)), recordedAtMark, ← hs]
    rfl

/-! ### The bytes of an ID field (R144 to R147) -/

/-- Settles O40: the rules of the ID field, one per stage. -/
theorem idFieldBytes : Obligations.IdFieldBytes := by
  intro w s ha room
  refine ⟨fun k hs => ?_, fun hs => ?_, fun hs => ?_, fun r hs hr hcat => ?_⟩
  · exact exec_dataWindow_idBuffer rfl ha room hs
  · exact exec_dataWindow_idLatch rfl ha room hs
  · exact exec_dataWindow_idCrcHigh rfl ha room hs
  · exact exec_dataWindow_idCrcLow rfl ha room hs hr hcat

/-! ### The bytes of a Data field (R150 to R152) -/

section

variable {w : Half} {v : Byte} {s : State}

/-- DATA_WINDOW on a byte that ends its field: the record is closed with the given status and length (R154). -/
theorem exec_dataWindow_closes {st : CrcStatus} {n : Nat} {r : OpenRec} (hv : demod w = v)
    (ha : s.dec.dstate = .active) (room : s.dec.trackLen < s.cfg.bytesCap)
    (hc : consume s.cfg v s.dec.trackLen (withNewByte v false .data s.dec) =
      closeIdle s.cfg st n { withNewByte v false .data s.dec with fieldEnd := s.dec.trackLen + 1 })
    (hr : s.dec.openRec = some r) (hcat : s.dec.catalog.length < s.cfg.catalogCap) :
    exec (.dataWindow w) s = .next { s with
      dec := { fieldByte v s.dec with
        catalog := s.dec.catalog ++ [⟨r.kind, r.markByte, r.offset, n, st,
          s.dec.curCyl, s.dec.curSide, s.dec.curSector⟩]
        openRec := none
        stage := .idle }
      result := 0x00 } := by
  have hrec : openRecord { withNewByte v false .data s.dec with fieldEnd := s.dec.trackLen + 1 } = r :=
    openRecord_some hr
  rw [execDataWindow_of_byte hv ha room (hc.trans (closeIdle_ok.mpr ⟨Nat.ne_of_lt hcat, rfl⟩)), closedRecord,
    hrec]
  rfl

/-- The state when a Data field that is open in `s` has read the data bytes `vs` too and is in stage `st`
(R150). -/
def dataRead (vs : List Byte) (st : Stage) (s : State) : State :=
  { s with dec := { checkedBytes vs s.dec with stage := st }, result := 0x00 }

/-- DATA_WINDOW on a data byte (R150): the byte that fills the sector leads to the CRC. -/
theorem exec_dataWindow_data {k : Nat} (hv : demod w = v) (ha : s.dec.dstate = .active)
    (room : s.dec.trackLen < s.cfg.bytesCap) (hs : s.dec.stage = .readData k) :
    exec (.dataWindow w) s = .next
      (dataRead [v] (if k + 1 = sectorLength s.dec then .readDataCrc 0 else .readData (k + 1)) s) := by
  rw [execDataWindow_of_byte hv ha room (by simp only [consume, trackAppend_stage, hs]; rfl)]
  rfl

/-- DATA_WINDOW on the high CRC byte of a Data field (R151). -/
theorem exec_dataWindow_dataCrcHigh (hv : demod w = v) (ha : s.dec.dstate = .active)
    (room : s.dec.trackLen < s.cfg.bytesCap) (hs : s.dec.stage = .readDataCrc 0) :
    exec (.dataWindow w) s = .next { s with
      dec := { fieldByte v s.dec with crcHi := v, stage := .readDataCrc 1 }
      result := 0x00 } := by
  rw [execDataWindow_of_byte hv ha room (by
    simp only [consume, trackAppend_stage, hs, dataCrcByte, if_true]; rfl)]
  rfl

/-- DATA_WINDOW on the low CRC byte of a Data field: the record is closed with the verdict (R152, R154). -/
theorem exec_dataWindow_dataCrcLow {r : OpenRec} (hv : demod w = v) (ha : s.dec.dstate = .active)
    (room : s.dec.trackLen < s.cfg.bytesCap) (hs : s.dec.stage = .readDataCrc 1)
    (hr : s.dec.openRec = some r) (hcat : s.dec.catalog.length < s.cfg.catalogCap) :
    exec (.dataWindow w) s = .next { s with
      dec := { fieldByte v s.dec with
        catalog := s.dec.catalog ++ [⟨r.kind, r.markByte, r.offset, sectorLength s.dec,
          if s.dec.crcHi ++ v = s.dec.crc then .ok else .bad,
          s.dec.curCyl, s.dec.curSide, s.dec.curSector⟩]
        openRec := none
        stage := .idle }
      result := 0x00 } := by
  refine exec_dataWindow_closes (st := crcVerdict s.dec.crcHi v s.dec.crc) hv ha room ?_ hr hcat
  simp only [consume, withNewByte, trackAppend_stage, hs]
  rfl

/-- Settles O41: the rules of the Data field, one per stage. -/
theorem dataFieldBytes : Obligations.DataFieldBytes := by
  intro w s ha room
  refine ⟨fun k hs => ?_, fun hs => ?_, fun r hs hr hcat => ?_⟩
  · exact exec_dataWindow_data rfl ha room hs
  · exact exec_dataWindow_dataCrcHigh rfl ha room hs
  · exact exec_dataWindow_dataCrcLow rfl ha room hs hr hcat

/-! ### The whole Data field -/

/-- A run of field bytes neither reads nor writes the CRC and the stage. -/
theorem fieldBytes_withStage (vs : List Byte) (crc : Half) (st : Stage) (d : Decoder) :
    fieldBytes vs { d with crc := crc, stage := st } = { fieldBytes vs d with crc := crc, stage := st } := by
  induction vs generalizing d with
  | nil => rfl
  | cons v vs ih => exact ih (fieldByte v d)

@[simp] theorem fieldBytes_curCyl (vs : List Byte) (d : Decoder) : (fieldBytes vs d).curCyl = d.curCyl := by
  cases vs with
  | nil => rfl
  | cons v vs => rw [fieldBytes_eq]

@[simp] theorem fieldBytes_curSide (vs : List Byte) (d : Decoder) : (fieldBytes vs d).curSide = d.curSide := by
  cases vs with
  | nil => rfl
  | cons v vs => rw [fieldBytes_eq]

@[simp] theorem fieldBytes_curSector (vs : List Byte) (d : Decoder) :
    (fieldBytes vs d).curSector = d.curSector := by
  cases vs with
  | nil => rfl
  | cons v vs => rw [fieldBytes_eq]

/-- Data bytes in two runs are one run. -/
theorem dataRead_dataRead (us vs : List Byte) (st st' : Stage) (s : State) :
    dataRead vs st' (dataRead us st s) = dataRead (us ++ vs) st' s := by
  simp only [dataRead, checkedBytes, fieldBytes_withStage, fieldBytes_append, List.foldl_append]

theorem dataRead_dstate (vs : List Byte) (st : Stage) (s : State) :
    (dataRead vs st s).dec.dstate = s.dec.dstate := fieldBytes_dstate vs s.dec

theorem dataRead_trackLen (vs : List Byte) (st : Stage) (s : State) :
    (dataRead vs st s).dec.trackLen = s.dec.trackLen + vs.length := fieldBytes_trackLen vs s.dec

theorem dataRead_openRec (vs : List Byte) (st : Stage) (s : State) :
    (dataRead vs st s).dec.openRec = s.dec.openRec := fieldBytes_openRec vs s.dec

theorem dataRead_catalog (vs : List Byte) (st : Stage) (s : State) :
    (dataRead vs st s).dec.catalog = s.dec.catalog := fieldBytes_catalog vs s.dec

theorem dataRead_sectorLength (vs : List Byte) (st : Stage) (s : State) :
    sectorLength (dataRead vs st s).dec = sectorLength s.dec := by
  cases vs with
  | nil => rfl
  | cons v vs => rw [dataRead, checkedBytes, fieldBytes_eq]; rfl

/-- The rest of a Data field's bytes, of which `k` have been read: each enters the CRC, and the last one leads to
the CRC bytes (R150). -/
theorem runInstrs_dataBytes {k : Nat} {ws : List Half} (ha : s.dec.dstate = .active)
    (room : s.dec.trackLen + (w :: ws).length ≤ s.cfg.bytesCap) (hs : s.dec.stage = .readData k)
    (hlen : k + (w :: ws).length = sectorLength s.dec) :
    runInstrs ((w :: ws).map .dataWindow) s = .next (dataRead ((w :: ws).map demod) (.readDataCrc 0) s) := by
  induction ws generalizing w k s with
  | nil =>
    have hfull : k + 1 = sectorLength s.dec := hlen
    have hstep := exec_dataWindow_data (w := w) rfl ha room hs
    rw [if_pos hfull] at hstep
    exact runInstrs_cons hstep
  | cons u us ih =>
    simp only [List.length_cons] at room hlen ih
    have hstep := exec_dataWindow_data (w := w) rfl ha (by omega) hs
    rw [if_neg (by omega)] at hstep
    have hact := (dataRead_dstate [demod w] (.readData (k + 1)) s).trans ha
    have hroom : (dataRead [demod w] (.readData (k + 1)) s).dec.trackLen + (us.length + 1) ≤ s.cfg.bytesCap := by
      rw [dataRead_trackLen, List.length_singleton]; omega
    have hrest : k + 1 + (us.length + 1) = sectorLength (dataRead [demod w] (.readData (k + 1)) s).dec := by
      rw [dataRead_sectorLength]; omega
    rw [List.map_cons, runInstrs_cons hstep, ih hact hroom rfl hrest, dataRead_dataRead]
    rfl

/-- The two CRC bytes of a Data field close its record with the verdict (R151, R152, R154). -/
theorem runInstrs_dataCrc {hi lo : Half} {x y : Byte} {r : OpenRec} (hx : demod hi = x) (hy : demod lo = y)
    (ha : s.dec.dstate = .active) (room : s.dec.trackLen + 2 ≤ s.cfg.bytesCap)
    (hs : s.dec.stage = .readDataCrc 0) (hr : s.dec.openRec = some r)
    (hcat : s.dec.catalog.length < s.cfg.catalogCap) :
    runInstrs [.dataWindow hi, .dataWindow lo] s = .next { s with
      dec := { fieldBytes [x, y] s.dec with
        crcHi := x
        catalog := s.dec.catalog ++ [⟨r.kind, r.markByte, r.offset, sectorLength s.dec,
          if x ++ y = s.dec.crc then .ok else .bad,
          s.dec.curCyl, s.dec.curSide, s.dec.curSector⟩]
        openRec := none
        stage := .idle }
      result := 0x00 } := by
  have hhigh := exec_dataWindow_dataCrcHigh hx ha (by omega) hs
  rw [runInstrs_cons hhigh]
  exact runInstrs_cons (exec_dataWindow_dataCrcLow hy ha room rfl hr hcat)

/-- A Data field that has just been opened, whole: the data bytes of its sector, then the two CRC bytes. -/
theorem runInstrs_dataField {ws : List Half} {hi lo : Half} {r : OpenRec} (ha : s.dec.dstate = .active)
    (hs : s.dec.stage = .readData 0) (hr : s.dec.openRec = some r) (hlen : (w :: ws).length = sectorLength s.dec)
    (room : s.dec.trackLen + (w :: ws).length + 2 ≤ s.cfg.bytesCap)
    (hcat : s.dec.catalog.length < s.cfg.catalogCap) :
    runInstrs ((w :: ws ++ [hi, lo]).map .dataWindow) s = .next { s with
      dec := { fieldBytes ((w :: ws ++ [hi, lo]).map demod) s.dec with
        crc := ((w :: ws).map demod).foldl crcUpd s.dec.crc
        crcHi := demod hi
        openRec := none
        stage := .idle
        catalog := s.dec.catalog ++ [⟨r.kind, r.markByte, r.offset, (w :: ws).length,
          if demod hi ++ demod lo = ((w :: ws).map demod).foldl crcUpd s.dec.crc then .ok else .bad,
          s.dec.curCyl, s.dec.curSide, s.dec.curSector⟩] }
      result := 0x00 } := by
  have hdata := runInstrs_dataBytes ha (by omega) hs ((Nat.zero_add _).trans hlen)
  have hact := (dataRead_dstate ((w :: ws).map demod) (.readDataCrc 0) s).trans ha
  have hroom : (dataRead ((w :: ws).map demod) (.readDataCrc 0) s).dec.trackLen + 2 ≤ s.cfg.bytesCap := by
    rw [dataRead_trackLen, List.length_map]
    exact room
  have hrec := (dataRead_openRec ((w :: ws).map demod) (.readDataCrc 0) s).trans hr
  have hcap := (congrArg List.length (dataRead_catalog ((w :: ws).map demod) (.readDataCrc 0) s)).trans_lt hcat
  have hcrc := runInstrs_dataCrc (hi := hi) (lo := lo) rfl rfl hact hroom rfl hrec hcap
  rw [List.map_append]
  refine ((runInstrs_append hdata).trans hcrc).trans ?_
  rw [dataRead_catalog, dataRead_sectorLength, ← hlen]
  simp only [dataRead, checkedBytes, List.map_append, fieldBytes_append, fieldBytes_curCyl, fieldBytes_curSide,
    fieldBytes_curSector]
  rfl

end

/-- Settles O43: the registers and the record are those of the whole field, and the track is that of a run of
field bytes. -/
theorem wholeDataFieldRecorded : Obligations.WholeDataFieldRecorded := by
  intro data hi lo r s ha hs hr hlen room hcat crc
  cases data with
  | nil => exact absurd hlen (Nat.ne_of_lt (sectorLength_pos s.dec))
  | cons w ws =>
    have hall : s.dec.trackLen + (w :: ws).length + 2 =
        s.dec.trackLen + ((w :: ws ++ [hi, lo]).map demod).length := by
      simp only [List.length_map, List.length_append, List.length_cons, List.length_nil]
      omega
    refine ⟨_, runInstrs_dataField ha hs hr hlen room hcat, ?_, fun n => ⟨?_, ?_⟩⟩
    · rw [hall, List.cons_append, List.map_cons, fieldBytes_eq]
      rfl
    · rw [hall]
      exact trackRead_fieldBytes ((w :: ws ++ [hi, lo]).map demod) s.dec n
    · rw [hall]
      exact syncRead_fieldBytes ((w :: ws ++ [hi, lo]).map demod) s.dec n

/-! ### The end of the track (R155, R157) -/

/-- Settles O48: DEC_END truncates what is open, and an Idle decoder has nothing to truncate. -/
theorem decEndResult : Obligations.DecEndResult := by
  intro s r ha
  refine ⟨fun hs => ?_, fun hs hopen => ?_⟩
  · exact decoderCommand_ok (op := endTrack) ha (endTrack_ok.2 ⟨_, truncateOpen_idle hs, rfl⟩)
  · refine (decoderCommand_ok (op := endTrack) ha (endTrack_ok.2 ⟨_, truncateOpen_eq hopen, rfl⟩)).trans ?_
    rw [truncated, if_neg hs]
    rfl

end Sys2Proof.Machine

/-! # Scope: recovery and the Amiga path: the rewrite below a recovered mark, the header and the data region -/

namespace Sys2Proof.Machine

open Sys2Proof.Config

/-! ### The recovery rewrite and the mark above it (44_recovery_amiga.md R171, R172)

The rewrite changes the memory alone, and a mark neither reads nor writes the memory, so the mark acts on the
rewritten track as it does on the track as it stood. -/

/-- The decoder with another byte memory and other sync bits. -/
def withMemory (bytes : Memory) (syncBits : SyncMap) (d : Decoder) : Decoder :=
  { d with bytes := bytes, syncBits := syncBits }

/-- The recovery rewrite changes the memory only (R172). -/
theorem recoverRewrite_eq_withMemory (p : Nat) (d : Decoder) :
    recoverRewrite p d = withMemory (recoverRewrite p d).bytes (recoverRewrite p d).syncBits d := by
  have walk (qs : List Nat) (e : Decoder) : qs.foldl (recoverRewriteAt p) e =
      withMemory (qs.foldl (recoverRewriteAt p) e).bytes (qs.foldl (recoverRewriteAt p) e).syncBits e := by
    induction qs generalizing e with
    | nil => rfl
    | cons q qs ih =>
      have rest := ih (recoverRewriteAt p e q)
      have first : recoverRewriteAt p e q =
          withMemory (recoverRewriteAt p e q).bytes (recoverRewriteAt p e q).syncBits e := by
        unfold recoverRewriteAt
        split <;> exact trackRewrite_eq _ _ _ e
      rw [first] at rest
      rw [List.foldl_cons, first]
      exact rest
  exact walk _ d

section

variable {c : Params} {p : Nat} {v : Byte} {d e : Decoder} {bytes : Memory} {syncBits : SyncMap}

/-- A mark neither reads nor writes the memory (R142 to R153). -/
theorem runMark_withMemory {f : MarkForm} (hcat : d.catalog.length < c.catalogCap)
    (hm : runMark c f p d = .ok e) :
    runMark c f p (withMemory bytes syncBits d) = .ok (withMemory bytes syncBits e) := by
  cases f with
  | idamFc | idamFd | idamFe =>
    cases hm
    rfl
  | unknown v =>
    cases (runMark_unknown hcat).symm.trans hm
    exact runMark_unknown hcat
  | dam v =>
    cases hlen : d.lenKnown with
    | true =>
      cases (runMark_dam_known hlen).symm.trans hm
      exact runMark_dam_known hlen
    | false =>
      cases (runMark_dam_displaced hlen hcat).symm.trans hm
      exact runMark_dam_displaced hlen hcat

/-- A byte of the class, met while no field is open and not after three A1s, is a mark above a track that has
been rewritten (R170, R171). -/
theorem consume_of_recover (hs : d.stage = .idle) (hrec : d.recover = true) (h3 : d.a1 ≠ 3) (hv : plausibleMark v)
    (hcat : d.catalog.length < c.catalogCap)
    (hm : runMark c (classifyMark v) p { d with crc := crcRecoverSeed } = .ok e) :
    consume c v p d = .ok
      { withMemory (recoverRewrite p d).bytes (recoverRewrite p d).syncBits e with a1 := 0 } := by
  have hclass : (d.recover && inMarkRange v) = true := by rw [hrec, (inMarkRange_iff v).2 hv]; rfl
  have hmark : recoverMark c v p d =
      .ok (withMemory (recoverRewrite p d).bytes (recoverRewrite p d).syncBits e) := by
    rw [recoverMark, markByte, recoverRewrite_eq_withMemory]
    exact runMark_withMemory (d := { d with crc := crcRecoverSeed }) hcat hm
  rw [consume_of_idle hs, consumeIdle, idleByte, if_neg (c := d.a1 = a1Run) h3, if_pos hclass, hmark]
  rfl

end

/-- What the track reads as when the byte `v` has been appended and the bytes below it rewritten (R172). -/
theorem recoverRewrite_withNewByte (v : Byte) (k : LastKind) (d : Decoder) (n : Nat) :
    trackRead (recoverRewrite d.trackLen (withNewByte v false k d)) n =
        (if n = d.trackLen then v
        else if max d.fieldEnd (d.trackLen - 16) ≤ n ∧ n < d.trackLen then
          (if d.trackLen - 3 ≤ n then 0xA1 else 0x00)
        else trackRead d n) ∧
      syncRead (recoverRewrite d.trackLen (withNewByte v false k d)) n =
        (if n = d.trackLen then false
        else if max d.fieldEnd (d.trackLen - 16) ≤ n ∧ n < d.trackLen then decide (d.trackLen - 3 ≤ n)
        else syncRead d n) := by
  obtain ⟨-, -, reads⟩ :=
    recoverRewrite_spec d.trackLen (withNewByte v false k d) (Nat.le_succ d.trackLen)
  have hbyte : trackRead (withNewByte v false k d) n = if n = d.trackLen then v else trackRead d n :=
    trackRead_append v false d n
  have hsync : syncRead (withNewByte v false k d) n = if n = d.trackLen then false else syncRead d n :=
    syncRead_append v false d n
  have hfloor : recoverFloor d.trackLen (withNewByte v false k d) = max d.fieldEnd (d.trackLen - 16) := rfl
  rw [(reads n).1, (reads n).2, hbyte, hsync, hfloor]
  by_cases hn : n = d.trackLen
  · have above : ¬ (max d.fieldEnd (d.trackLen - 16) ≤ n ∧ n < d.trackLen) := by omega
    simp only [if_neg above, if_pos hn, and_self]
  · simp only [if_neg hn, and_true]
    rfl

/-- Settles O39: the mark takes effect on the reseeded decoder whatever the memory holds, and the rewrite gives
the memory. -/
theorem recoveryRebuildsSync : Obligations.RecoveryRebuildsSync := by
  intro w i s ha hrec hs h3 hv hi room hcat
  obtain rfl : (classifyMark (demod w)).instr = i := Except.ok.inj hi
  obtain ⟨e, he, hrestart⟩ := runMark_of_room
    (d := { withNewByte (demod w) false .data s.dec with crc := crcRecoverSeed }) hcat
    (classifyMark (demod w)) s.dec.trackLen
  have hmark := exec_mark_of_runMark
    (s := { s with dec := { appendedByte (demod w) false .data s.dec with crc := 0xCDB4 } }) ha hrestart
  have hconsume := consume_of_recover (d := withNewByte (demod w) false .data s.dec) hs hrec h3 hv hcat he
  exact ⟨_, _, execDataWindow_of_consume ha room hconsume, rfl, hmark, rfl,
    recoverRewrite_withNewByte (demod w) .data s.dec⟩

/-! ### The Amiga trigger and the header region (44_recovery_amiga.md R174, R175) -/

/-- AMIGA_TRIGGER_CLASS as a proposition (R74). -/
theorem inAmigaTriggerClass_iff (c : Params) (v : Byte) :
    inAmigaTriggerClass c v = true ↔ c.amigaTriggerAny = true ∨ ¬ plausibleMark v := by
  rw [inAmigaTriggerClass, Bool.or_eq_true, Bool.not_eq_true', ← inMarkRange_iff, Bool.not_eq_true]

/-- Outside recover mode a byte of the class after exactly two A1s starts a header region (R141, R174). -/
theorem consume_of_amigaTrigger {c : Params} {v : Byte} {p : Nat} {d : Decoder} (hs : d.stage = .idle)
    (hrec : d.recover = false) (h2 : d.a1 = 2) (hv : c.amigaTriggerAny = true ∨ ¬ plausibleMark v) :
    consume c v p d = .ok { amigaStart v p d with a1 := 0 } := by
  have hmark : ¬ d.a1 = a1Run := by rw [h2]; decide
  have hrecover : ¬ (d.recover && inMarkRange v) = true := by rw [hrec]; exact Bool.false_ne_true
  have htrigger : (!d.recover && decide (d.a1 = amigaRun) && inAmigaTriggerClass c v) = true := by
    rw [hrec, h2, (inAmigaTriggerClass_iff c v).2 hv]
    rfl
  rw [consume_of_idle hs, consumeIdle, idleByte, if_neg hmark, if_neg hrecover, if_pos htrigger]
  rfl

/-- A byte that arrives in the header region is part of it (R140, R175). -/
theorem consume_of_amigaHeader {c : Params} {k : Fin amigaHdrLen} {v : Byte} {p : Nat} {d : Decoder}
    (hs : d.stage = .amigaHeader k) :
    consume c v p d = amigaHeaderByte c k v { d with fieldEnd := p + 1 } := by
  simp only [consume, hs]

/-- A byte of the header region but the last is buffered at its place (R175). -/
theorem amigaHeaderByte_buffers (c : Params) (k : Fin 21) (v : Byte) (d : Decoder) :
    amigaHeaderByte c k.castSucc v d =
      .ok { d with hBuf := d.hBuf.set k.castSucc.val v k.castSucc.isLt, stage := .amigaHeader k.succ } :=
  dif_pos (Nat.succ_lt_succ k.isLt)

/-- The last byte of the header region completes it (R175, R176). -/
theorem amigaHeaderByte_completes (c : Params) (v : Byte) (d : Decoder) :
    amigaHeaderByte c 21 v d = headerDone c { d with hBuf := d.hBuf.set 21 v } := by
  rw [amigaHeaderByte]
  exact dif_neg (show ¬ (21 : Fin amigaHdrLen).val + 1 < amigaHdrLen by decide)

/-- Settles O44: the byte that starts the region, and the bytes of it that are buffered. -/
theorem amigaHeaderBytes : Obligations.AmigaHeaderBytes := by
  intro w s ha room
  generalize hv : demod w = v
  refine ⟨fun hrec hs h2 hclass => ?_, fun k hs => ?_⟩
  · exact execDataWindow_of_byte hv ha room
      (consume_of_amigaTrigger (d := withNewByte v false .data s.dec) hs hrec h2 hclass)
  · exact execDataWindow_of_byte hv ha room
      ((consume_of_amigaHeader (d := withNewByte v false .data s.dec) hs).trans (amigaHeaderByte_buffers _ k v _))

/-! ### The info word (R176) -/

/-- Settles O45: the info word interleaves the planes that the first four bytes hold; its fields are bytes. -/
theorem amigaInfoWordBits : Obligations.AmigaInfoWordBits := by
  refine ⟨fun h n => ?_, fun info => rfl, by decide, by decide⟩
  exact interleave_getLsbD (bytePair h[0] h[1]) (bytePair h[2] h[3]) n.isLt

/-! ### The complete header (R177 to R181) -/

/-- The fold of a list from index `i` on takes in the word there (R179). -/
theorem xorFold_drop {l : List Byte} {i : Nat} (h : i + 1 < l.length) :
    xorFold (l.drop i) = bytePair l[i] l[i + 1] ^^^ xorFold (l.drop (i + 2)) := by
  rw [List.drop_eq_getElem_cons (by omega), List.drop_eq_getElem_cons h]
  rfl

/-- The fold of a header is the exclusive or of its eleven words (R179). -/
theorem xorFold_header (h : Vector Byte 22) : xorFold h.toList =
    ((h[0] ++ h[1]) ^^^ (h[2] ++ h[3]) ^^^ (h[4] ++ h[5]) ^^^ (h[6] ++ h[7]) ^^^
      (h[8] ++ h[9]) ^^^ (h[10] ++ h[11]) ^^^ (h[12] ++ h[13]) ^^^ (h[14] ++ h[15]) ^^^
      (h[16] ++ h[17]) ^^^ (h[18] ++ h[19]) ^^^ (h[20] ++ h[21]) : Half) := by
  have word (i : Nat) (hi : i + 1 < 22 := by decide) :
      xorFold (h.toList.drop i) = bytePair h[i] h[i + 1] ^^^ xorFold (h.toList.drop (i + 2)) := by
    rw [xorFold_drop (by rw [Vector.length_toList]; exact hi)]
    rfl
  have hend : xorFold (h.toList.drop 22) = 0#16 := by
    rw [List.drop_of_length_le h.length_toList.le]
    rfl
  rw [← List.drop_zero (l := h.toList), word 0, word 2, word 4, word 6, word 8, word 10, word 12, word 14,
    word 16, word 18, word 20, hend]
  simp only [bytePair, BitVec.xor_assoc, BitVec.xor_zero]

/-- The plausibility check as a proposition (R177). -/
theorem amigaPlausible_iff (c : Params) (i : AmigaInfo) : amigaPlausible c i = true ↔
    i.fmt = c.amigaFormatMark ∧ i.cyl.toNat ≤ c.amigaMaxCyl ∧ i.sec.toNat ≤ c.amigaMaxSector := by
  simp only [amigaPlausible, Bool.and_eq_true, decide_eq_true_eq, and_assoc]

section

variable {c : Params} {d : Decoder}

/-- An implausible header is abandoned (R177). -/
theorem headerDone_abandons (h : ¬ amigaPlausible c (amigaInfo (infoWord d.hBuf)) = true) :
    headerDone c d = .ok { d with stage := .idle } := if_neg h

/-- A plausible header is latched and recorded, and the data region opens (R179 to R181). -/
theorem headerDone_records (h : amigaPlausible c (amigaInfo (infoWord d.hBuf)) = true)
    (hcat : d.catalog.length < c.catalogCap) :
    headerDone c d =
      let i := amigaInfo (infoWord d.hBuf)
      .ok { d with
        curCyl := i.cyl
        curSide := i.side
        curSector := i.sec
        catalog := d.catalog ++ [⟨.idField, i.fmt, d.hOff, 22, foldVerdict (xorFold d.hBuf.toList),
          i.cyl, i.side, i.sec⟩]
        openRec := some ⟨.dataField, i.fmt, d.hOff + 22⟩
        fold := 0
        stage := .amigaData 0 } :=
  (if_pos h).trans (bind_ok.2 ⟨_, close_ok.2 ⟨Nat.ne_of_lt hcat, rfl⟩, rfl⟩)

end

/-- DATA_WINDOW on the last byte of the header region, by what the complete header does (R175). -/
theorem exec_dataWindow_headerDone {w : Half} {v : Byte} {s : State} {e : Decoder} (hv : demod w = v)
    (ha : s.dec.dstate = .active) (room : s.dec.trackLen < s.cfg.bytesCap) (hs : s.dec.stage = .amigaHeader 21)
    (he : headerDone s.cfg { withNewByte v false .data s.dec with
      fieldEnd := s.dec.trackLen + 1, hBuf := s.dec.hBuf.set 21 v } = .ok e) :
    exec (.dataWindow w) s = .next { s with dec := restart e, result := 0x00 } :=
  execDataWindow_of_byte hv ha room <|
    (consume_of_amigaHeader (d := withNewByte v false .data s.dec) hs).trans
      ((amigaHeaderByte_completes s.cfg v _).trans he)

/-- Settles O46: the two outcomes of a complete header. -/
theorem amigaHeaderDone : Obligations.AmigaHeaderDone := by
  intro w s ha room hs
  generalize hv : demod w = v
  intro h i kept
  have hkept : amigaPlausible s.cfg i = true ↔ kept := amigaPlausible_iff s.cfg i
  refine ⟨fun hnot => ?_, fun hyes hcat => ?_⟩
  · exact exec_dataWindow_headerDone hv ha room hs (headerDone_abandons (hkept.not.2 hnot))
  · rw [exec_dataWindow_headerDone hv ha room hs (headerDone_records (hkept.2 hyes) hcat), xorFold_header]
    rfl

/-! ### The data region (R182) -/

/-- The running fold takes a byte in as the high or the low half of a word (R182). -/
theorem foldByte_eq (k : Nat) (v : Byte) (f : Half) :
    foldByte k v f = f ^^^ (if k % 2 = 0 then v ++ (0 : Byte) else (0 : Byte) ++ v : Half) := by
  have high : v.setWidth 16 <<< 8 = v ++ (0 : Byte) := by
    rw [BitVec.append_def, BitVec.shiftLeftZeroExtend_eq]
    exact BitVec.or_zero.symm
  have low : v.setWidth 16 = (0 : Byte) ++ v := BitVec.setWidth_eq_append (by decide)
  rw [foldByte, high, low]
  split <;> rfl

/-- A byte that arrives in the data region is part of it (R140, R182). -/
theorem consume_of_amigaData {c : Params} {k : Fin amigaDataLen} {v : Byte} {p : Nat} {d : Decoder}
    (hs : d.stage = .amigaData k) :
    consume c v p d = amigaDataByte c k v { d with fieldEnd := p + 1 } := by
  simp only [consume, hs]

/-- A byte of the data region but the last is folded in (R182). -/
theorem amigaDataByte_folds {c : Params} {k : Fin 512} {v : Byte} {d : Decoder} (hk : k.val + 1 < 512) :
    amigaDataByte c k v d =
      .ok { d with fold := foldByte k.val v d.fold, stage := .amigaData ⟨k.val + 1, hk⟩ } := dif_pos hk

/-- The last byte of the data region closes the record with the fold's verdict (R182, R154). -/
theorem amigaDataByte_closes {c : Params} {k : Fin 512} {v : Byte} {d : Decoder} {r : OpenRec} (hk : k.val = 511)
    (hr : d.openRec = some r) (hcat : d.catalog.length < c.catalogCap) :
    amigaDataByte c k v d = .ok { d with
      fold := foldByte k.val v d.fold
      catalog := d.catalog ++ [⟨r.kind, r.markByte, r.offset, 512, foldVerdict (foldByte k.val v d.fold),
        d.curCyl, d.curSide, d.curSector⟩]
      openRec := none
      stage := .idle } := by
  have hlast : ¬ k.val + 1 < amigaDataLen := by rw [hk]; decide
  have hrec : openRecord { d with fold := foldByte k.val v d.fold } = r := openRecord_some hr
  refine (dif_neg hlast).trans (closeIdle_ok.2 ⟨Nat.ne_of_lt hcat, ?_⟩)
  rw [closedRecord, hrec]

/-- Settles O47: a byte is folded in, and the last closes the record with the fold's verdict. -/
theorem amigaDataBytes : Obligations.AmigaDataBytes := by
  intro w k s ha room hs
  generalize hv : demod w = v
  intro fold
  have hfold : foldByte k.val v s.dec.fold = fold := foldByte_eq k.val v s.dec.fold
  have hconsume := consume_of_amigaData (c := s.cfg) (v := v) (p := s.dec.trackLen)
    (d := withNewByte v false .data s.dec) hs
  refine ⟨fun hk => ?_, fun r hk hr hcat => ?_⟩
  · rw [execDataWindow_of_byte hv ha room (hconsume.trans (amigaDataByte_folds hk)), ← hfold]
    rfl
  · rw [execDataWindow_of_byte hv ha room (hconsume.trans (amigaDataByte_closes hk hr hcat)), ← hfold]
    rfl

end Sys2Proof.Machine

/-! # Scope: the remodulator: the commands of the encoder, its table, and the track that is read back -/

namespace Sys2Proof.Machine

open Sys2Proof.Config

/-! ### ENC_START and ENC_BYTE (45_remodulator.md R191, R193) -/

theorem exec_encStart (p : Bool) (s : State) :
    exec (.encStart p) s = .next { s with prev := p, cw := 0x0000, result := 0x00 } := rfl

/-- Settles O15: ENC_START writes its operand to prev, and words with a bit above it are refused. -/
theorem encStartResult : Obligations.EncStartResult := by
  obtain ⟨-, -, -, -, -, -, -, -, -, -, encoding, -⟩ := commandEncodings
  exact ⟨encoding, exec_encStart, fun w hop =>
    decodeCommand_reserved (f := .encStart) (by simp [commandFields]) hop⟩

/-- The codeword of ENC_BYTE's operand, by R193's chain of cases. -/
theorem codeword_classifyEnc (v : Byte) (y p : Bool) :
    codeword (classifyEnc v y) p =
      if y = true ∧ v = 0xA1 then 0x9122
      else if y = true ∧ v = 0xC2 then 0x244A
      else if p = true then encTable v &&& 0xFFFE else encTable v := by
  rw [classifyEnc, apply_ite (codeword · p), apply_ite (codeword · p)]
  rfl

/-- Settles O16: ENC_BYTE emits the codeword that its operand selects. -/
theorem encByteResult : Obligations.EncByteResult := by
  obtain ⟨-, -, -, -, -, -, -, -, -, -, -, encoding, -⟩ := commandEncodings
  refine ⟨encoding, fun v y s => ?_, fun w hop =>
    decodeCommand_reserved (f := .encByte) (by simp [commandFields]) hop⟩
  rw [← codeword_classifyEnc, exec_encByte]
  exact exec_selection_eq (classifyEnc v y) s rfl

/-! ### ENC_TABLE (R190) -/

/-- Settles O18: the first clock bit comes after a 0, and every other between two data bits of the byte. -/
theorem encTableClockRule : Obligations.EncTableClockRule := by
  refine ⟨fun b k => ⟨encTable_dataBit b k.isLt, ?_⟩, by decide, by decide, by decide, by decide, by decide,
    by decide, by decide, by decide, by decide, by decide⟩
  match k with
  | ⟨0, _⟩ => exact encTable_firstClock b
  | ⟨k + 1, hk⟩ =>
    have before : 8 - (k + 1) = 7 - k := by omega
    have own : 7 - (k + 1) = 6 - k := by omega
    show (encTable b).getLsbD (2 * k + 2) =
      (!(if k + 1 = 0 then false else b.getLsbD (8 - (k + 1))) && !b.getLsbD (7 - (k + 1)))
    rw [if_neg (Nat.succ_ne_zero k), before, own, encTable_clockBit b (Nat.succ_lt_succ_iff.1 hk)]

/-! ### The channel bits of codewords (20_memory.md R56, R57) -/

/-- The channel bits of one codeword, in time order. -/
def codewordBits (w : Half) : List Bool := (List.range 16).map w.getLsbD

@[simp] theorem length_codewordBits (w : Half) : (codewordBits w).length = 16 := by
  simp [codewordBits]

@[simp] theorem channelStream_nil : channelStream [] = [] := rfl

@[simp] theorem channelStream_cons (w : Half) (ws : List Half) :
    channelStream (w :: ws) = codewordBits w ++ channelStream ws := rfl

/-! ### No two adjacent 1 bits (R196, R72, R192) -/

/-- No two bits that follow one another in the stream are both 1; `p` is the bit before the stream. -/
abbrev OnesApart (p : Bool) (bits : List Bool) : Prop :=
  (p :: bits).IsChain fun a b => ¬ (a = true ∧ b = true)

/-- A stream under the clock rule, up to the end of a data bit: a clock bit 1 stands between data bits 0. -/
theorem FollowsClockRule.onesApart {p : Bool} {bits : List Bool} (h : FollowsClockRule p bits)
    (heven : bits.length % 2 = 0) : OnesApart p bits := by
  induction p, bits using FollowsClockRule.induct with
  | case1 p c d rest ih =>
    obtain ⟨rfl, hrest⟩ := h
    have later : OnesApart d rest := ih hrest (by simpa [Nat.add_assoc] using heven)
    have clockData : ¬ ((!p && !d) = true ∧ d = true) := by cases d <;> simp
    have dataClock : ¬ (p = true ∧ (!p && !d) = true) := by cases p <;> simp
    exact List.isChain_cons_cons.2 ⟨dataClock, List.isChain_cons_cons.2 ⟨clockData, later⟩⟩
  | case2 bits p hshort =>
    match bits with
    | [] => exact List.isChain_singleton p
    | [c] => simp at heven
    | c :: d :: rest => exact absurd rfl (hshort c d rest)

/-- A codeword has no two adjacent 1 bits, nor one after the previous bit (R72, R192). -/
theorem onesApart_codeword (f : EncForm) (p : Bool) : OnesApart p (codewordBits (codeword f p)) := by
  cases f with
  | syncA1 => cases p <;> decide
  | syncC2 => cases p <;> decide
  | data v y =>
    have rule := followsClockRule_codeword v y p (bits := []) trivial
    rw [List.append_nil] at rule
    exact rule.onesApart (by simp)

/-- A codeword and a stream that goes on from its last bit. -/
theorem OnesApart.codeword_append {p : Bool} {w : Half} {bits : List Bool} (h : OnesApart p (codewordBits w))
    (hbits : OnesApart (w.getLsbD 15) bits) : OnesApart p (codewordBits w ++ bits) := by
  have hsplit : codewordBits w = (List.range 15).map w.getLsbD ++ [w.getLsbD 15] := rfl
  rw [OnesApart, hsplit, ← List.cons_append] at h
  rw [OnesApart, hsplit, List.append_assoc, ← List.cons_append]
  exact List.isChain_split.2 ⟨h, hbits⟩

theorem onesApart_channelStream (l : List (Byte × Bool)) (s : State) :
    OnesApart s.prev (channelStream (encodeRun l s)) := by
  induction l generalizing s with
  | nil => exact List.isChain_singleton s.prev
  | cons x l ih =>
    obtain ⟨t, ht, hrun⟩ := encodeRun_cons x.1 x.2 l s
    rw [hrun, channelStream_cons]
    exact (onesApart_codeword (classifyEnc x.1 x.2) s.prev).codeword_append (ht ▸ ih t)

/-- The bits by index; beyond the stream they read as 0. -/
theorem OnesApart.getD {p : Bool} {bits : List Bool} (h : OnesApart p bits) (n : Nat) :
    ¬ ((p :: bits).getD n false = true ∧ bits.getD n false = true) := by
  by_cases hn : n < bits.length
  · have pair := List.isChain_iff_getElem.1 h n (by simpa using hn)
    rwa [List.getElem_cons_succ, ← List.getD_eq_getElem _ false, ← List.getD_eq_getElem _ false] at pair
  · rw [List.getD_eq_default bits false (Nat.le_of_not_lt hn)]
    simp

/-- Settles O20: adjacent bits of the stream are apart, and its first is apart from prev. -/
theorem encodedTrackHasNoAdjacentOnes : Obligations.EncodedTrackHasNoAdjacentOnes := by
  intro l s o
  have apart := onesApart_channelStream l s
  exact ⟨apart.getD (o + 1), fun hp => Bool.eq_false_iff.2 fun h0 => apart.getD 0 ⟨hp, h0⟩⟩

end Sys2Proof.Machine

/-! # Scope: the remodulator: the encoded track decoded in phase -/

namespace Sys2Proof.Machine

open Sys2Proof.Config

/-! ### The bytes of a codeword (20_memory.md R57) -/

theorem codewordBits_eq (w : Half) :
    codewordBits w = channelBits (w.setWidth 8) ++ channelBits ((w >>> 8).setWidth 8) := by
  refine List.ext_getElem (by simp) fun i hi _ => ?_
  rw [length_codewordBits] at hi
  rw [List.getElem_append]
  by_cases h : i < 8
  · simp [codewordBits, channelBits, h]
  · have hsub : i - 8 < 8 := by omega
    have hadd : 8 + (i - 8) = i := by omega
    simp [codewordBits, channelBits, h, hsub, hadd]

/-- Laid out in bytes, codewords give the channel stream they stand for. -/
theorem channelBits_serialized (ws : List Half) :
    (ws.flatMap serializeCodeword).flatMap channelBits = channelStream ws := by
  induction ws with
  | nil => rfl
  | cons w ws ih =>
    rw [List.flatMap_cons, List.flatMap_append, ih, channelStream_cons, codewordBits_eq]
    simp [serializeCodeword]

theorem shiftBits_append (bs cs : List Bool) (w : Half) :
    shiftBits (bs ++ cs) w = shiftBits cs (shiftBits bs w) := List.foldl_append

/-- A codeword's bits leave it in the window. -/
theorem shiftBits_codewordBits (w u : Half) : shiftBits (codewordBits w) u = w := by
  rw [codewordBits_eq, shiftBits_append, shiftBits_bytes]

/-- Once 16 bits are shifted in, the window is the one over the newest 16 bits of the stream. -/
theorem shiftBits_eq_windowAt {bits : List Bool} (h : 16 ≤ bits.length) (u : Half) :
    shiftBits bits u = windowAt bits (bits.length - 16) := by
  refine BitVec.eq_of_getLsbD_eq fun i hi => ?_
  rw [shiftBits_getLsbD _ _ hi, windowAt_getLsbD _ _ hi, if_neg (by omega), Nat.add_comm i, Nat.sub_add_comm h]

/-! ### Several bytes of channel bits (41_demodulator.md R107) -/

theorem stepBits_append_ok {c : Params} {bs cs : List Bool} {d e : Decoder} :
    stepBits c (bs ++ cs) d = .ok e ↔ ∃ g, stepBits c bs d = .ok g ∧ stepBits c cs g = .ok e := by
  induction bs generalizing d with
  | nil => simp [stepBits]
  | cons b bs ih =>
    rw [List.cons_append, stepBits_cons_ok]
    simp only [ih, stepBits_cons_ok]
    constructor
    · rintro ⟨f, hf, g, hg, he⟩
      exact ⟨g, ⟨f, hf, hg⟩, he⟩
    · rintro ⟨g, ⟨f, hf, hg⟩, he⟩
      exact ⟨f, hf, g, hg, he⟩

/-- DEC_BYTEs whose bits the decoder takes one by one all take effect. -/
theorem runInstrs_decBytes {xs : List Byte} {s : State} {d : Decoder} (ha : s.dec.dstate = .active)
    (hr : s.result = okCode) (h : stepBits s.cfg (xs.flatMap channelBits) s.dec = .ok d) :
    runInstrs (xs.map .decByte) s = .next (accept { s with dec := d }) := by
  induction xs generalizing s with
  | nil =>
    obtain rfl : s.dec = d := Except.ok.inj h
    exact congrArg _ (by rw [accept, ← hr])
  | cons x xs ih =>
    obtain ⟨g, hg, hd⟩ := stepBits_append_ok.1 h
    have hactive := ((stepBits_completes s.cfg (channelBits x) s.dec).post_of_ok hg).dstate.trans ha
    rw [List.map_cons, runInstrs_cons (exec_decByte_ok ha hg)]
    exact ih (s := accept { s with dec := g }) hactive rfl hd

/-! ### A data codeword on the decoder's boundary (41_demodulator.md R103 to R109) -/

theorem FollowsClockRule.of_append {p : Bool} {bs cs : List Bool} (h : FollowsClockRule p (bs ++ cs)) :
    FollowsClockRule p bs := by
  induction p, bs using FollowsClockRule.induct with
  | case1 p c d rest ih =>
    obtain ⟨hc, hrest⟩ := h
    exact ⟨hc, ih hrest⟩
  | case2 bits p hshort =>
    match bits with
    | [] | [c] => trivial
    | c :: d :: rest => exact absurd rfl (hshort c d rest)

/-- The decoder has taken these channel bits since DEC_START (R20, R23). -/
structure HasTaken (bits : List Bool) (d : Decoder) : Prop where
  pos : d.pos = bits.length
  window : d.window = shiftBits bits 0

theorem HasTaken.shiftIn {bits : List Bool} {d : Decoder} (h : HasTaken bits d) (b : Bool) :
    HasTaken (bits ++ [b]) (shiftIn b d) where
  pos := by rw [shiftIn_pos, h.pos, List.length_append, List.length_singleton]
  window := by rw [shiftBits_append, ← h.window]; rfl

/-- The window of a decoder that has taken 16 bits or more (R102). -/
theorem HasTaken.window_eq {bits : List Bool} {d : Decoder} (h : HasTaken bits d) (hlen : 16 ≤ bits.length) :
    d.window = windowAt bits (bits.length - 16) :=
  h.window.trans (shiftBits_eq_windowAt hlen 0)

/-- A stream of data codewords holds no A1 window (R77): it misses the clock bit 10, or at an odd offset bit 3. -/
theorem FollowsClockRule.windowAt_ne_a1 {p : Bool} {bits : List Bool} (rule : FollowsClockRule p bits) {o : Nat}
    (hlen : o + 16 ≤ bits.length) : windowAt bits o ≠ syncA1Win := by
  rcases Nat.mod_two_eq_zero_or_one o with heven | hodd
  · exact rule.window_ne hlen (i := 9) (by decide) (by omega) (by decide)
  · exact rule.window_ne hlen (i := 2) (by decide) (by omega) (by decide)

/-- Nor a C2 window at an even offset (R120): it misses the clock bit 8. -/
theorem FollowsClockRule.windowAt_ne_c2 {p : Bool} {bits : List Bool} (rule : FollowsClockRule p bits) {o : Nat}
    (heven : o % 2 = 0) (hlen : o + 16 ≤ bits.length) : windowAt bits o ≠ markC2Win :=
  rule.window_ne hlen (i := 7) (by decide) (by omega) (by decide)

theorem HasTaken.isA1_eq_false {p : Bool} {bits : List Bool} {d : Decoder} (h : HasTaken bits d)
    (rule : FollowsClockRule p bits) : isA1 d = false := by
  refine Bool.eq_false_iff.2 fun ha1 => ?_
  rw [isA1, Bool.and_eq_true, full_iff, decide_eq_true_iff, h.pos] at ha1
  obtain ⟨hlen, hwindow⟩ := ha1
  exact rule.windowAt_ne_a1 (by omega) ((h.window_eq hlen).symm.trans hwindow)

theorem HasTaken.isC2_eq_false {c : Params} {p : Bool} {bits : List Bool} {d : Decoder} (h : HasTaken bits d)
    (rule : FollowsClockRule p bits) (heven : bits.length % 2 = 0) : isC2 c d = false := by
  refine Bool.eq_false_iff.2 fun hc2 => ?_
  rw [isC2, Bool.and_eq_true, gapCheck_iff, decide_eq_true_iff, h.pos] at hc2
  obtain ⟨⟨hlen, -⟩, hwindow⟩ := hc2
  exact rule.windowAt_ne_c2 (by omega) (by omega) ((h.window_eq hlen).symm.trans hwindow)

/-- The decoder after channel bits that complete no form. -/
def countDown (bs : List Bool) (d : Decoder) : Decoder :=
  { d with window := shiftBits bs d.window, pos := d.pos + bs.length, cnt := d.cnt - bs.length }

theorem countDown_cons (b : Bool) (bs : List Bool) (d : Decoder) :
    countDown (b :: bs) d = countDown bs { shiftIn b d with cnt := d.cnt - 1 } := by
  have hpos : d.pos + (bs.length + 1) = d.pos + 1 + bs.length := by omega
  have hcnt : d.cnt - (bs.length + 1) = d.cnt - 1 - bs.length := by omega
  rw [countDown, List.length_cons, hpos, hcnt]
  rfl

/-- Off the boundary and outside preserve mode only an A1 is looked for (R104). -/
theorem recognize_offBoundary_eq_none {c : Params} {d : Decoder} (ha1 : isA1 d = false) (hcnt : d.cnt ≠ 1)
    (hp : d.preserve = false) : recognize c d = none := by
  have hdue : due d = false := decide_eq_false hcnt
  have hgap : gapCheck c d = false := by rw [gapCheck, hdue, hp, Bool.false_and, Bool.or_false, Bool.and_false]
  simp [recognize, ha1, isC2, is4E, hgap, hdue]

/-- Bits of a stream of data codewords that stay off the boundary only count down (R105). -/
theorem stepBits_offBoundary {c : Params} {p : Bool} {taken bs : List Bool} {d : Decoder} (h : HasTaken taken d)
    (rule : FollowsClockRule p (taken ++ bs)) (hcnt : bs.length < d.cnt) (hp : d.preserve = false) :
    stepBits c bs d = .ok (countDown bs d) := by
  induction bs generalizing taken d with
  | nil => rfl
  | cons b bs ih =>
    rw [List.length_cons] at hcnt
    rw [List.append_cons] at rule
    have first : stepBit c b d = .ok { shiftIn b d with cnt := d.cnt - 1 } :=
      stepBit_of_none (recognize_offBoundary_eq_none ((h.shiftIn b).isA1_eq_false rule.of_append)
        (by rw [shiftIn_cnt]; omega) hp)
    obtain ⟨hpos, hwindow⟩ := h.shiftIn b
    have later := ih (d := { shiftIn b d with cnt := d.cnt - 1 }) ⟨hpos, hwindow⟩ rule (Nat.lt_sub_of_add_lt hcnt) hp
    exact stepBits_cons_ok.2 ⟨_, first, later.trans (congrArg _ (countDown_cons b bs d).symm)⟩

/-- On the boundary, a window that is no A1 and no C2 is demodulated, the gap pattern like any other (R109,
R111). -/
theorem recognize_onBoundary {c : Params} {d : Decoder} (ha1 : isA1 d = false) (hc2 : isC2 c d = false)
    (hcnt : d.cnt = 1) :
    ∃ f, recognize c d = some f ∧ runWindow c f d = runWindow c (.dataWindow d.window) d := by
  have hdue : due d = true := decide_eq_true hcnt
  by_cases h4E : is4E c d = true
  · obtain ⟨-, hwindow⟩ : gapCheck c d = true ∧ d.window = gap4EWin := by
      rwa [is4E, Bool.and_eq_true, decide_eq_true_iff] at h4E
    exact ⟨.gap4E, by simp [recognize, ha1, hc2, h4E], by rw [hwindow]; rfl⟩
  · exact ⟨.dataWindow d.window, by simp [recognize, ha1, hc2, h4E, hdue], rfl⟩

/-- The decoder when the last bit of a codeword has been shifted in and counted, on the boundary (R103). -/
def onBoundary (w : Half) (d : Decoder) : Decoder := { d with window := w, pos := d.pos + 16, cnt := 1 }

theorem shiftIn_countDown_codeword (w : Half) {d : Decoder} (hcnt : d.cnt = 16) :
    shiftIn (w.getLsbD 15) (countDown ((List.range 15).map w.getLsbD) d) = onBoundary w d := by
  have hwindow : shiftBits (codewordBits w) d.window = w := shiftBits_codewordBits w d.window
  calc shiftIn (w.getLsbD 15) (countDown ((List.range 15).map w.getLsbD) d)
      = { d with window := shiftBits (codewordBits w) d.window, pos := d.pos + 16, cnt := d.cnt - 15 } := rfl
    _ = onBoundary w d := by rw [hwindow, hcnt, onBoundary]

theorem HasTaken.onBoundary {bits : List Bool} {d : Decoder} (h : HasTaken bits d) (w : Half) :
    HasTaken (bits ++ codewordBits w) (onBoundary w d) where
  pos := by rw [List.length_append, length_codewordBits, ← h.pos]; rfl
  window := by rw [shiftBits_append, shiftBits_codewordBits]; rfl

/-! ### The encoded track, decoded (R196) -/

/-- The decoder, in normal mode and on the boundary, has decoded these bytes, and these channel bits, to no
record. -/
structure HasDecoded (vs : List Byte) (bits : List Bool) (d : Decoder) : Prop extends HasTaken bits d where
  dstate : d.dstate = .active
  recover : d.recover = false
  preserve : d.preserve = false
  stage : d.stage = .idle
  a1 : d.a1 = 0
  cnt : d.cnt = 16
  catalog : d.catalog = []
  trackLen : d.trackLen = vs.length
  byte : ∀ n, trackRead d n = vs.getD n 0
  sync : ∀ n, syncRead d n = false

theorem hasDecoded_start : HasDecoded [] [] (Decoder.start false false) where
  pos := rfl
  window := rfl
  dstate := rfl
  recover := rfl
  preserve := rfl
  stage := rfl
  a1 := rfl
  cnt := rfl
  catalog := rfl
  trackLen := rfl
  byte _ := rfl
  sync _ := rfl

/-- No byte has an effect on the parser when no A1 is before it (R141). -/
theorem HasDecoded.isGapByte {c : Params} {vs : List Byte} {bits : List Bool} {d : Decoder}
    (h : HasDecoded vs bits d) (v : Byte) : gapByte c v d := by
  refine ⟨h.stage, ?_, ?_, ?_⟩ <;> simp [h.a1, h.recover]

/-- The decoder after one more codeword. -/
def withCodeword (w : Half) (d : Decoder) : Decoder :=
  { appendedByte (demod w) false .data (onBoundary w d) with a1 := 0 }

theorem HasDecoded.withCodeword {vs : List Byte} {bits : List Bool} {d : Decoder} (h : HasDecoded vs bits d)
    (w : Half) : HasDecoded (vs ++ [demod w]) (bits ++ codewordBits w) (withCodeword w d) where
  pos := (h.onBoundary w).pos
  window := (h.onBoundary w).window
  dstate := h.dstate
  recover := h.recover
  preserve := h.preserve
  stage := h.stage
  a1 := rfl
  cnt := rfl
  catalog := h.catalog
  trackLen := by rw [List.length_append, ← h.trackLen]; rfl
  byte n := by
    refine (trackRead_append (demod w) false d n).trans ?_
    rw [h.byte, h.trackLen]
    rcases Nat.lt_trichotomy n vs.length with hlt | rfl | hgt
    · rw [if_neg hlt.ne, List.getD_append _ _ _ _ hlt]
    · simp
    · rw [if_neg hgt.ne', List.getD_eq_default _ _ hgt.le, List.getD_eq_default _ _ (by simp; omega)]
  sync n := by
    refine (syncRead_append (demod w) false d n).trans ?_
    rw [h.sync, ite_self]

/-- A codeword that goes on with a stream of data codewords is taken as a byte. -/
theorem stepBits_codeword {c : Params} {p : Bool} {vs : List Byte} {bits : List Bool} {w : Half} {d : Decoder}
    (h : HasDecoded vs bits d) (rule : FollowsClockRule p (bits ++ codewordBits w)) (heven : bits.length % 2 = 0)
    (room : d.trackLen < c.bytesCap) : stepBits c (codewordBits w) d = .ok (withCodeword w d) := by
  have hsplit : codewordBits w = (List.range 15).map w.getLsbD ++ [w.getLsbD 15] := rfl
  have taken := h.onBoundary w
  obtain ⟨f, hf, hrun⟩ := recognize_onBoundary (c := c) (taken.isA1_eq_false rule)
    (taken.isC2_eq_false rule (by rw [List.length_append, length_codewordBits]; omega)) rfl
  have consumed : consume c (demod w) d.trackLen (withNewByte (demod w) false .data (onBoundary w d)) =
      .ok { withNewByte (demod w) false .data (onBoundary w d) with a1 := 0 } :=
    consume_withNewByte_of_gap (h.isGapByte (demod w))
  have low : stepBits c ((List.range 15).map w.getLsbD) d = .ok (countDown ((List.range 15).map w.getLsbD) d) := by
    refine stepBits_offBoundary h.toHasTaken (p := p) ?_ (by simp [h.cnt]) h.preserve
    rw [hsplit, ← List.append_assoc] at rule
    exact rule.of_append
  have high : stepBit c (w.getLsbD 15) (countDown ((List.range 15).map w.getLsbD) d) = .ok (withCodeword w d) := by
    have hshift := shiftIn_countDown_codeword w h.cnt
    rw [← hshift] at hf
    rw [stepBit_of_some hf, hshift, hrun]
    exact runWindow_of_consume (d := onBoundary w d) room consumed
  rw [hsplit]
  exact stepBits_append_ok.2 ⟨_, low, stepBits_cons_ok.2 ⟨_, high, rfl⟩⟩

theorem demod_codeword_data (v : Byte) (y p : Bool) : demod (codeword (.data v y) p) = v :=
  demod_eq_of_dataBits fun k hk => by
    rw [codeword_data_getLsbD v y p (by omega), if_neg (by omega), encTable_dataBit v hk]

/-- The codewords of data bytes are decoded one after another. -/
theorem stepBits_channelStream {c : Params} {p : Bool} {l : List (Byte × Bool)} {s : State} {vs : List Byte}
    {bits : List Bool} {d : Decoder} (hl : ∀ x ∈ l, isEncData x.1 x.2 = true) (h : HasDecoded vs bits d)
    (rule : FollowsClockRule p (bits ++ channelStream (encodeRun l s))) (heven : bits.length % 2 = 0)
    (room : d.trackLen + l.length ≤ c.bytesCap) :
    ∃ e bits', stepBits c (channelStream (encodeRun l s)) d = .ok e ∧ HasDecoded (vs ++ l.map Prod.fst) bits' e := by
  induction l generalizing s vs bits d with
  | nil => exact ⟨d, bits, rfl, by rwa [List.map_nil, List.append_nil]⟩
  | cons x l ih =>
    obtain ⟨hx, hrest⟩ := List.forall_mem_cons.1 hl
    obtain ⟨t, -, hrun⟩ := encodeRun_cons x.1 x.2 l s
    rw [classifyEnc_data hx] at hrun
    rw [hrun, channelStream_cons, ← List.append_assoc] at rule
    rw [List.length_cons] at room
    have first := stepBits_codeword (c := c) h rule.of_append heven (by omega)
    have decoded := h.withCodeword (codeword (.data x.1 x.2) s.prev)
    rw [demod_codeword_data] at decoded
    obtain ⟨e, bits', hsteps, he⟩ := ih hrest decoded rule
      (by rw [List.length_append, length_codewordBits]; omega)
      (by rw [decoded.trackLen, List.length_append, ← h.trackLen, List.length_singleton]; omega)
    rw [List.append_assoc] at he
    refine ⟨e, bits', ?_, he⟩
    rw [hrun, channelStream_cons]
    exact stepBits_append_ok.2 ⟨_, first, hsteps⟩

/-- Settles O22: DEC_START leaves a decoder that has decoded nothing, and the bytes of the track are the bits of
its codewords. -/
theorem legalTrackRoundTrip : Obligations.LegalTrackRoundTrip := by
  intro l s hl room
  obtain ⟨e, bits, hsteps, decoded⟩ := stepBits_channelStream (c := s.cfg) (s := s) hl hasDecoded_start
    (followsClockRule_channelStream hl s) rfl ((Nat.zero_add _).le.trans room)
  rw [← channelBits_serialized] at hsteps
  have started : exec (.decStart false false) s = .next (accept { s with dec := Decoder.start false false }) := rfl
  refine ⟨accept { s with dec := e }, ?_, rfl, decoded.dstate, by simpa using decoded.trackLen, decoded.catalog,
    fun n hn => ⟨?_, decoded.sync n⟩⟩
  · rw [runInstrs_cons started]
    exact runInstrs_decBytes (s := accept { s with dec := Decoder.start false false }) rfl rfl hsteps
  · refine (decoded.byte n).trans ?_
    simp [hn]

end Sys2Proof.Machine

/-! # Scope: the outcomes of a command word, its refusals and faults, and what cannot interfere -/

namespace Sys2Proof.Machine

open Sys2Proof.Config

/-! ### The outcomes of an instruction (60_exceptions.md R202 to R205) -/

/-- An instruction of the decoder's datapath other than DEC_START is a command on the decoder. -/
theorem exec_eq_decoderCommand {i : Instr} (hd : isDecoderInstr i = true) (hs : isDecStart i = false) (s : State) :
    exec i s = decoderCommand (decoderOp i) s := by
  cases i with
  | decStart => cases hs
  | encStart | encByte | crcLoad | crcByte | encSyncA1 | encSyncC2 | encData => cases hd
  | decBit | decByte | decEnd | syncA1 | markC2 | gap4E | dataWindow | idamFc | idamFd | idamFe | dam
  | markUnknown => rfl

/-- DEC_START and the instructions of the other two datapaths are always accepted. -/
theorem exec_accepted {i : Instr} (h : isDecoderInstr i = false ∨ isDecStart i = true) (s : State) :
    ∃ t, exec i s = .next t ∧ t.result = okCode := by
  cases i with
  | decStart | encStart | encByte | crcLoad | crcByte | encSyncA1 | encSyncC2 | encData => exact ⟨_, rfl, rfl⟩
  | decBit | decByte | decEnd | syncA1 | markC2 | gap4E | dataWindow | idamFc | idamFd | idamFe | dam
  | markUnknown => rcases h with h | h <;> cases h

/-- Every instruction gives a next state: it has taken effect, or it is refused because the decoder is Done, or
it has faulted. -/
theorem exec_threeOutcomes (i : Instr) (s : State) :
    ∃ t, exec i s = .next t ∧ (t.result = okCode ∨ t = refuse .decoderDone s ∨ ∃ f, t = raiseFault f s) := by
  by_cases h : isDecoderInstr i = false ∨ isDecStart i = true
  · obtain ⟨t, ht, hres⟩ := exec_accepted h s
    exact ⟨t, ht, .inl hres⟩
  · simp only [not_or, Bool.not_eq_false, Bool.not_eq_true] at h
    obtain ⟨hd, hs⟩ := h
    have run := decoderCommand_eq (decoderOp i) s
    refine ⟨_, (exec_eq_decoderCommand hd hs s).trans run, ?_⟩
    rcases decoderCommand_cases run with ⟨-, h⟩ | ⟨-, d, -, h⟩ | ⟨-, f, -, h⟩
    · exact .inr (.inl h)
    · exact .inl (congrArg State.result h)
    · exact .inr (.inr ⟨f, h⟩)

/-- Every step gives a next state (R200, R202). -/
theorem step_next (s : State) : ∃ t, step s = .next t := by
  cases hport : s.port with
  | nil => exact ⟨s, step_of_empty hport⟩
  | cons w rest =>
    cases hw : decodeCommand w with
    | error r => exact ⟨_, step_of_refused hport hw⟩
    | ok i =>
      obtain ⟨t, ht, -⟩ := exec_threeOutcomes i { s with port := rest }
      exact ⟨t, (step_of_command hport hw).trans ht⟩

/-- The codes of the refusals (R204). -/
theorem refuseCode_mem_refusals (r : RefuseReason) : refuseCode r ∈ ([0x01, 0x02, 0x03] : List Byte) := by
  cases r <;> decide

/-- The codes of the faults (R203). -/
theorem faultCode_mem_faults (f : Fault) : faultCode f ∈ ([0x10, 0x11] : List Byte) := by
  cases f <;> decide

/-- Settles O9: a word that does not decode is refused, and one that does has the outcome of its instruction. -/
theorem threeOutcomes : Obligations.ThreeOutcomes := by
  intro s w rest hport
  cases hw : decodeCommand w with
  | error r =>
    exact ⟨_, step_of_refused hport hw, rfl, rfl, .inr (.inl ⟨refuseCode_mem_refusals r, rfl⟩)⟩
  | ok i =>
    obtain ⟨t, ht, outcome⟩ := exec_threeOutcomes i { s with port := rest }
    obtain ⟨hcfg, hrest, -⟩ := datapathsShareNoRegister i _ t ht
    refine ⟨t, (step_of_command hport hw).trans ht, hrest, hcfg, ?_⟩
    rcases outcome with hok | rfl | ⟨f, rfl⟩
    · exact .inl ⟨hok, i, rfl, ht⟩
    · exact .inr (.inl ⟨refuseCode_mem_refusals .decoderDone, rfl⟩)
    · exact .inr (.inr ⟨faultCode_mem_faults f, rfl⟩)

/-- An instruction leaves one of the codes of R205 in RESULT. -/
theorem exec_result_mem {i : Instr} {s t : State} (h : exec i s = .next t) : t.result ∈ resultCodes := by
  rcases exec_outcome h with ⟨hok, -⟩ | ⟨hfail, -⟩
  · exact hok ▸ List.mem_cons_self
  · exact failureCodes_subset hfail

/-- Settles O10: a step with a word on the port refuses it or runs its instruction, and either leaves a code of
the list. -/
theorem resultCodesOnly : Obligations.ResultCodesOnly := by
  refine ⟨rfl, rfl, rfl, rfl, rfl, rfl, fun i s t => exec_result_mem, fun s t hport h => ?_, fun _ => rfl⟩
  rcases step_cases h with ⟨hempty, -⟩ | ⟨w, rest, -, ⟨r, -, rfl⟩ | ⟨i, -, hexec⟩⟩
  · exact absurd hempty hport
  · exact failureCodes_subset (refuseCode_mem r)
  · exact exec_result_mem hexec

/-! ### Refusals and faults (R203, R204, R206) -/

/-- Settles O11: every decoder instruction but DEC_START is a command on the decoder, which Done refuses. -/
theorem decoderDoneRefused : Obligations.DecoderDoneRefused := by
  intro i s hd hs hdone
  rw [exec_eq_decoderCommand hd hs, decoderCommand_done hdone]
  rfl

/-- An instruction on an Active decoder whose operation faults leaves the state of R203. -/
theorem exec_of_fault {i : Instr} {s : State} {f : Fault} (ha : s.dec.dstate = .active)
    (h : decoderOp i s.cfg s.dec = .error f) (hi : isDecoderInstr i = true) (hs : isDecStart i = false) :
    exec i s = .next (raiseFault f s) :=
  (exec_eq_decoderCommand hi hs s).trans (decoderCommand_error ha h)

/-- With the catalog full an open field cannot be truncated (R154, R155). -/
theorem truncateOpen_of_fullCatalog {c : Params} {d : Decoder} (ho : d.stage.openField = true)
    (h : d.catalog.length = c.catalogCap) : truncateOpen c d = .error .catalogOverflow := by
  have hs : d.stage ≠ .idle := fun hs => by simp [hs, Stage.openField] at ho
  rw [truncateOpen_open hs]
  exact truncate_error.2 ⟨ho, h, rfl⟩

/-- A DEC_BYTE, or its rest, in which a presumed byte boundary lies faults on a full byte memory: the bits
before the boundary only count down, unless one of them faults already (R105, R108). -/
theorem stepBits_of_full {c : Params} {bs : List Bool} {d : Decoder} (hpos : 1 ≤ d.cnt)
    (hcnt : d.cnt ≤ bs.length) (hlast : d.lastKind ≠ .c2off)
    (hcat : d.stage.openField = true → d.catalog.length ≠ c.catalogCap) (hfull : d.trackLen = c.bytesCap) :
    stepBits c bs d = .error .bytesOverflow := by
  induction bs generalizing d with
  | nil => rw [List.length_nil] at hcnt; omega
  | cons b bs ih =>
    rw [stepBits]
    rcases stepBit_of_full (b := b) hfull hlast hcat with hfault | ⟨hne, hcount⟩
    · rw [hfault]; rfl
    · rw [hcount]
      rw [List.length_cons] at hcnt
      exact ih (d := { shiftIn b d with cnt := d.cnt - 1 }) (by show 1 ≤ d.cnt - 1; omega)
        (by show d.cnt - 1 ≤ bs.length; omega) hlast hcat hfull

/-- Settles O12: the byte meets a boundary on a full memory, the form emits into one, and the truncation of
DEC_END closes into a full catalog. -/
theorem faultDiscardsCommand : Obligations.FaultDiscardsCommand := by
  refine ⟨fun x s ha hpos hcnt hlast hcat hfull => ?_, fun b i s ha hform hi hfull => ?_, fun s ha ho hcat => ?_⟩
  · have fault : stepBits s.cfg (channelBits x) s.dec = .error .bytesOverflow :=
      stepBits_of_full hpos (by rwa [length_channelBits]) hlast (fun ho => (hcat ho).ne) hfull
    exact exec_of_fault (i := .decByte x) ha fault rfl rfl
  · obtain ⟨f, hf, rfl⟩ := completesForm_iff.1 hform
    have fault : stepBit s.cfg b s.dec = .error .bytesOverflow :=
      (stepBit_of_some hf).trans <|
        runWindow_of_full (d := shiftIn b s.dec) hfull fun ha1 => absurd (congrArg WindowForm.instr ha1) hi
    exact exec_of_fault (i := .decBit b) ha fault rfl rfl
  · have fault : endTrack s.cfg s.dec = .error .catalogOverflow := by
      rw [endTrack, truncateOpen_of_fullCatalog ho hcat]
      rfl
    exact exec_of_fault (i := .decEnd) ha fault rfl rfl

/-- Settles O6: the decoder refuses the word before dstate is asked; an A1 truncates the open field before it is
placed; and with no field open the placing faults. -/
theorem refusalAndFaultPriority : Obligations.RefusalAndFaultPriority := by
  refine ⟨fun s w rest hport _ hop hres => ?_, fun s ha ho hcat _ => ?_, fun s ha hs hfull hkeep => ?_⟩
  · exact step_of_refused hport (decodeCommand_reserved (f := .decByte) (by simp [commandFields]) hop hres)
  · have fault : runWindow s.cfg .syncA1 s.dec = .error .catalogOverflow := by
      simp only [runWindow, syncRun, truncateOpen_of_fullCatalog ho hcat]
      rfl
    exact exec_of_fault (i := .syncA1) ha fault rfl rfl
  · rw [← replacesC2_iff, Bool.not_eq_true] at hkeep
    have closed : ¬ s.dec.stage.openField = true := by simp [hs, Stage.openField]
    have fault : runWindow s.cfg .syncA1 s.dec = .error .bytesOverflow :=
      runWindow_of_full hfull fun _ => ⟨hkeep, fun ho => absurd ho closed⟩
    exact exec_of_fault (i := .syncA1) ha fault rfl rfl

/-! ### Instructions of different datapaths (R211) -/

/-- The two instructions can run in either order from `s`, with the same next state but for RESULT. -/
def CommuteAt (s : State) (i j : Instr) : Prop :=
  ∃ t u, runInstrs [i, j] s = .next t ∧ runInstrs [j, i] s = .next u ∧ u = { t with result := u.result }

theorem CommuteAt.symm {s : State} {i j : Instr} (h : CommuteAt s i j) : CommuteAt s j i := by
  obtain ⟨t, u, ht, hu, heq⟩ := h
  exact ⟨u, t, hu, ht, by rw [heq]⟩

/-- Two instructions that each give a next state from every state commute if those next states do. -/
theorem commuteAt_of_exec {i j : Instr} {f g : State → State} (hi : ∀ s, exec i s = .next (f s))
    (hj : ∀ s, exec j s = .next (g s)) {s : State} (h : f (g s) = { g (f s) with result := (f (g s)).result }) :
    CommuteAt s i j := by
  refine ⟨g (f s), f (g s), ?_, ?_, h⟩
  · rw [runInstrs_cons (hi s), runInstrs_cons (hj _)]; rfl
  · rw [runInstrs_cons (hj s), runInstrs_cons (hi _)]; rfl

theorem decoder_commutes_encoder {i j : Instr} (hi : isDecoderInstr i = true) (hj : isEncoderInstr j = true)
    (s : State) : CommuteAt s i j := by
  obtain ⟨f, hf⟩ := exec_decoderInstr hi
  obtain ⟨g, hg⟩ := exec_encoderInstr hj
  exact commuteAt_of_exec hf hg rfl

theorem decoder_commutes_crc {i j : Instr} (hi : isDecoderInstr i = true) (hj : isCrcInstr j = true)
    (s : State) : CommuteAt s i j := by
  obtain ⟨f, hf⟩ := exec_decoderInstr hi
  obtain ⟨g, hg⟩ := exec_crcInstr hj
  exact commuteAt_of_exec hf hg rfl

theorem encoder_commutes_crc {i j : Instr} (hi : isEncoderInstr i = true) (hj : isCrcInstr j = true)
    (s : State) : CommuteAt s i j := by
  obtain ⟨f, hf⟩ := exec_encoderInstr hi
  obtain ⟨g, hg⟩ := exec_crcInstr hj
  exact commuteAt_of_exec hf hg rfl

/-- Settles O53: an instruction of one datapath reads and writes registers of that datapath alone, so that each
of the three pairs of datapaths commutes. -/
theorem datapathInstrsCommute : Obligations.DatapathInstrsCommute := by
  intro i j s hne
  rcases datapath_cases i with ⟨di, ei, -⟩ | ⟨di, ei, -⟩ | ⟨di, ei, ci⟩
  · rcases datapath_cases j with ⟨dj, ej, -⟩ | ⟨-, ej, -⟩ | ⟨-, -, cj⟩
    · simp [di, dj, ei, ej] at hne
    · exact decoder_commutes_encoder di ej s
    · exact decoder_commutes_crc di cj s
  · rcases datapath_cases j with ⟨dj, -, -⟩ | ⟨dj, ej, -⟩ | ⟨-, -, cj⟩
    · exact (decoder_commutes_encoder dj ei s).symm
    · simp [di, dj, ei, ej] at hne
    · exact encoder_commutes_crc ei cj s
  · rcases datapath_cases j with ⟨dj, -, -⟩ | ⟨-, ej, -⟩ | ⟨dj, ej, -⟩
    · exact (decoder_commutes_crc dj ci s).symm
    · exact (encoder_commutes_crc ej ci s).symm
    · simp [di, dj, ei, ej] at hne

/-! ### Parallel instances (R210) -/

/-- With the step as a function on states, a step of one block applies it to that member of the list. -/
theorem stepInstance_eq_modify {f : State → State} (hf : ∀ s, step s = .next (f s)) (k : Nat) (bs : List State) :
    stepInstance k bs = .next (bs.modify k f) := by
  unfold stepInstance
  cases h : bs[k]? with
  | none => rw [List.modify_eq_self (List.getElem?_eq_none_iff.1 h)]
  | some s =>
    rw [List.modify_eq_set_getElem?, h]
    simp only [hf]
    rfl

/-- Changes of two different members of a list may be made in either order. -/
theorem modify_comm {α : Type} {j k : Nat} (hjk : j ≠ k) (f g : α → α) (l : List α) :
    (l.modify j f).modify k g = (l.modify k g).modify j f := by
  refine List.ext_getElem? fun n => ?_
  simp only [List.getElem?_modify]
  by_cases hj : j = n
  · have hk : k ≠ n := hj ▸ hjk.symm
    simp [hj, hk]
  · simp [hj]

/-- Settles O60: every state has its step, so that a step of one block is a change of its member. -/
theorem instancesIndependent : Obligations.InstancesIndependent := by
  choose f hf using step_next
  have stepped := stepInstance_eq_modify hf
  refine ⟨fun k bs cs h => ?_, fun j k bs hjk => ?_⟩
  · cases (stepped k bs).symm.trans h
    refine ⟨List.length_modify .., fun j hj => List.getElem?_modify_ne _ _ hj.symm, fun s hs => ⟨f s, hf s, ?_⟩⟩
    rw [List.getElem?_modify_eq, hs]
    rfl
  · refine ⟨_, _, _, stepped j bs, stepped k bs, stepped k _, ?_⟩
    rw [stepped, modify_comm hjk]

end Sys2Proof.Machine

/-! # Scope: power-on, and a track that is finished -/

namespace Sys2Proof.Machine

/-! ### Power-on (10_state.md R41, 70_reset_and_hazards.md R220) -/

/-- Settles O13: the registers are those `State.powerOn` writes, and DEC_START 0,0 writes them again. -/
theorem powerOnValues : Obligations.PowerOnValues := by
  intro c
  obtain ⟨-, -, started⟩ := decStartResult
  exact ⟨rfl, rfl, rfl, rfl, rfl, started false false (State.powerOn c)⟩

/-! ### The Done decoder (R69, R203, R223) -/

/-- A Done decoder stays as it is: its own datapath's instructions are refused, and the other two datapaths do
not write it. -/
theorem exec_dec_of_done {i : Instr} {s t : State} (hdone : s.dec.dstate = .done) (hi : isDecStart i = false)
    (h : exec i s = .next t) : t.dec = s.dec := by
  cases hd : isDecoderInstr i with
  | true =>
    cases (decoderDoneRefused i s hd hi hdone).symm.trans h
    rfl
  | false =>
    obtain ⟨-, -, hdec, -⟩ := datapathsShareNoRegister i s t h
    exact hdec hd

/-- DEC_END finishes the track in each of its outcomes: it is refused because the track is finished already, it
finishes it, or it faults (R157). -/
theorem exec_decEnd_done {s t : State} (h : exec .decEnd s = .next t) : t.dec.dstate = .done := by
  rcases decoderCommand_cases (op := endTrack) h with ⟨hdone, rfl⟩ | ⟨-, d, hd, rfl⟩ | ⟨-, f, -, rfl⟩
  · exact hdone
  · obtain ⟨e, -, rfl⟩ := endTrack_ok.1 hd
    rfl
  · rfl

theorem refuseCode_ne_faultCode (r : RefuseReason) (f : Fault) : refuseCode r ≠ faultCode f := by
  cases r <;> cases f <;> decide

/-- Only a fault leaves the code of a fault in RESULT, and a fault leaves the decoder Done (R203, R205). -/
theorem exec_done_of_faultCode {i : Instr} {s t : State} {f : Fault} (h : exec i s = .next t)
    (hres : t.result = faultCode f) : t.dec.dstate = .done := by
  obtain ⟨u, hu, outcome⟩ := exec_threeOutcomes i s
  cases hu.symm.trans h
  rcases outcome with hok | rfl | ⟨g, rfl⟩
  · exact absurd (hres.symm.trans hok) (okCode_ne_of_mem (faultCode_mem f))
  · exact absurd hres (refuseCode_ne_faultCode .decoderDone f)
  · rfl

/-- Settles O51: what Done keeps, and the two ways into it. -/
theorem doneTrackIsFinal : Obligations.DoneTrackIsFinal := by
  intro i s t h
  refine ⟨fun hdone hi => exec_dec_of_done hdone hi h, ?_, ?_⟩
  · rintro rfl
    exact exec_decEnd_done h
  · rintro (hres | hres)
    · exact exec_done_of_faultCode (f := .bytesOverflow) h hres
    · exact exec_done_of_faultCode (f := .catalogOverflow) h hres

end Sys2Proof.Machine
